-- ==== Sys2Proof/Word.lean ====
section
/-! DEFINITION. The byte, the one word of this hardware (00_scope R17: 8 bits, unsigned, bit 0 the
least significant). Every other quantity is an unbounded natural or integer (R13, log 24). -/

namespace Sys2Proof

/-- A byte of a stream or of a space (R17, R50). -/
abbrev Byte := BitVec 8

end Sys2Proof
end

