-- ==== Sys2Proof/Syntax.lean ====
section
/-! DEFINITION. The token set of LZO1X, which is the instruction set (00_scope R2), with the phases
that give a first byte its meaning (30_encoding R81). One constructor of Instr for each row of
spec/opcode_table.json; a constructor's fields are the fields of the row's encoding at their own
widths, so that no bit of a header is lost. -/

namespace Sys2Proof

/-- The spec's faults (60_exceptions R260 to R263). They are states of the machine, not stops of the
model. -/
inductive FaultCode where
  /-- R261: a read at or past the read limit. -/
  | inputUnderrun
  /-- R262: a match points before the start of the output. -/
  | lookbehindUnderrun
  /-- R263: a leveled encode was started with a level outside 1 to 9. -/
  | invalidLevel
  deriving DecidableEq, Repr

/-- The argument of DISPATCH (10_state R26). -/
inductive Ctx where
  | plain
  | biased
  deriving DecidableEq, Repr

/-- The decoder's control state (10_state R25). The carry state is the argument of `trail` (R28),
two bits as the token's carry field is. -/
inductive Phase where
  | start
  | loop
  | dispatch (ctx : Ctx)
  | trail (n : BitVec 2)
  | done
  | fault (code : FaultCode)
  deriving DecidableEq, Repr

/-- A length field of `w` bits with its extension (30_encoding R83, R87, R88, R90): the inline value,
or, when the inline field is 0, `k` bytes equal to EXT_CONT and the terminating byte `v`. -/
inductive LenField (w : Nat) where
  | inline (l : BitVec w)
  | ext (k : Nat) (v : Byte)
  deriving DecidableEq, Repr

/-- The five match encodings (30_encoding R81, conflict C4). -/
inductive MatchClass where
  | m1
  | m1b
  | m2
  | m3
  | m4
  deriving DecidableEq, Repr

/-- The instructions: one constructor for each row of spec/opcode_table.json. -/
inductive Instr where
  /-- START_PASS (R121): the first byte is 0 to 17 and stays unread. -/
  | startPass
  /-- START_TRAIL (R122): `nn` is the byte N, 18 to 20. -/
  | startTrail (nn : Byte)
  /-- START_LIT (R123): `nn` is the byte N, 21 to 255. -/
  | startLit (nn : Byte)
  /-- LIT (R125): the length field L with its extension. -/
  | lit (len : LenField 4)
  /-- M1 (R152): fields D, S, H. -/
  | m1 (d s : BitVec 2) (h : Byte)
  /-- M1B (R154): fields D, S, H. -/
  | m1b (d s : BitVec 2) (h : Byte)
  /-- M2 (R156): fields L, D, S, H. -/
  | m2 (l d : BitVec 3) (s : BitVec 2) (h : Byte)
  /-- M3 (R158): the length field L with its extension, then D, S, H. -/
  | m3 (len : LenField 5) (d : BitVec 6) (s : BitVec 2) (h : Byte)
  /-- M4 (R160): the bit H' (`hb`), the length field L with its extension, then D, S, H. -/
  | m4 (hb : BitVec 1) (len : LenField 3) (d : BitVec 6) (s : BitVec 2) (h : Byte)
  /-- EOS (R162): the length field and the carry bits are read and ignored. -/
  | eos (len : LenField 3) (s : BitVec 2)
  /-- TRAIL (R131): `n` raw literal bytes, 1 to 3. -/
  | trail (n : BitVec 2)
  deriving DecidableEq, Repr

end Sys2Proof
end

