-- ==== Sys2Proof/Config.lean ====
section
/-! DEFINITION. What an instance of the block fixes before a run (00_scope R9 to R15, decision D23),
and the values the spec leaves open, as constants with no body. -/

namespace Sys2Proof

/-- The two legal values of EXT_CONT (R9, conflict C1). -/
inductive ExtCont where
  /-- 255, what the source document states. -/
  | c255
  /-- 0, the LZO1X reference format. -/
  | c0
  deriving DecidableEq, Repr

/-- The two values of BIAS_SCOPE (R10, conflict C2). -/
inductive BiasScope where
  | firstMatchOnly
  | everyRun
  deriving DecidableEq, Repr

/-- A format profile (R11). -/
structure Profile where
  extCont : ExtCont
  biasScope : BiasScope
  deriving DecidableEq, Repr

/-- Profile DOC, the default (R11). -/
def Profile.doc : Profile := ⟨.c255, .firstMatchOnly⟩

/-- Profile REF (R11). -/
def Profile.ref : Profile := ⟨.c0, .everyRun⟩

/-- Which realisation of the encoders' search the instance has (43_greedy_encoder R212,
44_leveled_encoder R235, U24, U34). `reference` is the algorithm of R215 to R217 and R237 to R242;
`free` is any other search, whose choices nothing constrains but the relation of R214 and R236
(DESIGN CHOICE, safe: log 7). -/
inductive SearchKind where
  | reference
  | free
  deriving DecidableEq, Repr

/-- PREFETCH_MAX (R15): OPEN, so a constant with no body (log 6). -/
opaque Config.prefetchMax : Nat

/-- The free value behind the count of bytes pulled from a live source (20_memory R58, U22), one for
each draw (log 6, safe). -/
opaque Config.freePull : Nat → Nat

/-- The free search's proposal (distance, length) at a position of an input: a function of the profile, the
level of an ENCL run (none for ENCG), the input and the position alone, since a realisation is
deterministic and holds no state between calls (43_greedy_encoder R213; R212, R235, U24, U34; log 7,
safe). -/
opaque Config.freeMatch : Profile → Option Nat → List Byte → Nat → Nat × Nat

/-- Which match classes the free realisation of ENCG uses (R214 (c); log 7, safe). -/
opaque Config.freeUses : MatchClass → Bool

end Sys2Proof
end

