-- ==== Sys2Proof/WellFormed.lean ====
section
/-! DEFINITION. Which terms of Instr stand for an encoding (30_encoding R81 to R91, R99). An inline
length is not 0 (40_decoder_control R129), an extension ends at a byte other than EXT_CONT (R90), a
START byte is in its range (R82), an M2 length field is at least 2 (R86), an M4 token is no end marker
(R88, R89), a trailing run has 1 to 3 bytes (R131). -/

namespace Sys2Proof

/-- The byte value of EXT_CONT (R9). -/
def ExtCont.byte : ExtCont → Byte
  | .c255 => 255#8
  | .c0 => 0#8

/-- A length field an encoding can hold (R90, R129). -/
def LenField.wf {w : Nat} (p : Profile) : LenField w → Bool
  | .inline l => l != 0
  | .ext _ v => v != p.extCont.byte

/-- The well-formed instructions under a profile. -/
def Instr.wf (p : Profile) : Instr → Bool
  | .startPass => true
  | .startTrail nn => decide (18 ≤ nn.toNat) && decide (nn.toNat ≤ 20)
  | .startLit nn => decide (21 ≤ nn.toNat)
  | .lit len => len.wf p
  | .m1 _ _ _ => true
  | .m1b _ _ _ => true
  | .m2 l _ _ _ => decide (2 ≤ l.toNat)
  | .m3 len _ _ _ => len.wf p
  | .m4 hb len d _ h => len.wf p && (hb != 0 || d != 0 || h != 0)
  | .eos len _ => len.wf p
  | .trail n => n != 0

end Sys2Proof
end

