-- ==== Sys2Proof/Decode.lean ====
section
/-! DEFINITION. The shared token codec FMT (00_scope R1): decoding a header in a phase (30_encoding
R81 to R91, 40_decoder_control R121 to R130, 41_decoder_matches R150, R151), and the encoder, its
inverse, written from the same bit pictures. Decoding is total and says by name why it gives no
instruction. The bit positions are the spec's D3 (PRESUMED by the spec from the reference format,
unsafe: log 16). -/

namespace Sys2Proof

/-! ## Format constants (00_scope R16) -/

abbrev m1MaxOffset : Nat := 1024
abbrev m2MaxOffset : Nat := 2048
abbrev m3MaxOffset : Nat := 16384
abbrev m4MaxOffset : Nat := 49151
abbrev m4Bias : Nat := 16384
abbrev startBias : Nat := 17
abbrev litBias : Nat := 3
abbrev litExtBase : Nat := 15
abbrev m3ExtBase : Nat := 31
abbrev m4ExtBase : Nat := 7

/-! ## Decoding -/

/-- What decoding answers: the instruction with the rest of the bytes; or that a byte of the header
is missing (60_exceptions R261); or that the phase has no step (10_state R25: DONE, FAULT). -/
inductive Decoded where
  | ok (i : Instr) (rest : List Byte)
  | underrun
  | noToken
  deriving DecidableEq, Repr

/-- The bytes of an extension (R90, R128): how many continuing bytes, the terminator, the rest. -/
def readExt (p : Profile) : List Byte → Option (Nat × Byte × List Byte)
  | [] => none
  | v :: r =>
    if v = p.extCont.byte then (readExt p r).map fun (k, v', r') => (k + 1, v', r')
    else some (0, v, r)

/-- A length field: the inline bits, or the extension when they are 0 (R129). -/
def readLen {w : Nat} (p : Profile) (l : BitVec w) (bs : List Byte) : Option (LenField w × List Byte) :=
  if l = 0 then (readExt p bs).map fun (k, v, r) => (.ext k v, r) else some (.inline l, bs)

/-- M2 (R86): byte 0 is LLLDDDSS. -/
def decodeM2 (b : Byte) : List Byte → Decoded
  | [] => .underrun
  | h :: r => .ok (.m2 (b.extractLsb' 5 3) (b.extractLsb' 2 3) (b.extractLsb' 0 2) h) r

/-- M3 (R87): byte 0 is 001LLLLL, then the extension, then DDDDDDSS HHHHHHHH. -/
def decodeM3 (p : Profile) (b : Byte) (bs : List Byte) : Decoded :=
  match readLen p (b.extractLsb' 0 5) bs with
  | some (len, lo :: hi :: r) => .ok (.m3 len (lo.extractLsb' 2 6) (lo.extractLsb' 0 2) hi) r
  | _ => .underrun

/-- M4 and EOS (R88, R89, R160, R162): byte 0 is 0001HLLL, then the extension, then
DDDDDDSS HHHHHHHH; the end marker is the case H' = 0 and D = H = 0. -/
def decodeM4 (p : Profile) (b : Byte) (bs : List Byte) : Decoded :=
  match readLen p (b.extractLsb' 0 3) bs with
  | some (len, lo :: hi :: r) =>
    if b.extractLsb' 3 1 = 0#1 ∧ lo.extractLsb' 2 6 = 0#6 ∧ hi = 0#8 then
      .ok (.eos len (lo.extractLsb' 0 2)) r
    else .ok (.m4 (b.extractLsb' 3 1) len (lo.extractLsb' 2 6) (lo.extractLsb' 0 2) hi) r
  | _ => .underrun

/-- M1 and M1B (R84): byte 0 is 0000DDSS; the context chooses. -/
def decodeM1 (ctx : Ctx) (b : Byte) : List Byte → Decoded
  | [] => .underrun
  | h :: r =>
    match ctx with
    | .plain => .ok (.m1 (b.extractLsb' 2 2) (b.extractLsb' 0 2) h) r
    | .biased => .ok (.m1b (b.extractLsb' 2 2) (b.extractLsb' 0 2) h) r

/-- A match token with first byte 16 to 255, the same in LOOP and in DISPATCH (R130, R151). -/
def decodeFar (p : Profile) (b : Byte) (bs : List Byte) : Decoded :=
  if 64 ≤ b.toNat then decodeM2 b bs
  else if 32 ≤ b.toNat then decodeM3 p b bs
  else decodeM4 p b bs

/-- LIT (R83): byte 0 is 0000LLLL, then the extension. -/
def decodeLit (p : Profile) (b : Byte) (bs : List Byte) : Decoded :=
  match readLen p (b.extractLsb' 0 4) bs with
  | some (len, r) => .ok (.lit len) r
  | none => .underrun

/-- The first byte in phase START (R121): above 17 it is a START token, else it stays unread. -/
def decodeStart : List Byte → Decoded
  | [] => .underrun
  | b :: r =>
    if startBias < b.toNat then
      if b.toNat - startBias < 4 then .ok (.startTrail b) r else .ok (.startLit b) r
    else .ok .startPass (b :: r)

/-- The decoder: the phase chooses the reading of the first byte (R81). -/
def decode (p : Profile) (ph : Phase) (bs : List Byte) : Decoded :=
  match ph with
  | .start => decodeStart bs
  | .loop =>
    match bs with
    | [] => .underrun
    | b :: r => if b.toNat < 16 then decodeLit p b r else decodeFar p b r
  | .dispatch ctx =>
    match bs with
    | [] => .underrun
    | b :: r => if b.toNat < 16 then decodeM1 ctx b r else decodeFar p b r
  | .trail n => .ok (.trail n) bs
  | .done => .noToken
  | .fault _ => .noToken

/-! ## Encoding -/

/-- The inline bits of a length field: 0 where there is an extension (R90). -/
def LenField.bits {w : Nat} : LenField w → BitVec w
  | .inline l => l
  | .ext _ _ => 0

/-- The extension bytes of a length field (R90). -/
def LenField.extBytes {w : Nat} (p : Profile) : LenField w → List Byte
  | .inline _ => []
  | .ext k v => List.replicate k p.extCont.byte ++ [v]

/-- The header bytes of an instruction, from the bit pictures of R82 to R89. START_PASS and TRAIL have
none: the first leaves its byte unread (R121), the second is raw bytes (R91). -/
def encode (p : Profile) : Instr → List Byte
  | .startPass => []
  | .startTrail nn => [nn]
  | .startLit nn => [nn]
  | .lit len => (0#4 ++ len.bits : Byte) :: len.extBytes p
  | .m1 d s h => [(0#4 ++ d ++ s : Byte), h]
  | .m1b d s h => [(0#4 ++ d ++ s : Byte), h]
  | .m2 l d s h => [(l ++ d ++ s : Byte), h]
  | .m3 len d s h => (1#3 ++ len.bits : Byte) :: (len.extBytes p ++ [(d ++ s : Byte), h])
  | .m4 hb len d s h => (1#4 ++ hb ++ len.bits : Byte) :: (len.extBytes p ++ [(d ++ s : Byte), h])
  | .eos len s => (2#5 ++ len.bits : Byte) :: (len.extBytes p ++ [(0#6 ++ s : Byte), 0#8])
  | .trail _ => []

/-- The phases in which a row of the opcode table is read (the table's "phase", R81). -/
def Instr.readIn (i : Instr) (ph : Phase) : Bool :=
  match i with
  | .startPass => ph == .start
  | .startTrail _ => ph == .start
  | .startLit _ => ph == .start
  | .lit _ => ph == .loop
  | .m1 _ _ _ => ph == .dispatch .plain
  | .m1b _ _ _ => ph == .dispatch .biased
  | .m2 _ _ _ _ => ph == .loop || ph == .dispatch .plain || ph == .dispatch .biased
  | .m3 _ _ _ _ => ph == .loop || ph == .dispatch .plain || ph == .dispatch .biased
  | .m4 _ _ _ _ _ => ph == .loop || ph == .dispatch .plain || ph == .dispatch .biased
  | .eos _ _ => ph == .loop || ph == .dispatch .plain || ph == .dispatch .biased
  | .trail n => ph == .trail n

/-! ## The host's table word -/

/-- The bytes of a table word, least significant first. -/
def wordBytes (nbits w : Nat) : List Byte :=
  (List.range (nbits / 8)).map fun k => BitVec.ofNat 8 (w >>> (8 * k))

/-- The bytes of a table word and zeros for every byte the row gives no bits (operand and literal bytes):
the longest run a word can name has 18 bytes more than the sum of its bytes (R82, R83, R90). -/
def tableBytes (nbits w : Nat) : List Byte :=
  wordBytes nbits w ++ List.replicate (((wordBytes nbits w).map BitVec.toNat).sum + 24) 0#8

/-- A table word does not name the phase its row is read in, so the phase is chosen from the first byte
(DESIGN CHOICE, safe: log 17): TRAIL where the row has no bits, START for the three START_TRAIL bytes,
DISPATCH(PLAIN) for a two-byte word below 16, else LOOP. -/
def tablePhase (nbits w : Nat) : Phase :=
  let b := w % 256
  if nbits / 8 = 0 then .trail 1
  else if 18 ≤ b ∧ b ≤ 20 then .start
  else if b < 16 ∧ 16 ≤ nbits then .dispatch .plain
  else .loop

/-- The instruction the decoder reads from a table word under profile DOC, the profile after reset. -/
def decodeTableWord (nbits w : Nat) : Option Instr :=
  match decode Profile.doc (tablePhase nbits w) (tableBytes nbits w) with
  | .ok i _ => some i
  | .underrun => none
  | .noToken => none

end Sys2Proof
end

