-- ==== Sys2Proof/Machine/State.lean ====
section
/-! DEFINITION. The state of one instance of the block (10_state R20 to R46), as plain data. -/

namespace Sys2Proof.Machine

/-- A byte-addressed space (20_memory R50): IN, OUT, D or C, as cells whose k-th address is k. An
address that is not listed holds no byte (log 8, safe). -/
abbrev Memory := List Host.Cell

/-- The canonical form: the addresses are 0, 1, 2, … with no gap (R50, R52), so they rise strictly and
equal spaces are equal lists. -/
abbrev Memory.wf (m : Memory) : Prop := m.map Prod.fst = List.range m.length

/-- STATUS (R39). -/
inductive Status where
  | idle
  | busy
  | done
  | fault
  deriving DecidableEq, Repr

/-- The units a start command starts (R38). -/
inductive RunUnit where
  | dec
  | encg
  | encl
  deriving DecidableEq, Repr

/-- The host registers, numbers 0 to 7 (R38 to R42). -/
inductive Reg where
  | cmd
  | status
  | err
  | inLen
  | outHint
  | level
  | outLen
  | inPos
  deriving DecidableEq, Repr

/-- The decoder context in which the next emitted token will be read (R34). -/
inductive EmitCtx where
  | loopEntry
  | plain
  | biased
  deriving DecidableEq, Repr

/-- The emitter state (R34): C, carry_idx, e_seen_match, e_ctx. -/
structure Emitter where
  c : Memory
  carryIdx : Option Nat
  seenMatch : Bool
  ctx : EmitCtx
  deriving DecidableEq, Repr

/-- The emitter at the launch of an encode run (R46). -/
def Emitter.fresh : Emitter := ⟨[], none, false, .loopEntry⟩

/-- The parse state of an encoder (R34, R35): the emitter, `i` and `lit_start`. -/
structure Parse where
  em : Emitter
  pos : Nat
  litStart : Nat
  deriving DecidableEq, Repr

/-- The parse state at the launch of an encode run (R46). -/
def Parse.fresh : Parse := ⟨Emitter.fresh, 0, 0⟩

/-- What the host can do between two steps of the block (70_reset_and_hazards R292 to R296). The type
and the field `pending` are the model's own (DESIGN CHOICE, safe: log 10). -/
inductive HostOp where
  /-- A register write (R38, R41). -/
  | write (r : Reg) (v : Nat)
  /-- A register read (R38 to R42). -/
  | read (r : Reg)
  /-- A new stream on SRC from its first byte (R293); `live` says that more bytes may follow. -/
  | present (bs : List Byte) (live : Bool)
  /-- Further bytes on SRC, in order (R293); during a run, those of a live source (R295). -/
  | supply (bs : List Byte)
  /-- The live source ends (R54). -/
  | endSource
  /-- A change of the source's byte at address `a` (R72, R295). -/
  | alter (a : Nat) (v : Byte)
  /-- A read of the next byte of RES (R43). -/
  | readRes
  /-- Hardware reset (R290). -/
  | reset
  deriving DecidableEq, Repr

/-- The state of one instance (log 23), its counters unbounded (log 24). Fields the spec names carry its
name in their comment; `search` and the last three are the model's. The working registers of R30 are local
to a step (log 18). -/
structure State where
  /-- EXT_CONT and BIAS_SCOPE (R9 to R11, D23). No step changes it (log 2). -/
  profile : Profile
  /-- The encoders' search (R212, R235). No step changes it (log 7). -/
  search : SearchKind
  /-- STATUS (R39). -/
  status : Status
  /-- ERR (R40); none is the code NONE. -/
  err : Option FaultCode
  /-- IN_LEN (R41). -/
  inLen : Nat
  /-- OUT_HINT (R41). -/
  outHint : Nat
  /-- LEVEL (R41). -/
  level : Nat
  /-- OUT_LEN (R42). -/
  outLen : Nat
  /-- IN_POS (R42). -/
  inPos : Nat
  /-- SRC (R43): space IN of a DEC run, space D of an encode run (log 4). A run takes no byte away from it
  (log 27). -/
  src : Memory
  /-- Whether the source is live and has not ended (R54, R58; log 5). -/
  srcOpen : Bool
  /-- How many bytes RES has delivered (R43). -/
  resPos : Nat
  /-- The unit the last start command started; none since reset (R38, R45). -/
  run : Option RunUnit
  /-- in_len, latched at launch (R21, R292). -/
  runInLen : Nat
  /-- out_hint, latched at launch (R22, R292). -/
  runHint : Nat
  /-- level, latched at launch (R33, R292). -/
  runLevel : Nat
  /-- ip (R23). -/
  ip : Nat
  /-- OUT (R24). -/
  out : Memory
  /-- phase (R25). -/
  phase : Phase
  /-- seen_match (R27). -/
  seenMatch : Bool
  /-- How many bytes a live source had handed over when the DEC run ended (20_memory R58, U22; log 6); 0
  until then, and 0 in and after an encode run (log 28). -/
  pulled : Nat
  /-- The encoders' emitter and parse state (R34, R35). -/
  parse : Parse
  /-- ENCL: the finished parse A while parse B runs (44_leveled_encoder R242). -/
  firstParse : Option Memory
  /-- The model's own: the number of free values drawn (log 6). -/
  draws : Nat
  /-- The model's own: the host's next operations, oldest first; `none` is one turn of the block
  (log 10). -/
  pending : List (Option HostOp)
  /-- The model's own: what the host's last read returned; none where nothing was delivered (log 10). -/
  rdata : Option Nat
  deriving DecidableEq, Repr

/-- After a hardware reset (R45, R290). The per-run state, which the spec says does not exist then,
stands at its launch values, the ports and the model's own fields empty (DESIGN CHOICE, unsafe: log 3). -/
def State.reset : State where
  profile := Profile.doc
  search := .reference
  status := .idle
  err := none
  inLen := 0
  outHint := 0
  level := 0
  outLen := 0
  inPos := 0
  src := []
  srcOpen := false
  resPos := 0
  run := none
  runInLen := 0
  runHint := 0
  runLevel := 0
  ip := 0
  out := []
  phase := .start
  seenMatch := false
  pulled := 0
  parse := Parse.fresh
  firstParse := none
  draws := 0
  pending := []
  rdata := none

/-- Why the model stops. No instruction of the token set stops from a canonical state. -/
inductive Fault where
  /-- A match copy read an address of OUT that holds no byte (20_memory R60 defines no such read).
  Raised by the match tokens, only where OUT is not in canonical form, which no run reaches: safe. -/
  | absentByte (a : Nat)
  deriving DecidableEq, Repr

/-- What the model gives no meaning. -/
inductive Refusal where
  /-- An instruction without a meaning yet. No arm of exec raises it: safe. -/
  | notModelled (mnemonic : String)
  /-- The host altered the source during a run (R72, R295, U20: "refuse"). Raised by the host's
  operations, by no instruction: safe. -/
  | inputAltered
  /-- The host read RES before STATUS was DONE (R72, R295, U21: "refuse"). Raised by the host's
  operations, by no instruction: safe. -/
  | resReadEarly
  deriving DecidableEq, Repr

end Sys2Proof.Machine
end

