-- ==== Sys2Proof/Machine/Ops.lean ====
section
/-! DEFINITION. The named operations on spaces and on the state: reads and appends (20_memory), the
literal copy and the match copy (40_decoder_control R126, 41_decoder_matches R170), the ends of a run
(60_exceptions R268, 70_reset_and_hazards R294) and the launch (R292). -/

namespace Sys2Proof.Machine

/-! ## Spaces -/

/-- The bytes `bs` as cells from address `k` on. -/
def Memory.numberFrom : Nat → List Byte → Memory
  | _, [] => []
  | k, b :: r => (k, b) :: numberFrom (k + 1) r

/-- The space that holds exactly the bytes `bs`. -/
def Memory.ofBytes (bs : List Byte) : Memory := Memory.numberFrom 0 bs

/-- The byte sequence a space holds (R24). -/
def Memory.bytes (m : Memory) : List Byte := m.map Prod.snd

/-- `|S|`, the length of a space (R17). -/
def Memory.size (m : Memory) : Nat := m.length

/-- The byte at an address; none where the address holds none (R60). -/
def Memory.read (m : Memory) (a : Nat) : Option Byte :=
  (m.find? fun c => c.1 == a).map Prod.snd

/-- Append (R61) and Emit (42_token_emit R180): one byte at the end. -/
def Memory.append (m : Memory) (v : Byte) : Memory := m ++ [(m.size, v)]

/-- The bytes `bs` appended in order. -/
def Memory.appendAll (m : Memory) (bs : List Byte) : Memory := m ++ Memory.numberFrom m.size bs

/-- The byte at an address replaced by `f` of it; nothing where the address holds none. -/
def Memory.modify (m : Memory) (a : Nat) (f : Byte → Byte) : Memory :=
  m.map fun c => if c.1 == a then (c.1, f c.2) else c

/-! ## The decoder's input -/

/-- The read limit L = min(in_len, |IN|) (R21). -/
def State.limit (s : State) : Nat := min s.runInLen s.src.size

/-- The bytes a step can still read: IN from ip up to L (R51, R54). -/
def State.inputLeft (s : State) : List Byte := (s.src.bytes.take s.limit).drop s.ip

/-- The header bytes of a token are read: ip moves past them (R54, R23). -/
def State.advance (n : Nat) (s : State) : State := { s with ip := s.ip + n }

/-- InRead (R54): none is InputUnderrun. -/
def State.inRead (s : State) : Option (Byte × State) :=
  if s.ip < s.limit then (s.src.read s.ip).map fun v => (v, s.advance 1) else none

/-- Append to OUT (R61). -/
def State.appendOut (v : Byte) (s : State) : State := { s with out := s.out.append v }

/-- CopyLit(n) (R126): n times Append(InRead()). The error side is the state at the read that finds no
byte. -/
def copyLit : Nat → State → Except State State
  | 0, s => .ok s
  | n + 1, s =>
    match s.inRead with
    | none => .error s
    | some (v, s') => copyLit n (s'.appendOut v)

/-- CopyMatch(m, len) (R170): byte by byte in increasing order, each read seeing the bytes just
appended (20_memory R62, R66). None is a read of an address that holds no byte. -/
def copyMatch : Nat → Nat → Memory → Option Memory
  | _, 0, o => some o
  | m, len + 1, o =>
    match o.read m with
    | none => none
    | some v => copyMatch (m + 1) len (o.append v)

/-! ## Control transfer and the ends of a run -/

/-- `phase <- P` (R18). -/
def State.setPhase (ph : Phase) (s : State) : State := { s with phase := ph }

/-- The count of bytes pulled from a live source when a DEC run ends: a free value from ip to
min(L, ip + PREFETCH_MAX) (20_memory R58, U22; log 6, safe). -/
def State.drawPulled (s : State) : State :=
  { s with
    pulled := s.ip + Config.freePull s.draws % (min s.limit (s.ip + Config.prefetchMax) - s.ip + 1)
    draws := s.draws + 1 }

/-- `raise F` (R268), the one fault entry: the phase and ERR take the code, STATUS is FAULT, OUT_LEN and
IN_POS are 0, and OUT and C are discarded (D11). Nothing is saved and control goes nowhere. It serves
all three faults, InvalidLevel with them (log 14, log 26). -/
def State.raise (f : FaultCode) (s : State) : State :=
  { s with
    phase := .fault f
    err := some f
    status := .fault
    outLen := 0
    inPos := 0
    out := []
    parse := Parse.fresh
    firstParse := none }

/-- A fault of a DEC run: the pulled count is drawn, then the fault is raised (R58, R268). -/
def State.raiseDec (f : FaultCode) (s : State) : State := s.drawPulled.raise f

/-- The end of a DEC run at the end marker (R133, R294): phase and STATUS are DONE, OUT_LEN is |OUT|,
IN_POS is ip (R42). -/
def State.finishDec (s : State) : State :=
  { s.drawPulled with phase := .done, status := .done, outLen := s.out.size, inPos := s.ip }

/-- The end of an encode run (R294), `em` being the emitter with the result in C: STATUS is DONE, OUT_LEN
is |C|, IN_POS stays 0 (R42). The emitter handed over stays (log 25), and State.pulled is not written: the spec
counts pulled bytes of a DEC run only (20_memory R58), so it keeps the 0 of the launch (DESIGN CHOICE,
unsafe: log 28). -/
def State.finishEnc (em : Emitter) (s : State) : State :=
  { s with
    status := .done
    outLen := em.c.size
    inPos := 0
    parse := { s.parse with em := em } }

/-- Launch (R292): the registers are latched, STATUS is BUSY, ERR, OUT_LEN and IN_POS are cleared and
the per-run state is created at the values of R46, for every unit alike (log 15). SRC is left as it is, so a
run started with no new stream presented reads the bytes on SRC again from the first one: what it finds
there the spec leaves open (10_state R43, R293), and this is the model's choice (DESIGN CHOICE, unsafe:
log 27). -/
def State.launch (u : RunUnit) (s : State) : State :=
  { s with
    status := .busy
    err := none
    outLen := 0
    inPos := 0
    resPos := 0
    run := some u
    runInLen := s.inLen
    runHint := s.outHint
    runLevel := s.level
    ip := 0
    out := []
    phase := .start
    seenMatch := false
    pulled := 0
    parse := Parse.fresh
    firstParse := none }

/-- LEVEL_MIN to LEVEL_MAX (00_scope R12). -/
def levelValid (level : Nat) : Bool := decide (1 ≤ level) && decide (level ≤ 9)

/-- A start command for a unit (R38, R292). For ENCL the level check follows at once, before anything
else (44_leveled_encoder R231). -/
def State.start (u : RunUnit) (s : State) : State :=
  match u with
  | .dec => s.launch .dec
  | .encg => s.launch .encg
  | .encl => if levelValid s.level then s.launch .encl else (s.launch .encl).raise .invalidLevel

end Sys2Proof.Machine
end

