-- ==== Sys2Proof/Machine/Operands.lean ====
section
/-! DEFINITION. The operand forms: what a header's fields are worth (30_encoding R82 to R90,
40_decoder_control R128) and where a match points (41_decoder_matches R152 to R160). -/

namespace Sys2Proof.Machine

/-- How many bytes the extension of a length field takes (R90, R103). -/
def extCount {w : Nat} : LenField w → Nat
  | .inline _ => 0
  | .ext k _ => k + 1

/-- `t`: the inline value, or Ext(base) = 255 k + v + base (R90, R128). -/
def lenValue {w : Nat} (base : Nat) : LenField w → Nat
  | .inline l => l.toNat
  | .ext k v => 255 * k + v.toNat + base

/-- The run of a START token: N - 17 (R82). -/
def startRun (nn : Byte) : Nat := nn.toNat - startBias

/-- The run of a LIT token: t + 3 (R83, R125). -/
def litRun (len : LenField 4) : Nat := lenValue litExtBase len + litBias

/-- le16(lo, hi) (00_scope R17, 20_memory R55). -/
def le16 (lo hi : Byte) : Nat := lo.toNat + 256 * hi.toNat

/-- The 2-byte distance field shifted right by 2, `lo` being DDDDDDSS (R87, R88). -/
def distField (d : BitVec 6) (s : BitVec 2) (h : Byte) : Nat := le16 (d ++ s) h >>> 2

/-- m_pos of M1 (R152): n0 - 1 - D - (H << 2). -/
def posM1 (n0 : Nat) (d : BitVec 2) (h : Byte) : Int := n0 - 1 - d.toNat - (h.toNat <<< 2 : Nat)

/-- m_pos of M1B (R154): n0 - (1 + M2_MAX_OFFSET) - D - (H << 2). -/
def posM1b (n0 : Nat) (d : BitVec 2) (h : Byte) : Int :=
  n0 - (1 + m2MaxOffset : Nat) - d.toNat - (h.toNat <<< 2 : Nat)

/-- m_pos of M2 (R156): n0 - 1 - D - (H << 3). -/
def posM2 (n0 : Nat) (d : BitVec 3) (h : Byte) : Int := n0 - 1 - d.toNat - (h.toNat <<< 3 : Nat)

/-- m_pos of M3 (R158): n0 - 1 - (v16 >> 2). -/
def posM3 (n0 : Nat) (d : BitVec 6) (s : BitVec 2) (h : Byte) : Int := n0 - 1 - distField d s h

/-- m_pos of M4 (R160): n0 - ((b & 8) << 11) - (v16 >> 2) - M4_BIAS. -/
def posM4 (n0 : Nat) (hb : BitVec 1) (d : BitVec 6) (s : BitVec 2) (h : Byte) : Int :=
  n0 - (hb.toNat * 16384 : Nat) - distField d s h - m4Bias

/-- The length of an M2 match: L + 1 (R86, R156). -/
def lenM2 (l : BitVec 3) : Nat := l.toNat + 1

/-- The length of an M3 match: t + 2 (R87, R158). -/
def lenM3 (len : LenField 5) : Nat := lenValue m3ExtBase len + 2

/-- The length of an M4 match: t + 2 (R88, R160). -/
def lenM4 (len : LenField 3) : Nat := lenValue m4ExtBase len + 2

/-- How many header bytes an instruction has (R103): all its bytes but the literal ones. -/
def headerLen : Instr → Nat
  | .startPass => 0
  | .startTrail _ => 1
  | .startLit _ => 1
  | .lit len => 1 + extCount len
  | .m1 _ _ _ => 2
  | .m1b _ _ _ => 2
  | .m2 _ _ _ _ => 2
  | .m3 len _ _ _ => 3 + extCount len
  | .m4 _ len _ _ _ => 3 + extCount len
  | .eos len _ => 3 + extCount len
  | .trail _ => 0

end Sys2Proof.Machine
end

