-- ==== Sys2Proof/Machine/Flags.lean ====
section
/-! DEFINITION. The two pieces of control state a token computes, `seen_match` and the context of the
next phase (10_state R26 to R28): RunCtx (40_decoder_control R127) and AfterMatch (R132); and the two
shapes of a token built on them, the literal run (R123, R125, R131) and the match (41_decoder_matches
R151). This hardware has no condition codes. -/

namespace Sys2Proof.Machine

/-- RunCtx() (R127). -/
def runCtx (scope : BiasScope) (seen : Bool) : Ctx :=
  match scope with
  | .everyRun => .biased
  | .firstMatchOnly => if seen then .plain else .biased

/-- The context of the match after a literal run of 4 or more bytes (R127). -/
def State.runCtx (s : State) : Ctx := Machine.runCtx s.profile.biasScope s.seenMatch

/-- The phase after a match with carry `n` (R132). -/
def phaseAfter (carry : BitVec 2) : Phase := if carry = 0 then .loop else .trail carry

/-- AfterMatch(carry) (R132). -/
def State.afterMatch (carry : BitVec 2) (s : State) : State :=
  { s with seenMatch := true, phase := phaseAfter carry }

/-- A token that copies `n` literal bytes after `hdr` header bytes and goes to phase `next`
(R123, R125, R131). -/
def literalRun (hdr n : Nat) (next : Phase) (s : State) : Host.Outcome State Fault Refusal :=
  match copyLit n (s.advance hdr) with
  | .ok s' => .next (s'.setPhase next)
  | .error s' => .next (s'.raiseDec .inputUnderrun)

/-- A match token of `hdr` header bytes (R151): all its bytes are read, then the lookbehind check
(R164), then the copy (R170), then AfterMatch (R132). -/
def matchToken (hdr : Nat) (mPos : Int) (len : Nat) (carry : BitVec 2) (s : State) :
    Host.Outcome State Fault Refusal :=
  let s1 := s.advance hdr
  if mPos < 0 then .next (s1.raiseDec .lookbehindUnderrun)
  else
    match copyMatch mPos.toNat len s1.out with
    | none => .fault (.absentByte mPos.toNat)
    | some o => .next (({ s1 with out := o } : State).afterMatch carry)

end Sys2Proof.Machine
end

