-- ==== Sys2Proof/Machine/Literals.lean ====
section
/-! DEFINITION. The literal run LIT and the trailing literals TRAIL (40_decoder_control R125, R131). -/

namespace Sys2Proof.Machine

/-- LIT (R125): t + 3 literal bytes, then DISPATCH(RunCtx()). -/
def execLit (len : LenField 4) (s : State) : Host.Outcome State Fault Refusal :=
  literalRun (1 + extCount len) (litRun len) (.dispatch s.runCtx) s

/-- TRAIL (R131): n literal bytes, then DISPATCH(PLAIN). -/
def execTrail (n : BitVec 2) (s : State) : Host.Outcome State Fault Refusal :=
  literalRun 0 n.toNat (.dispatch .plain) s

end Sys2Proof.Machine
end

