-- ==== Sys2Proof/Machine/Matches.lean ====
section
/-! DEFINITION. The match tokens M1, M1B, M2, M3, M4 and the end marker (41_decoder_matches). n0 is
|OUT| when the token byte has been read; no match token appends before its copy. -/

namespace Sys2Proof.Machine

/-- M1 (R152): length 2. -/
def execM1 (d c : BitVec 2) (h : Byte) (s : State) : Host.Outcome State Fault Refusal :=
  matchToken 2 (posM1 s.out.size d h) 2 c s

/-- M1B (R154): length 3. -/
def execM1b (d c : BitVec 2) (h : Byte) (s : State) : Host.Outcome State Fault Refusal :=
  matchToken 2 (posM1b s.out.size d h) 3 c s

/-- M2 (R156): length L + 1. -/
def execM2 (l d : BitVec 3) (c : BitVec 2) (h : Byte) (s : State) : Host.Outcome State Fault Refusal :=
  matchToken 2 (posM2 s.out.size d h) (lenM2 l) c s

/-- M3 (R158): length t + 2. -/
def execM3 (len : LenField 5) (d : BitVec 6) (c : BitVec 2) (h : Byte) (s : State) :
    Host.Outcome State Fault Refusal :=
  matchToken (3 + extCount len) (posM3 s.out.size d c h) (lenM3 len) c s

/-- M4 (R160): length t + 2. -/
def execM4 (hb : BitVec 1) (len : LenField 3) (d : BitVec 6) (c : BitVec 2) (h : Byte) (s : State) :
    Host.Outcome State Fault Refusal :=
  matchToken (3 + extCount len) (posM4 s.out.size hb d c h) (lenM4 len) c s

/-- EOS (R162, R133): the length and the carry bits are ignored, nothing is copied, `seen_match` is not
written, and the run ends (R294). -/
def execEos (len : LenField 3) (_c : BitVec 2) (s : State) : Host.Outcome State Fault Refusal :=
  .next (s.advance (3 + extCount len)).finishDec

end Sys2Proof.Machine
end

