-- ==== Sys2Proof/Machine/Start.lean ====
section
/-! DEFINITION. The tokens of phase START (40_decoder_control R121 to R123). -/

namespace Sys2Proof.Machine

/-- START_PASS (R121): the first byte stays unread and becomes the first loop-entry token. -/
def execStartPass (s : State) : Host.Outcome State Fault Refusal := .next (s.setPhase .loop)

/-- START_TRAIL (R122): phase TRAIL(N - 17). -/
def execStartTrail (nn : Byte) (s : State) : Host.Outcome State Fault Refusal :=
  .next ((s.advance 1).setPhase (.trail (BitVec.ofNat 2 (startRun nn))))

/-- START_LIT (R123): N - 17 literal bytes, then DISPATCH(RunCtx()). -/
def execStartLit (nn : Byte) (s : State) : Host.Outcome State Fault Refusal :=
  literalRun 1 (startRun nn) (.dispatch s.runCtx) s

end Sys2Proof.Machine
end

