-- ==== Sys2Proof/Machine/Dispatch.lean ====
section
/-! DEFINITION. The dispatch: one arm for each constructor of Instr. The phase is not checked here: the
decoder chooses the instruction by it (log 13). -/

namespace Sys2Proof.Machine

def exec (i : Instr) (s : State) : Host.Outcome State Fault Refusal :=
  match i with
  | .startPass => Sys2Proof.Machine.execStartPass s
  | .startTrail nn => Sys2Proof.Machine.execStartTrail nn s
  | .startLit nn => Sys2Proof.Machine.execStartLit nn s
  | .lit len => Sys2Proof.Machine.execLit len s
  | .m1 d c h => Sys2Proof.Machine.execM1 d c h s
  | .m1b d c h => Sys2Proof.Machine.execM1b d c h s
  | .m2 l d c h => Sys2Proof.Machine.execM2 l d c h s
  | .m3 len d c h => Sys2Proof.Machine.execM3 len d c h s
  | .m4 hb len d c h => Sys2Proof.Machine.execM4 hb len d c h s
  | .eos len c => Sys2Proof.Machine.execEos len c s
  | .trail n => Sys2Proof.Machine.execTrail n s

end Sys2Proof.Machine
end

