-- ==== Sys2Proof/Machine/Emit.lean ====
section
/-! DEFINITION. FMT's encode side (42_token_emit R180 to R187): how an encoder writes each token. Where
the decoder reads several encodings alike the choice is the spec's D18 (log 16). -/

namespace Sys2Proof.Machine

/-- The byte of value `n`, 0 to 255 (R180). -/
def byteOf (n : Nat) : Byte := BitVec.ofNat 8 n

/-- EmitExt(r) (R181): the loop's bytes, `r / 255` or `(r - 1) / 255` continuing bytes and then what is
left. -/
def extBytes (p : Profile) (r : Nat) : List Byte :=
  match p.extCont with
  | .c255 => List.replicate (r / 255) (byteOf 255) ++ [byteOf (r % 255)]
  | .c0 => List.replicate ((r - 1) / 255) (byteOf 0) ++ [byteOf ((r - 1) % 255 + 1)]

/-- ExtLen(r) (R181). -/
def extLen (p : Profile) (r : Nat) : Nat :=
  match p.extCont with
  | .c255 => r / 255 + 1
  | .c0 => (r + 254) / 255

/-- CtxAfterRun(n) (R182). -/
def ctxAfterRun (scope : BiasScope) (seen : Bool) (n : Nat) : EmitCtx :=
  if n = 0 then .loopEntry
  else if n ≤ 3 then .plain
  else if scope = .everyRun ∨ seen = false then .biased
  else .plain

/-- The carry patch C[carry_idx] | n (R184). Where no match has been emitted there is no byte to patch,
which no encoder does (DESIGN CHOICE, safe: log 22). -/
def carryPatch (em : Emitter) (n : Nat) : Memory :=
  match em.carryIdx with
  | none => em.c
  | some a => em.c.modify a fun v => v ||| byteOf n

/-- The first part of EmitLiterals (R183): the token that announces a run of `n` bytes, `n` not 0. -/
def announceRun (p : Profile) (n : Nat) (em : Emitter) : Memory :=
  if em.c.size = 0 ∧ n ≤ 238 then em.c.append (byteOf (startBias + n))
  else if n ≤ 3 then carryPatch em n
  else if n ≤ 18 then em.c.append (byteOf (n - 3))
  else em.c.appendAll (byteOf 0 :: extBytes p (n - 18))

/-- EmitLiterals(run) (R183). -/
def emitLiterals (p : Profile) (run : List Byte) (em : Emitter) : Emitter :=
  if run.length = 0 then { em with ctx := .loopEntry }
  else
    { em with
      c := (announceRun p run.length em).appendAll run
      ctx := ctxAfterRun p.biasScope em.seenMatch run.length }

/-- The bytes EmitMatch writes before the byte that holds the carry bits (R185). -/
def matchHead (p : Profile) (cls : MatchClass) (dist len : Nat) : List Byte :=
  match cls with
  | .m1 => []
  | .m1b => []
  | .m2 => []
  | .m3 =>
    if len - 2 ≤ 31 then [byteOf (32 ||| (len - 2))] else byteOf 32 :: extBytes p (len - 2 - 31)
  | .m4 =>
    let h := (dist - 16384) >>> 14
    if len - 2 ≤ 7 then [byteOf (16 ||| (h <<< 3) ||| (len - 2))]
    else byteOf (16 ||| (h <<< 3)) :: extBytes p (len - 2 - 7)

/-- The bytes EmitMatch writes from the byte that holds the carry bits on, with carry 0 (R185). -/
def matchTail (cls : MatchClass) (dist len : Nat) : List Byte :=
  match cls with
  | .m1 => [byteOf (((dist - 1) &&& 3) <<< 2), byteOf ((dist - 1) >>> 2)]
  | .m1b => [byteOf (((dist - 2049) &&& 3) <<< 2), byteOf ((dist - 2049) >>> 2)]
  | .m2 =>
    [byteOf (((len - 1) <<< 5) ||| (((dist - 1) &&& 7) <<< 2)), byteOf ((dist - 1) >>> 3)]
  | .m3 => [byteOf (((dist - 1) <<< 2) &&& 255), byteOf ((dist - 1) >>> 6)]
  | .m4 =>
    let y := (dist - 16384) &&& 0x3FFF
    [byteOf ((y <<< 2) &&& 255), byteOf (y >>> 6)]

/-- EmitMatch(cls, dist, len) (R185). -/
def emitMatch (p : Profile) (cls : MatchClass) (dist len : Nat) (em : Emitter) : Emitter where
  c := em.c.appendAll (matchHead p cls dist len ++ matchTail cls dist len)
  carryIdx := some (em.c.size + (matchHead p cls dist len).length)
  seenMatch := true
  ctx := .loopEntry

/-- EmitEOS() (R186): the bytes 11 00 00. -/
def emitEos (em : Emitter) : Emitter :=
  { em with c := em.c.appendAll [byteOf 0x11, byteOf 0x00, byteOf 0x00] }

/-- Whether a match can be written in a class in a context: the preconditions of EmitMatch (R185). -/
def representable (cls : MatchClass) (dist len : Nat) (ctx : EmitCtx) : Bool :=
  match cls with
  | .m1 => decide (ctx = .plain ∧ len = 2 ∧ 1 ≤ dist ∧ dist ≤ 1024)
  | .m1b => decide (ctx = .biased ∧ len = 3 ∧ 2049 ≤ dist ∧ dist ≤ 3072)
  | .m2 => decide (3 ≤ len ∧ len ≤ 8 ∧ 1 ≤ dist ∧ dist ≤ 2048)
  | .m3 => decide (3 ≤ len ∧ 1 ≤ dist ∧ dist ≤ 16384)
  | .m4 => decide (3 ≤ len ∧ 16385 ≤ dist ∧ dist ≤ 49151)

/-- Classify(dist, len, ctx) (R187), among the classes `uses` admits (43_greedy_encoder R214 (c)): the
narrowest class with its cost in bytes. -/
def classify (p : Profile) (uses : MatchClass → Bool) (dist len : Nat) (ctx : EmitCtx) :
    Option (MatchClass × Nat) :=
  if len = 2 then
    if uses .m1 ∧ ctx = .plain ∧ 1 ≤ dist ∧ dist ≤ 1024 then some (.m1, 2) else none
  else if len < 2 ∨ dist < 1 ∨ m4MaxOffset < dist then none
  else if uses .m1b ∧ len = 3 ∧ ctx = .biased ∧ 2049 ≤ dist ∧ dist ≤ 3072 then some (.m1b, 2)
  else if uses .m2 ∧ len ≤ 8 ∧ dist ≤ 2048 then some (.m2, 2)
  else if dist ≤ 16384 then
    if uses .m3 then some (.m3, 3 + if len - 2 > 31 then extLen p (len - 2 - 31) else 0) else none
  else
    if uses .m4 then some (.m4, 3 + if len - 2 > 7 then extLen p (len - 2 - 7) else 0) else none

end Sys2Proof.Machine
end

