-- ==== Sys2Proof/Machine/Search.lean ====
section
/-! DEFINITION. What the encoders' searches share: the comparison of the input with its own past
(43_greedy_encoder R215), the choice of a match, and one iteration and the end of a parse (R217, R241). -/

namespace Sys2Proof.Machine

/-- D[a .. b) (00_scope R17). -/
def slice (D : List Byte) (a b : Nat) : List Byte := (D.take b).drop a

/-- The length of the longest common prefix. -/
def commonPrefix : List Byte → List Byte → Nat
  | a :: r, b :: r' => if a = b then commonPrefix r r' + 1 else 0
  | [], _ => 0
  | _ :: _, [] => 0

/-- MatchLen(D, i, dist) (R215), for 1 ≤ dist ≤ i; the comparison runs into the bytes being matched. -/
def matchLen (D : List Byte) (i dist : Nat) : Nat := commonPrefix (D.drop i) (D.drop (i - dist))

/-- A match a search has chosen: its class, distance and length. -/
structure Pick where
  cls : MatchClass
  dist : Nat
  len : Nat
  deriving DecidableEq, Repr

/-- One iteration of an encoder's loop (R217, R241): the pending run is flushed and the match emitted,
or the pending run grows by one byte. -/
def parseIter (p : Profile) (D : List Byte) (pick : Option Pick) (q : Parse) : Parse :=
  match pick with
  | some m =>
    { em := emitMatch p m.cls m.dist m.len (emitLiterals p (slice D q.litStart q.pos) q.em)
      pos := q.pos + m.len
      litStart := q.pos + m.len }
  | none => { q with pos := q.pos + 1 }

/-- The end of a parse (R217, R241): the last run and the end marker. -/
def parseEnd (p : Profile) (D : List Byte) (q : Parse) : Emitter :=
  emitEos (emitLiterals p (slice D q.litStart D.length) q.em)

/-- The context a match would be emitted in at `pos` (44_leveled_encoder R238). -/
def pendingCtx (p : Profile) (em : Emitter) (r : Nat) : EmitCtx :=
  ctxAfterRun p.biasScope em.seenMatch r

/-- The choice of a free realisation (R212, R235, U24): the proposal is a free value, and it is taken
when the relation of R214 and R236 admits it at this position: 1 ≤ dist ≤ i, the match is true, and it
has a class among those `uses` admits (log 7, safe). -/
def freePick (p : Profile) (uses : MatchClass → Bool) (level : Option Nat) (D : List Byte) (i : Nat)
    (ctx : EmitCtx) : Option Pick :=
  let dist := (Config.freeMatch p level D i).1
  let len := (Config.freeMatch p level D i).2
  if 1 ≤ dist ∧ dist ≤ i ∧ len ≤ matchLen D i dist then
    (classify p uses dist len ctx).map fun c => ⟨c.1, dist, len⟩
  else none

end Sys2Proof.Machine
end

