-- ==== Sys2Proof/Machine/Greedy.lean ====
section
/-! DEFINITION. The greedy encoder ENCG (43_greedy_encoder): the reference algorithm R215 to R217, or a
free realisation of the relation R214. -/

namespace Sys2Proof.Machine

/-- The best of the distances 1 to `n` (R216): the greatest length, at least 3, and among equals the
smallest distance. -/
def greedyUpTo (D : List Byte) (i : Nat) : Nat → Option (Nat × Nat)
  | 0 => none
  | n + 1 =>
    let l := matchLen D i (n + 1)
    match greedyUpTo D i n with
    | none => if 3 ≤ l then some (n + 1, l) else none
    | some (d, b) => if b < l then some (n + 1, l) else some (d, b)

/-- GreedyBest(D, i) (R216). -/
def greedyBest (D : List Byte) (i : Nat) : Option (Nat × Nat) := greedyUpTo D i (min i m4MaxOffset)

/-- The class choice of R217. -/
def greedyClass (dist len : Nat) : MatchClass :=
  if len ≤ 8 ∧ dist ≤ 2048 then .m2 else if dist ≤ 16384 then .m3 else .m4

/-- The reference ENCG's choice at a position (R217). -/
def greedyPick (D : List Byte) (i : Nat) : Option Pick :=
  (greedyBest D i).map fun m => ⟨greedyClass m.1 m.2, m.1, m.2⟩

end Sys2Proof.Machine
end

