-- ==== Sys2Proof/Machine/Leveled.lean ====
section
/-! DEFINITION. The leveled encoder ENCL (44_leveled_encoder): the reference algorithm R237 to R242, or a
free realisation of the relation R236. -/

namespace Sys2Proof.Machine

/-- DEPTH(level) (R237). -/
def levelDepth (level : Nat) : Nat :=
  match level with
  | 1 => 1
  | 2 => 2
  | 3 => 4
  | 4 => 8
  | 5 => 16
  | 6 => 32
  | 7 => 128
  | 8 => 1024
  | 9 => 49151
  | _ => 0

/-- LAZY(level) (R237). -/
def levelLazy (level : Nat) : Bool := decide (5 ≤ level)

/-- Whether `dist` is a candidate at `i` (R239): the 2-byte prefix repeats. -/
def isCandidate (D : List Byte) (i dist : Nat) : Bool :=
  decide (i + 1 < D.length) && D[i - dist]? == D[i]? && D[i - dist + 1]? == D[i + 1]?

/-- The examined candidates (R239): in order of increasing distance, at most `depth`. -/
def candidates (D : List Byte) (i depth : Nat) : List Nat :=
  (((List.range (min i m4MaxOffset)).map (· + 1)).filter (isCandidate D i)).take depth

/-- A ranked candidate (R240). -/
structure Cand where
  gain : Int
  len : Nat
  dist : Nat
  cls : MatchClass
  deriving DecidableEq, Repr

/-- key(a) > key(b), the keys being (gain, length, minus distance) in lexicographic order (R240). -/
def Cand.beats (a b : Cand) : Bool :=
  decide (b.gain < a.gain) || (decide (a.gain = b.gain) &&
    (decide (b.len < a.len) || (decide (a.len = b.len) && decide (a.dist < b.dist))))

/-- A candidate distance with its class and gain, none where it is rejected (R240). All five classes are
in use (R236). -/
def rankCand (p : Profile) (D : List Byte) (i : Nat) (ctx : EmitCtx) (dist : Nat) : Option Cand :=
  match classify p (fun _ => true) dist (matchLen D i dist) ctx with
  | none => none
  | some (cls, cost) =>
    let gain : Int := (matchLen D i dist : Int) - cost
    if 1 ≤ gain ∨ (gain = 0 ∧ cls = .m1) then some ⟨gain, matchLen D i dist, dist, cls⟩ else none

/-- One turn of the loop of Best (R240). -/
def betterOf (best : Option Cand) (c : Option Cand) : Option Cand :=
  match c with
  | none => best
  | some x =>
    match best with
    | none => some x
    | some b => if x.beats b then some x else some b

/-- Best(D, i, depth, r) (R240), `ctx` being PendingCtx(r). -/
def bestCand (p : Profile) (D : List Byte) (i depth : Nat) (ctx : EmitCtx) : Option Cand :=
  (candidates D i depth).foldl (fun best d => betterOf best (rankCand p D i ctx d)) none

/-- The reference ENCL's choice at a position (R241): the best match, dropped for one literal when the
lookahead finds a strictly larger gain at the next position. -/
def leveledPick (p : Profile) (D : List Byte) (depth : Nat) (lazyStep : Bool) (q : Parse) : Option Pick :=
  let r := q.pos - q.litStart
  match bestCand p D q.pos depth (pendingCtx p q.em r) with
  | none => none
  | some c =>
    let next := if lazyStep then bestCand p D (q.pos + 1) depth (pendingCtx p q.em (r + 1)) else none
    match next with
    | none => some ⟨c.cls, c.dist, c.len⟩
    | some c2 => if c.gain < c2.gain then none else some ⟨c.cls, c.dist, c.len⟩

end Sys2Proof.Machine
end

