-- ==== Sys2Proof/Machine/Agents.lean ====
section
/-! DEFINITION. One step of each agent (10_state R20): the decoder, the two encoders, and the host's
operations. -/

namespace Sys2Proof.Machine

/-! ## The decoder -/

/-- One step of DEC on the bytes its source has delivered (40_decoder_control R120): the phase's rule on
the bytes from ip. Where a header byte is missing, every byte up to L has been read (R54) and the fault
is InputUnderrun (60_exceptions R261; log 19). DONE and FAULT have no step (10_state R25). -/
def State.decStep (s : State) : Host.Outcome State Fault Refusal :=
  match decode s.profile s.phase s.inputLeft with
  | .ok i _ => exec i s
  | .underrun => .next (({ s with ip := max s.ip s.limit } : State).raiseDec .inputUnderrun)
  | .noToken => .next s

/-- Whether bytes below in_len may still come from a live source (20_memory R54, R58). -/
def State.starved (s : State) : Bool := s.srcOpen && decide (s.src.size < s.runInLen)

/-- DEC's turn. While a live source may still deliver, a step that would need a byte not yet there has not
been taken (DEDUCED, safe: log 5). -/
def State.decTurn (s : State) : Host.Outcome State Fault Refusal :=
  if s.starved then
    match s.decStep with
    | .next t => if t.phase = .fault .inputUnderrun then .next s else .next t
    | .fault f => .fault f
    | .refused r => .refused r
  else s.decStep

/-! ## The encoders -/

/-- D, the input to compress (10_state R33): the first IN_LEN bytes of SRC (log 4). -/
def State.data (s : State) : List Byte := s.src.bytes.take s.runInLen

/-- One iteration of an encoder's loop with the match its search chose. -/
def State.iterate (pick : Option Pick) (s : State) : State :=
  { s with parse := parseIter s.profile s.data pick s.parse }

/-- The free search's choice in a state, among the classes `uses` (log 7). -/
def State.freePick (uses : MatchClass → Bool) (level : Option Nat) (s : State) : Option Pick :=
  Machine.freePick s.profile uses level s.data s.parse.pos
    (pendingCtx s.profile s.parse.em (s.parse.pos - s.parse.litStart))

/-- ENCG's choice (43_greedy_encoder R217, R212). -/
def State.encgPick (s : State) : Option Pick :=
  match s.search with
  | .reference => greedyPick s.data s.parse.pos
  | .free => s.freePick Config.freeUses none

/-- One step of ENCG (R217; DESIGN CHOICE, safe: log 1): one iteration of the loop, or the last run with
the end marker. -/
def State.encgStep (s : State) : State :=
  if s.parse.pos < s.data.length then s.iterate s.encgPick
  else s.finishEnc (parseEnd s.profile s.data s.parse)

/-- The level of the parse in progress (44_leveled_encoder R242): the run's for A, 1 for B. -/
def State.parseLevel (s : State) : Nat :=
  match s.firstParse with
  | none => s.runLevel
  | some _ => 1

/-- ENCL's choice (R241, R235; a free realisation among all five classes, R236). -/
def State.enclPick (s : State) : Option Pick :=
  match s.search with
  | .reference =>
    leveledPick s.profile s.data (levelDepth s.parseLevel) (levelLazy s.parseLevel) s.parse
  | .free => s.freePick (fun _ => true) (some s.runLevel)

/-- The end of a parse of ENCL (R242): parse A is the result at level 1, or of a free realisation; at
another level parse B begins with its own fresh state, and at its end the shorter result is taken, A on
a tie. Where A is taken its bytes become C, and carry_idx, e_seen_match, e_ctx, i and lit_start keep what
parse B left in them: the spec gives them no value after such a run (DESIGN CHOICE, safe: log 25). -/
def State.endParse (s : State) : State :=
  let em := parseEnd s.profile s.data s.parse
  match s.firstParse with
  | none =>
    if s.runLevel = 1 ∨ s.search = .free then s.finishEnc em
    else { s with firstParse := some em.c, parse := Parse.fresh }
  | some a => s.finishEnc (if a.size ≤ em.c.size then { em with c := a } else em)

/-- One step of ENCL (R241, R242; DESIGN CHOICE, safe: log 1). -/
def State.enclStep (s : State) : State :=
  if s.parse.pos < s.data.length then s.iterate s.enclPick else s.endParse

/-- An encoder's turn: it moves once its live source has delivered D or ended (DEDUCED, safe: log 5). -/
def State.encTurn (next : State → State) (s : State) : Host.Outcome State Fault Refusal :=
  if s.starved then .next s else .next (next s)

/-! ## The block -/

/-- One turn of the block: the running unit's step. Between runs nothing moves (70_reset_and_hazards
R291; DEDUCED, safe: log 9). -/
def State.blockStep (s : State) : Host.Outcome State Fault Refusal :=
  match s.status with
  | .busy =>
    match s.run with
    | some .dec => s.decTurn
    | some .encg => s.encTurn State.encgStep
    | some .encl => s.encTurn State.enclStep
    | none => .next s
  | .idle => .next s
  | .done => .next s
  | .fault => .next s

/-! ## The host -/

/-- The code of STATUS (R39). -/
def Status.code : Status → Nat
  | .idle => 0
  | .busy => 1
  | .done => 2
  | .fault => 3

/-- The code of ERR (R40, 60_exceptions R261 to R263). -/
def errCode : Option FaultCode → Nat
  | none => 0
  | some .inputUnderrun => 1
  | some .lookbehindUnderrun => 2
  | some .invalidLevel => 3

/-- The number of a host register (R38 to R42). -/
def Reg.number : Reg → Nat
  | .cmd => 0
  | .status => 1
  | .err => 2
  | .inLen => 3
  | .outHint => 4
  | .level => 5
  | .outLen => 6
  | .inPos => 7

/-- A register read (R38 to R42); CMD reads as 0. -/
def State.readReg (r : Reg) (s : State) : Nat :=
  match r with
  | .cmd => 0
  | .status => s.status.code
  | .err => errCode s.err
  | .inLen => s.inLen
  | .outHint => s.outHint
  | .level => s.level
  | .outLen => s.outLen
  | .inPos => s.inPos

/-- A command (R38): 0 is NOP, 1 to 3 start a unit, another value is ignored. -/
def State.command (v : Nat) (s : State) : State :=
  match v with
  | 1 => s.start .dec
  | 2 => s.start .encg
  | 3 => s.start .encl
  | _ => s

/-- A register write (R38, R41): ignored while BUSY (D24) and, on a read-only register, always (DEDUCED,
unsafe: log 12). -/
def State.writeReg (r : Reg) (v : Nat) (s : State) : State :=
  if s.status = .busy then s
  else
    match r with
    | .cmd => s.command v
    | .inLen => { s with inLen := v }
    | .outHint => { s with outHint := v }
    | .level => { s with level := v }
    | .status => s
    | .err => s
    | .outLen => s
    | .inPos => s

/-- The result bytes RES delivers (R43, R294): OUT of a DEC run or C of an encode run, once STATUS is
DONE; none otherwise. -/
def State.result (s : State) : List Byte :=
  match s.status with
  | .done =>
    match s.run with
    | some .dec => s.out.bytes
    | some .encg => s.parse.em.c.bytes
    | some .encl => s.parse.em.c.bytes
    | none => []
  | .idle => []
  | .busy => []
  | .fault => []

/-- Hardware reset (R290, R45): every host register at its reset value and no run. The instance's
configuration, what the host holds on SRC and the model's own fields are not the block's to reset
(DESIGN CHOICE, unsafe: log 11). -/
def State.hardReset (s : State) : State :=
  { State.reset with
    profile := s.profile
    search := s.search
    src := s.src
    srcOpen := s.srcOpen
    draws := s.draws
    pending := s.pending
    rdata := s.rdata }

/-- One operation of the host (R295, R296). Altering the source of a run in progress and reading RES
before a run has ended have no meaning (R72, R295, U20, U21; log 20, log 21). -/
def State.hostStep (op : HostOp) (s : State) : Host.Outcome State Fault Refusal :=
  match op with
  | .write r v => .next (s.writeReg r v)
  | .read r => .next { s with rdata := some (s.readReg r) }
  | .present bs live =>
    if s.status = .busy then .refused .inputAltered
    else .next { s with src := Memory.ofBytes bs, srcOpen := live }
  | .supply bs =>
    if s.status = .busy ∧ s.srcOpen = false then .refused .inputAltered
    else .next { s with src := s.src.appendAll bs }
  | .endSource => .next { s with srcOpen := false }
  | .alter a v =>
    if s.status = .busy ∧ a < s.runInLen then .refused .inputAltered
    else .next { s with src := s.src.modify a fun _ => v }
  | .readRes =>
    match s.status with
    | .done =>
      match s.result[s.resPos]? with
      | some v => .next { s with rdata := some v.toNat, resPos := s.resPos + 1 }
      | none => .next { s with rdata := none }
    | .fault => .next { s with rdata := none }
    | .idle => .refused .resReadEarly
    | .busy => .refused .resReadEarly
  | .reset => .next s.hardReset

/-- One step of the machine: the host's next operation if it has one to make now, else the block's turn
(log 10). -/
def State.turn (s : State) : Host.Outcome State Fault Refusal :=
  match s.pending with
  | [] => s.blockStep
  | none :: r => ({ s with pending := r } : State).blockStep
  | some op :: r => ({ s with pending := r } : State).hostStep op

end Sys2Proof.Machine
end

