-- ==== Sys2Proof/Machine/Step.lean ====
section
/-! DEFINITION. The step, and the host's way to place one instruction where the step fetches next. -/

namespace Sys2Proof.Machine

/-- One step (10_state R20, 40_decoder_control R120). -/
def step (s : State) : Host.Outcome State Fault Refusal := s.turn

/-- The state `s` with a DEC run in progress whose stream is the table word's bytes, in the phase chosen
for that word, and the block's turn next. It stands for the load of a stream and the start command (log
17). -/
def State.withFetchWord (s : State) (nbits w : Nat) : State :=
  { s with
    status := .busy
    run := some .dec
    src := Memory.ofBytes (tableBytes nbits w)
    srcOpen := false
    runInLen := (tableBytes nbits w).length
    ip := 0
    phase := tablePhase nbits w
    pending := [] }

end Sys2Proof.Machine
end

