-- ==== Sys2Proof/Machine/Transact.lean ====
section
/-! DEFINITION. The transaction contract (10_state R44) over the machine's own steps: a register view of
the call, from reset, with no other operation of the host in between (70_reset_and_hazards R292, R296). -/

namespace Sys2Proof.Machine

/-- What a transaction returns (R44). -/
inductive TxResult where
  | ok (bytes : List Byte)
  | err (code : FaultCode)
  deriving DecidableEq, Repr

/-- `n` steps, staying where a step stops. -/
def runSteps : Nat → State → State
  | 0, s => s
  | n + 1, s =>
    match step s with
    | .next t => runSteps n t
    | .fault _ => s
    | .refused _ => s

/-- The result of the run that has ended (R44, R294); none while there is none. -/
def State.txResult (s : State) : Option TxResult :=
  match s.status with
  | .done => some (.ok s.result)
  | .fault => s.err.map .err
  | .idle => none
  | .busy => none

/-- After reset, with a whole stream on SRC and the registers written (R293). -/
def callState (p : Profile) (k : SearchKind) (bs : List Byte) (inLen hint level : Nat) : State :=
  { State.reset with
    profile := p
    search := k
    src := Memory.ofBytes bs
    inLen := inLen
    outHint := hint
    level := level }

/-- The state in which a DEC run ends: at most L + 1 steps after launch (40_decoder_control R134). -/
def decRun (p : Profile) (bs : List Byte) (inLen hint : Nat) : State :=
  runSteps (min inLen bs.length + 1) ((callState p .reference bs inLen hint 0).start .dec)

/-- decompress(IN, in_len, out_hint) (R44). -/
def decompress (p : Profile) (bs : List Byte) (inLen hint : Nat) : Option TxResult :=
  (decRun p bs inLen hint).txResult

/-- compress(D) (R44, 43_greedy_encoder R217) by a realisation of kind `k`. -/
def compress (p : Profile) (k : SearchKind) (D : List Byte) : Option TxResult :=
  (runSteps (D.length + 1) ((callState p k D D.length 0 0).start .encg)).txResult

/-- compress_leveled(D, level) (R44, 44_leveled_encoder R242) by a realisation of kind `k`. -/
def compressLeveled (p : Profile) (k : SearchKind) (D : List Byte) (level : Nat) : Option TxResult :=
  (runSteps (2 * (D.length + 1)) ((callState p k D D.length 0 level).start .encl)).txResult

end Sys2Proof.Machine
end

