-- ==== Sys2Proof/Safety.lean ====
section
/-! DEFINITION. The notions claims are stated in: the invariant of the machine's states, the admissible
streams of an encoder (43_greedy_encoder R214, 44_leveled_encoder R236), what a sequence of emit calls
stands for (42_token_emit R189), what a valid stream is (R188), and the candidates and the key order of the
reference ENCL as 44_leveled_encoder R237 to R240 write them. -/

namespace Sys2Proof.Machine

/-- The invariant that every step keeps. -/
structure State.Inv (s : State) : Prop where
  /-- The spaces are in canonical form (20_memory R50, R52). -/
  srcWf : s.src.wf
  outWf : s.out.wf
  cWf : s.parse.em.c.wf
  firstWf : ∀ a, s.firstParse = some a → a.wf
  /-- TRAIL(n) has 1 ≤ n ≤ 3 (10_state R25). -/
  trailPos : ∀ n, s.phase = .trail n → n ≠ 0
  /-- A run in progress belongs to a unit (R38). -/
  busyRun : s.status = .busy → s.run ≠ none
  doneRun : s.status = .done → s.run ≠ none
  /-- ip ≤ L during a DEC run (R23). -/
  ipBound : s.status = .busy → s.run = some .dec → s.ip ≤ s.limit
  /-- The status is implied by the phase (R29). -/
  decBusy : s.status = .busy → s.run = some .dec → s.phase ≠ .done ∧ ∀ f, s.phase ≠ .fault f
  decDone : s.status = .done → s.run = some .dec → s.phase = .done ∧ s.inPos = s.ip
  encDone : s.status = .done → s.run ≠ some .dec → s.inPos = 0
  /-- OUT_LEN is the length of the result at DONE and 0 otherwise, IN_POS is 0 before DONE (R42). -/
  doneLen : s.status = .done → s.outLen = s.result.length
  notDone : s.status ≠ .done → s.outLen = 0 ∧ s.inPos = 0
  /-- ERR holds a code exactly in FAULT, and nothing of the output is left then (60_exceptions R268). -/
  faulted : s.status = .fault →
    ∃ f, s.err = some f ∧ s.phase = .fault f ∧ s.out = [] ∧ s.parse.em.c = []
  noErr : s.status ≠ .fault → s.err = none
  /-- A leveled encode in progress has a level in range (44_leveled_encoder R231). -/
  levelOk : s.status = .busy → s.run = some .encl → levelValid s.runLevel = true

/-- The effect of a decoder token on its two spaces: `n` bytes of the stream are used and the bytes `bs`
are appended to OUT (10_state R23, R24). -/
def State.produce (n : Nat) (bs : List Byte) (s : State) : State :=
  { s with ip := s.ip + n, out := s.out.appendAll bs }

/-- `t` is `s` after fault entry with code `f` (60_exceptions R268), the input cursor standing at `ip`.
The pulled count and the draw counter are free (log 6). -/
def State.FaultFrom (s : State) (f : FaultCode) (ip : Nat) (t : State) : Prop :=
  ∃ pulled draws,
    t = { s with
      ip := ip
      phase := .fault f
      err := some f
      status := .fault
      outLen := 0
      inPos := 0
      out := []
      parse := Parse.fresh
      firstParse := none
      pulled := pulled
      draws := draws }

/-- What a match token stands for when |OUT| is `n0`: m_pos, the length and the carry
(41_decoder_matches R152 to R160); none for the other tokens. -/
def matchOf (n0 : Nat) : Instr → Option (Int × Nat × BitVec 2)
  | .m1 d c h => some (posM1 n0 d h, 2, c)
  | .m1b d c h => some (posM1b n0 d h, 3, c)
  | .m2 l d c h => some (posM2 n0 d h, lenM2 l, c)
  | .m3 len d c h => some (posM3 n0 d c h, lenM3 len, c)
  | .m4 hb len d c h => some (posM4 n0 hb d c h, lenM4 len, c)
  | .startPass => none
  | .startTrail _ => none
  | .startLit _ => none
  | .lit _ => none
  | .eos _ _ => none
  | .trail _ => none

/-- The row of the opcode table, with its range of first bytes, that an instruction belongs to in a
phase (30_encoding R81; the table's "phase" and "range"). -/
def rowSelected (ph : Phase) (b : Byte) : Instr → Prop
  | .startPass => ph = .start ∧ b.toNat ≤ 17
  | .startTrail nn => ph = .start ∧ nn = b ∧ 18 ≤ b.toNat ∧ b.toNat ≤ 20
  | .startLit nn => ph = .start ∧ nn = b ∧ 21 ≤ b.toNat
  | .lit _ => ph = .loop ∧ b.toNat ≤ 15
  | .m1 _ _ _ => ph = .dispatch .plain ∧ b.toNat ≤ 15
  | .m1b _ _ _ => ph = .dispatch .biased ∧ b.toNat ≤ 15
  | .m2 _ _ _ _ => (ph = .loop ∨ ∃ c, ph = .dispatch c) ∧ 64 ≤ b.toNat
  | .m3 _ _ _ _ => (ph = .loop ∨ ∃ c, ph = .dispatch c) ∧ 32 ≤ b.toNat ∧ b.toNat ≤ 63
  | .m4 _ _ _ _ _ => (ph = .loop ∨ ∃ c, ph = .dispatch c) ∧ 16 ≤ b.toNat ∧ b.toNat ≤ 31
  | .eos _ _ => (ph = .loop ∨ ∃ c, ph = .dispatch c) ∧ 16 ≤ b.toNat ∧ b.toNat ≤ 23
  | .trail n => ph = .trail n

/-- The phases that have a step (10_state R25, R29). -/
def Running (ph : Phase) : Prop := ph ≠ .done ∧ ∀ f, ph ≠ .fault f

/-- Where a match token emitted in a context is read (42_token_emit R182). -/
def readPhase : EmitCtx → Phase
  | .loopEntry => .loop
  | .plain => .dispatch .plain
  | .biased => .dispatch .biased

/-- The bytes a match copy appends (20_memory R66): with distance |bs| - m, appended byte k is
bs[m + (k mod distance)]. -/
def periodic (bs : List Byte) (m len : Nat) : List Byte :=
  (List.range len).map fun k => bs.getD (m + k % (bs.length - m)) 0

/-- A match of the input with its own past: 1 ≤ dist ≤ i and D[i + k] = D[i + k - dist] for
0 ≤ k < len (R214 (b)). -/
def trueMatch (D : List Byte) (i dist len : Nat) : Prop :=
  1 ≤ dist ∧ dist ≤ i ∧ i + len ≤ D.length ∧ ∀ k < len, D[i + k]? = D[i + k - dist]?

/-- `dist` is a distance at `i` at which the 2-byte prefix repeats (44_leveled_encoder R239). -/
abbrev prefixRepeats (D : List Byte) (i dist : Nat) : Prop :=
  1 ≤ dist ∧ dist ≤ min i 49151 ∧ i + 1 < D.length ∧ D[i - dist]? = D[i]? ∧
    D[i - dist + 1]? = D[i + 1]?

/-- The key of R240, (gain, length, minus distance): the first is lexicographically at most the second. -/
def keyLe (gain : Int) (len dist : Nat) (gain' : Int) (len' dist' : Nat) : Prop :=
  gain < gain' ∨ (gain = gain' ∧ (len < len' ∨ (len = len' ∧ dist' ≤ dist)))

/-- The DEPTH row of R237: a level with its number of candidates. -/
def depthTable : List (Nat × Nat) :=
  [(1, 1), (2, 2), (3, 4), (4, 8), (5, 16), (6, 32), (7, 128), (8, 1024), (9, 49151)]

/-- The parse states an encoder whose classes are `uses` can reach on D: literals and true matches, each
in the class Classify returns for it among the classes in use (R214, R236). -/
inductive Built (p : Profile) (uses : MatchClass → Bool) (D : List Byte) : Parse → Prop where
  | fresh : Built p uses D Parse.fresh
  | literal (q : Parse) : Built p uses D q → q.pos < D.length →
      Built p uses D (parseIter p D none q)
  | emit (q : Parse) (m : Pick) (cost : Nat) : Built p uses D q →
      trueMatch D q.pos m.dist m.len →
      classify p uses m.dist m.len (pendingCtx p q.em (q.pos - q.litStart)) = some (m.cls, cost) →
      Built p uses D (parseIter p D (some m) q)

/-- C is an admissible output for D (R214, R236). -/
def Admissible (p : Profile) (uses : MatchClass → Bool) (D C : List Byte) : Prop :=
  ∃ q, Built p uses D q ∧ q.pos = D.length ∧ C = (parseEnd p D q).c.bytes

/-- `Emitted p em bs`: an emitter reaches `em` by a sequence of EmitLiterals and EmitMatch calls, each under
its precondition, that stands for the bytes `bs` (42_token_emit R189). A match may be written in ANY class
whose precondition holds (R185), not only in the one Classify returns. A literal run is flushed where no
other run has been flushed since the last match: "every flush is followed by a match or EOS" (R183). -/
inductive Emitted (p : Profile) : Emitter → List Byte → Prop where
  | fresh : Emitted p Emitter.fresh []
  | literals (em : Emitter) (bs run : List Byte) : Emitted p em bs → em.ctx = .loopEntry →
      Emitted p (emitLiterals p run em) (bs ++ run)
  | copy (em : Emitter) (bs : List Byte) (cls : MatchClass) (dist len : Nat) : Emitted p em bs →
      representable cls dist len em.ctx = true → dist ≤ bs.length →
      Emitted p (emitMatch p cls dist len em) (bs ++ periodic bs (bs.length - dist) len)

/-- The classes of the reference ENCG (R216). -/
def greedyUses : MatchClass → Bool
  | .m1 => false
  | .m1b => false
  | .m2 => true
  | .m3 => true
  | .m4 => true

/-- C is a stream for D that DEC uses up (42_token_emit R188). -/
def StreamFor (p : Profile) (D C : List Byte) : Prop :=
  ∀ hint, decompress p C C.length hint = some (.ok D) ∧
    (decRun p C C.length hint).inPos = C.length

end Sys2Proof.Machine
end

