-- ==== Sys2Proof/Certificates/Slice0/Obligations.lean ====
section
/-! DEFINITION. The statements for the provers, from the numbered rules of spec/. Each docstring names the
rule or the sections. A statement that mentions `pulled`, `draws` or a free search holds for every value
of them. -/

open Sys2Proof Sys2Proof.Machine

/-! ## The step and the decoder -/

/-- R120, R20: when the bytes at ip decode to an instruction, the step is exec of it, on the block's turn
with no host operation listed or an idle turn listed; and, while a live source may still deliver (the
model's rule, log 5), a step that would run into InputUnderrun is not taken. -/
def Obligations.StepRunsDecodedInstruction : Prop :=
  ∀ (s : State) (i : Instr) (rest : List Byte),
    s.status = .busy → s.run = some .dec → decode s.profile s.phase s.inputLeft = .ok i rest →
    (s.starved = false → s.pending = [] → step s = exec i s) ∧
    (∀ r, s.starved = false → s.pending = none :: r → step s = exec i { s with pending := r }) ∧
    (s.starved = true → s.pending = [] →
      step s =
        match exec i s with
        | .next t => if t.phase = .fault .inputUnderrun then .next s else .next t
        | .fault f => .fault f
        | .refused r => .refused r)

/-- Words written out from the bit pictures and examples of R82 to R89, R122 to R125, R152 to R162, R186. -/
def Obligations.WordsDecodeAsTheSpecSays : Prop :=
  ∀ rest : List Byte,
    decode .doc .start (0x11#8 :: rest) = .ok .startPass (0x11#8 :: rest) ∧
    decode .doc .start (0x13#8 :: rest) = .ok (.startTrail 0x13#8) rest ∧
    decode .doc .start (0x15#8 :: rest) = .ok (.startLit 0x15#8) rest ∧
    decode .doc .loop (0x02#8 :: rest) = .ok (.lit (.inline 2#4)) rest ∧
    decode .doc .loop (0x00#8 :: 0xFF#8 :: 0x03#8 :: rest) = .ok (.lit (.ext 1 3#8)) rest ∧
    decode .ref .loop (0x00#8 :: 0x00#8 :: 0x03#8 :: rest) = .ok (.lit (.ext 1 3#8)) rest ∧
    decode .doc (.dispatch .plain) (0x0D#8 :: 0x00#8 :: rest) = .ok (.m1 3#2 1#2 0#8) rest ∧
    decode .doc (.dispatch .biased) (0x05#8 :: 0x00#8 :: rest) = .ok (.m1b 1#2 1#2 0#8) rest ∧
    decode .doc .loop (0xE4#8 :: 0x00#8 :: rest) = .ok (.m2 7#3 1#3 0#2 0#8) rest ∧
    decode .doc (.dispatch .biased) (0x25#8 :: 0x28#8 :: 0x00#8 :: rest) =
      .ok (.m3 (.inline 5#5) 10#6 0#2 0#8) rest ∧
    decode .doc .loop (0x20#8 :: 0x10#8 :: 0x01#8 :: 0x02#8 :: rest) =
      .ok (.m3 (.ext 0 0x10#8) 0#6 1#2 2#8) rest ∧
    decode .doc .loop (0x1F#8 :: 0xFF#8 :: 0xFF#8 :: rest) =
      .ok (.m4 1#1 (.inline 7#3) 63#6 3#2 0xFF#8) rest ∧
    decode .doc .loop (0x10#8 :: 0x03#8 :: 0x04#8 :: 0x00#8 :: rest) =
      .ok (.m4 0#1 (.ext 0 3#8) 1#6 0#2 0#8) rest ∧
    decode .doc (.dispatch .plain) (0x12#8 :: 0x03#8 :: 0x00#8 :: rest) =
      .ok (.eos (.inline 2#3) 3#2) rest ∧
    decode .doc (.trail 2#2) rest = .ok (.trail 2#2) rest

/-- R81, R99, R100: in every running phase every first byte selects one row of the table, by the phase
and the byte's range alone, no byte is illegal, and the phases DONE and FAULT have no token. -/
def Obligations.EveryByteSelectsItsRow : Prop :=
  (∀ (p : Profile) (ph : Phase) (b : Byte) (rest : List Byte) (i : Instr) (r : List Byte),
    decode p ph (b :: rest) = .ok i r → rowSelected ph b i) ∧
  (∀ (p : Profile) (ph : Phase) (b : Byte), Running ph →
    ∃ i r, decode p ph [b, 1#8, 1#8, 1#8] = .ok i r) ∧
  (∀ (p : Profile) (bs : List Byte), decode p .done bs = .noToken ∧
    ∀ f, decode p (.fault f) bs = .noToken)

/-- R82 to R91: decoding the header of any well-formed instruction, in a phase of its row, with any bytes
after it, gives the instruction back and leaves those bytes. START_PASS reads no byte but needs a first
byte of 0 to 17 to look at (R121). -/
def Obligations.DecodeOfEncode : Prop :=
  ∀ (p : Profile) (i : Instr) (ph : Phase) (rest : List Byte),
    i.wf p = true → i.readIn ph = true →
    (i = .startPass → ∃ b r, rest = b :: r ∧ b.toNat ≤ 17) →
    decode p ph (encode p i ++ rest) = .ok i rest

/-- R82 to R91, R99: whatever is decoded is well formed, belongs to the phase, and its header is exactly
the bytes that were read. -/
def Obligations.EncodeOfDecode : Prop :=
  ∀ (p : Profile) (ph : Phase) (bs : List Byte) (i : Instr) (rest : List Byte),
    (∀ n, ph = .trail n → n ≠ 0) → decode p ph bs = .ok i rest →
    encode p i ++ rest = bs ∧ i.wf p = true ∧ i.readIn ph = true

/-- R103, R261: a header cut short anywhere is an underrun, in each phase of its row, and so is a phase
that looks at a first byte when there is none. -/
def Obligations.CutHeaderIsUnderrun : Prop :=
  (∀ (p : Profile) (i : Instr) (ph : Phase) (n : Nat),
    i.wf p = true → i.readIn ph = true → n < (encode p i).length →
    decode p ph ((encode p i).take n) = .underrun) ∧
  (∀ p : Profile, decode p .start [] = .underrun ∧ decode p .loop [] = .underrun ∧
    ∀ c, decode p (.dispatch c) [] = .underrun)

/-- R128, R90: the extension read from k bytes EXT_CONT and a terminator is worth 255 k + v + base, in
both values of EXT_CONT, and continuing bytes alone are an underrun. -/
def Obligations.ExtensionReadsItsValue : Prop :=
  ∀ (p : Profile) (k : Nat) (v : Byte) (rest : List Byte),
    readExt p (List.replicate k p.extCont.byte) = none ∧
    (v ≠ p.extCont.byte →
      readExt p (List.replicate k p.extCont.byte ++ v :: rest) = some (k, v, rest) ∧
      ∀ (w base : Nat), lenValue base (.ext k v : LenField w) = 255 * k + v.toNat + base)

/-- R92 to R94 and the distances of R95 and R96: every distance of a class's range is encoded by exactly
one choice of the distance fields, and the fields encode no other distance. -/
def Obligations.DistanceRangesAreExact : Prop :=
  ∀ n0 : Nat,
    (∀ d h, ∃ x : Nat, 1 ≤ x ∧ x ≤ 1024 ∧ posM1 n0 d h = (n0 : Int) - x) ∧
    (∀ x : Nat, 1 ≤ x → x ≤ 1024 →
      ∃! q : BitVec 2 × Byte, posM1 n0 q.1 q.2 = (n0 : Int) - x) ∧
    (∀ d h, ∃ x : Nat, 2049 ≤ x ∧ x ≤ 3072 ∧ posM1b n0 d h = (n0 : Int) - x) ∧
    (∀ x : Nat, 2049 ≤ x → x ≤ 3072 →
      ∃! q : BitVec 2 × Byte, posM1b n0 q.1 q.2 = (n0 : Int) - x) ∧
    (∀ d h, ∃ x : Nat, 1 ≤ x ∧ x ≤ 2048 ∧ posM2 n0 d h = (n0 : Int) - x) ∧
    (∀ x : Nat, 1 ≤ x → x ≤ 2048 →
      ∃! q : BitVec 3 × Byte, posM2 n0 q.1 q.2 = (n0 : Int) - x) ∧
    (∀ l : BitVec 3, 2 ≤ l.toNat → 3 ≤ lenM2 l ∧ lenM2 l ≤ 8) ∧
    (∀ d c h, ∃ x : Nat, 1 ≤ x ∧ x ≤ 16384 ∧ posM3 n0 d c h = (n0 : Int) - x) ∧
    (∀ (c : BitVec 2) (x : Nat), 1 ≤ x → x ≤ 16384 →
      ∃! q : BitVec 6 × Byte, posM3 n0 q.1 c q.2 = (n0 : Int) - x) ∧
    (∀ hb d c h, ¬ (hb = 0#1 ∧ d = 0#6 ∧ h = 0#8) →
      ∃ x : Nat, 16385 ≤ x ∧ x ≤ 49151 ∧ posM4 n0 hb d c h = (n0 : Int) - x) ∧
    (∀ (c : BitVec 2) (x : Nat), 16385 ≤ x → x ≤ 49151 →
      ∃! q : BitVec 1 × BitVec 6 × Byte, posM4 n0 q.1 q.2.1 c q.2.2 = (n0 : Int) - x)

/-! ## The instructions: what each does, with its frame (the whole next state is given) -/

/-- R121: with a first byte of 0 to 17 the step from phase START is START_PASS, which changes the phase to
LOOP and nothing else. -/
def Obligations.StartPassGoesToLoop : Prop :=
  ∀ (s : State) (b : Byte) (r : List Byte),
    s.status = .busy → s.run = some .dec → s.starved = false → s.pending = [] →
    s.phase = .start → s.inputLeft = b :: r → b.toNat ≤ 17 →
    exec .startPass s = .next { s with phase := .loop } ∧ step s = exec .startPass s

/-- R122: a first byte 18, 19 or 20 goes to TRAIL(b - 17), one byte consumed, nothing else changed. -/
def Obligations.StartTrailGoesToTrail : Prop :=
  ∀ (s : State) (nn : Byte), 18 ≤ nn.toNat → nn.toNat ≤ 20 →
    ∃ n : BitVec 2, n.toNat = nn.toNat - 17 ∧ n ≠ 0 ∧
      exec (.startTrail nn) s = .next { s with ip := s.ip + 1, phase := .trail n }

/-- R123: with its literal bytes there, START_LIT copies the next b - 17 bytes and goes to
DISPATCH(RunCtx()), which is BIASED while no match has been seen. -/
def Obligations.StartLitCopiesItsRun : Prop :=
  ∀ (s : State) (nn : Byte), s.src.wf → 21 ≤ nn.toNat → s.ip + 1 + (nn.toNat - 17) ≤ s.limit →
    exec (.startLit nn) s =
      .next { s with
        ip := s.ip + 1 + (nn.toNat - 17)
        out := s.out.appendAll ((s.src.bytes.drop (s.ip + 1)).take (nn.toNat - 17))
        phase := .dispatch (if s.profile.biasScope = .everyRun ∨ s.seenMatch = false then .biased
          else .plain) }

/-- R125, R127: with its literal bytes there, LIT copies the t + 3 bytes after its header and goes to
DISPATCH(RunCtx()). -/
def Obligations.LitCopiesItsRun : Prop :=
  ∀ (s : State) (len : LenField 4), s.src.wf →
    s.ip + (1 + extCount len) + (lenValue 15 len + 3) ≤ s.limit →
    exec (.lit len) s =
      .next { s with
        ip := s.ip + (1 + extCount len) + (lenValue 15 len + 3)
        out := s.out.appendAll
          ((s.src.bytes.drop (s.ip + (1 + extCount len))).take (lenValue 15 len + 3))
        phase := .dispatch (if s.profile.biasScope = .everyRun ∨ s.seenMatch = false then .biased
          else .plain) }

/-- R131: with its bytes there, TRAIL(n) copies n bytes and goes to DISPATCH(PLAIN). -/
def Obligations.TrailCopiesItsBytes : Prop :=
  ∀ (s : State) (n : BitVec 2), s.src.wf → s.ip + n.toNat ≤ s.limit →
    exec (.trail n) s =
      .next { s with
        ip := s.ip + n.toNat
        out := s.out.appendAll ((s.src.bytes.drop s.ip).take n.toNat)
        phase := .dispatch .plain }

/-- R152, R132: M1 copies 2 bytes from distance 1 + D + 4 H. -/
def Obligations.M1CopiesTwoBytes : Prop :=
  ∀ (s : State) (d c : BitVec 2) (h : Byte), s.out.wf →
    1 + d.toNat + 4 * h.toNat ≤ s.out.size →
    exec (.m1 d c h) s =
      .next { s with
        ip := s.ip + 2
        out := s.out.appendAll
          (periodic s.out.bytes (s.out.size - (1 + d.toNat + 4 * h.toNat)) 2)
        seenMatch := true
        phase := if c = 0 then .loop else .trail c }

/-- R154, R132: M1B copies 3 bytes from distance 2049 + D + 4 H. -/
def Obligations.M1bCopiesThreeBytes : Prop :=
  ∀ (s : State) (d c : BitVec 2) (h : Byte), s.out.wf →
    2049 + d.toNat + 4 * h.toNat ≤ s.out.size →
    exec (.m1b d c h) s =
      .next { s with
        ip := s.ip + 2
        out := s.out.appendAll
          (periodic s.out.bytes (s.out.size - (2049 + d.toNat + 4 * h.toNat)) 3)
        seenMatch := true
        phase := if c = 0 then .loop else .trail c }

/-- R156, R132: M2 copies L + 1 bytes from distance 1 + D + 8 H. -/
def Obligations.M2CopiesItsLength : Prop :=
  ∀ (s : State) (l d : BitVec 3) (c : BitVec 2) (h : Byte), s.out.wf →
    1 + d.toNat + 8 * h.toNat ≤ s.out.size →
    exec (.m2 l d c h) s =
      .next { s with
        ip := s.ip + 2
        out := s.out.appendAll
          (periodic s.out.bytes (s.out.size - (1 + d.toNat + 8 * h.toNat)) (l.toNat + 1))
        seenMatch := true
        phase := if c = 0 then .loop else .trail c }

/-- R158, R132: M3 copies t + 2 bytes from distance 1 + D + 64 H. -/
def Obligations.M3CopiesItsLength : Prop :=
  ∀ (s : State) (len : LenField 5) (d : BitVec 6) (c : BitVec 2) (h : Byte), s.out.wf →
    1 + d.toNat + 64 * h.toNat ≤ s.out.size →
    exec (.m3 len d c h) s =
      .next { s with
        ip := s.ip + (3 + extCount len)
        out := s.out.appendAll
          (periodic s.out.bytes (s.out.size - (1 + d.toNat + 64 * h.toNat)) (lenValue 31 len + 2))
        seenMatch := true
        phase := if c = 0 then .loop else .trail c }

/-- R160, R132: M4 copies t + 2 bytes from distance 16384 + 16384 H' + D + 64 H. -/
def Obligations.M4CopiesItsLength : Prop :=
  ∀ (s : State) (hb : BitVec 1) (len : LenField 3) (d : BitVec 6) (c : BitVec 2) (h : Byte),
    s.out.wf → 16384 + 16384 * hb.toNat + d.toNat + 64 * h.toNat ≤ s.out.size →
    exec (.m4 hb len d c h) s =
      .next { s with
        ip := s.ip + (3 + extCount len)
        out := s.out.appendAll
          (periodic s.out.bytes
            (s.out.size - (16384 + 16384 * hb.toNat + d.toNat + 64 * h.toNat)) (lenValue 7 len + 2))
        seenMatch := true
        phase := if c = 0 then .loop else .trail c }

/-- R162, R133, R294, R42: EOS ends the run in DONE with OUT_LEN = |OUT| and IN_POS = ip; nothing is copied
and seen_match is not written; only the free pulled count and its counter move besides. -/
def Obligations.EosEndsTheRun : Prop :=
  ∀ (s : State) (len : LenField 3) (c : BitVec 2), ∃ pulled draws,
    exec (.eos len c) s =
      .next { s with
        ip := s.ip + (3 + extCount len)
        phase := .done
        status := .done
        outLen := s.out.size
        inPos := s.ip + (3 + extCount len)
        pulled := pulled
        draws := draws }

/-- R164, R262, R268: a match whose distance exceeds |OUT| raises LookbehindUnderrun, in all five classes
alike, with ip past its header (where ip stands is the model's reading: log 14). -/
def Obligations.FarMatchRaisesLookbehind : Prop :=
  ∀ s : State,
    (∀ d c h, s.out.size < 1 + d.toNat + 4 * h.toNat →
      ∃ t, exec (.m1 d c h) s = .next t ∧ s.FaultFrom .lookbehindUnderrun (s.ip + 2) t) ∧
    (∀ d c h, s.out.size < 2049 + d.toNat + 4 * h.toNat →
      ∃ t, exec (.m1b d c h) s = .next t ∧ s.FaultFrom .lookbehindUnderrun (s.ip + 2) t) ∧
    (∀ l d c h, s.out.size < 1 + d.toNat + 8 * h.toNat →
      ∃ t, exec (.m2 l d c h) s = .next t ∧ s.FaultFrom .lookbehindUnderrun (s.ip + 2) t) ∧
    (∀ len d c h, s.out.size < 1 + d.toNat + 64 * h.toNat →
      ∃ t, exec (.m3 len d c h) s = .next t ∧
        s.FaultFrom .lookbehindUnderrun (s.ip + (3 + extCount len)) t) ∧
    (∀ hb len d c h, s.out.size < 16384 + 16384 * hb.toNat + d.toNat + 64 * h.toNat →
      ∃ t, exec (.m4 hb len d c h) s = .next t ∧
        s.FaultFrom .lookbehindUnderrun (s.ip + (3 + extCount len)) t)

/-- R126, R261, R268: a literal run that claims more bytes than remain raises InputUnderrun, with ip at
the read limit (log 14). -/
def Obligations.ShortLiteralRunRaisesUnderrun : Prop :=
  ∀ s : State, s.src.wf →
    (∀ nn : Byte, s.ip + 1 ≤ s.limit → s.limit < s.ip + 1 + (nn.toNat - 17) →
      ∃ t, exec (.startLit nn) s = .next t ∧ s.FaultFrom .inputUnderrun s.limit t) ∧
    (∀ len : LenField 4, s.ip + (1 + extCount len) ≤ s.limit →
      s.limit < s.ip + (1 + extCount len) + (lenValue 15 len + 3) →
      ∃ t, exec (.lit len) s = .next t ∧ s.FaultFrom .inputUnderrun s.limit t) ∧
    (∀ n : BitVec 2, s.ip ≤ s.limit → s.limit < s.ip + n.toNat →
      ∃ t, exec (.trail n) s = .next t ∧ s.FaultFrom .inputUnderrun s.limit t)

/-- R54, R261, R268: a step whose header is cut short raises InputUnderrun with ip = L (log 19), once no live
source may still deliver (log 5). -/
def Obligations.ShortHeaderRaisesUnderrun : Prop :=
  ∀ s : State, s.status = .busy → s.run = some .dec → s.starved = false → s.pending = [] →
    s.ip ≤ s.limit → decode s.profile s.phase s.inputLeft = .underrun →
    ∃ t, step s = .next t ∧ s.FaultFrom .inputUnderrun s.limit t

/-- R264, R100: no instruction is refused, and none stops while OUT is in canonical form. -/
def Obligations.NoInstructionStops : Prop :=
  ∀ (i : Instr) (s : State), (∀ r, exec i s ≠ .refused r) ∧ (s.out.wf → ∃ t, exec i s = .next t)

/-- R50, R52, R61, R69, R20: the frame of all instructions. The host registers the host writes, the ports,
the latched parameters, the configuration and the host's own fields are never changed; without a fault
the encoder's state and ERR are not either, ip does not decrease, and every byte of OUT that was there
still reads as it did. -/
def Obligations.InstructionFrame : Prop :=
  ∀ (i : Instr) (s t : State), exec i s = .next t →
    (t.profile = s.profile ∧ t.search = s.search ∧ t.inLen = s.inLen ∧ t.outHint = s.outHint ∧
      t.level = s.level ∧ t.src = s.src ∧ t.srcOpen = s.srcOpen ∧ t.resPos = s.resPos ∧
      t.run = s.run ∧ t.runInLen = s.runInLen ∧ t.runHint = s.runHint ∧ t.runLevel = s.runLevel ∧
      t.pending = s.pending ∧ t.rdata = s.rdata ∧ s.ip ≤ t.ip) ∧
    ((∀ f, t.phase ≠ .fault f) →
      t.parse = s.parse ∧ t.firstParse = s.firstParse ∧ t.err = s.err ∧
      (∃ bs, t.out = s.out.appendAll bs) ∧
      (s.out.wf → ∀ a < s.out.size, t.out.read a = s.out.read a))

/-- R27: without a fault seen_match becomes true by the five match tokens and is left alone by the
others. -/
def Obligations.SeenMatchIsSetByMatches : Prop :=
  ∀ (i : Instr) (s t : State), exec i s = .next t → (∀ f, t.phase ≠ .fault f) →
    t.seenMatch = (s.seenMatch || (matchOf s.out.size i).isSome)

/-- R66, R171, R170: the copy appends exactly `len` bytes, byte k of them being
OUT_before[m_pos + (k mod dist)], keeps the canonical form and leaves every earlier byte as it was. -/
def Obligations.CopyMatchIsPeriodic : Prop :=
  ∀ (o : Memory) (m len : Nat), o.wf → m < o.size →
    ∃ o', copyMatch m len o = some o' ∧ o'.wf ∧ o'.size = o.size + len ∧
      (∀ a < o.size, o'.read a = o.read a) ∧
      ∀ k < len, o'.read (o.size + k) = o.read (m + k % (o.size - m))

/-! ## The machine: reset, launch, the host, the ends of a run -/

/-- R45, R290: what a hardware reset leaves, and that no run is in progress. That the host may reset at any
time is the model's choice (log 11). -/
def Obligations.ResetLeavesTheRegisters : Prop :=
  State.reset.status = .idle ∧ State.reset.err = none ∧ State.reset.inLen = 0 ∧
    State.reset.outHint = 0 ∧ State.reset.level = 0 ∧ State.reset.outLen = 0 ∧
    State.reset.inPos = 0 ∧ State.reset.run = none ∧
    ∀ s r, s.pending = some .reset :: r →
      ∃ t, step s = .next t ∧ t.status = .idle ∧ t.err = none ∧ t.inLen = 0 ∧ t.outHint = 0 ∧
        t.level = 0 ∧ t.outLen = 0 ∧ t.inPos = 0 ∧ t.run = none

/-- R38, R46, R292: a start command for DEC or ENCG, and one for ENCL with a level in range, latches the
registers, sets STATUS = BUSY, clears ERR, OUT_LEN and IN_POS and creates the run's state. The clearing of
the other units' state and of resPos and pulled is the model's choice (log 15), and so is that SRC is left as
it is, from every status and with no new stream presented too (log 27). -/
def Obligations.StartCommandLaunches : Prop :=
  ∀ (s : State) (u : RunUnit) (v : Nat) (r : List (Option HostOp)),
    s.pending = some (.write .cmd v) :: r → s.status ≠ .busy →
    (v = 1 ∧ u = .dec ∨ v = 2 ∧ u = .encg ∨ v = 3 ∧ u = .encl ∧ 1 ≤ s.level ∧ s.level ≤ 9) →
    step s = .next { s with
      pending := r
      status := .busy
      err := none
      outLen := 0
      inPos := 0
      run := some u
      runInLen := s.inLen
      runHint := s.outHint
      runLevel := s.level
      ip := 0
      out := []
      phase := .start
      seenMatch := false
      parse := ⟨⟨[], none, false, .loopEntry⟩, 0, 0⟩
      firstParse := none
      resPos := 0
      pulled := 0 }

/-- R231, R263, R268: ENCL_START with LEVEL outside 1 to 9 ends in FAULT with ERR = InvalidLevel, OUT_LEN
and IN_POS 0 and nothing emitted; IN_LEN, OUT_HINT, LEVEL (R41) and SRC are kept. -/
def Obligations.InvalidLevelFaults : Prop :=
  ∀ (s : State) (r : List (Option HostOp)),
    s.pending = some (.write .cmd 3) :: r → s.status ≠ .busy → ¬ (1 ≤ s.level ∧ s.level ≤ 9) →
    ∃ t, step s = .next t ∧ t.status = .fault ∧ t.err = some .invalidLevel ∧
      t.phase = .fault .invalidLevel ∧ t.outLen = 0 ∧ t.inPos = 0 ∧ t.parse.em.c = [] ∧
      t.result = [] ∧ t.inLen = s.inLen ∧ t.outHint = s.outHint ∧ t.level = s.level ∧ t.src = s.src

/-- R38, R41, D24: a register write while BUSY has no effect; CMD values other than 1 to 3 have none; IN_LEN,
OUT_HINT and LEVEL take the value otherwise. -/
def Obligations.RegisterWrites : Prop :=
  ∀ (s : State) (reg : Reg) (v : Nat) (r : List (Option HostOp)),
    s.pending = some (.write reg v) :: r →
    (s.status = .busy → step s = .next { s with pending := r }) ∧
    (s.status ≠ .busy →
      (reg = .cmd → v ≠ 1 → v ≠ 2 → v ≠ 3 → step s = .next { s with pending := r }) ∧
      (reg = .inLen → step s = .next { s with pending := r, inLen := v }) ∧
      (reg = .outHint → step s = .next { s with pending := r, outHint := v }) ∧
      (reg = .level → step s = .next { s with pending := r, level := v }))

/-- R38 to R42: a register read returns the register's value, CMD reads as 0, the codes of STATUS and ERR are
those the rules number, and nothing else changes. -/
def Obligations.RegisterReads : Prop :=
  ∀ (s : State) (reg : Reg) (r : List (Option HostOp)), s.pending = some (.read reg) :: r →
    ∃ x, step s = .next { s with pending := r, rdata := some x } ∧
      (reg = .cmd → x = 0) ∧
      (reg = .status → (s.status = .idle → x = 0) ∧ (s.status = .busy → x = 1) ∧
        (s.status = .done → x = 2) ∧ (s.status = .fault → x = 3)) ∧
      (reg = .err → (s.err = none → x = 0) ∧ (s.err = some .inputUnderrun → x = 1) ∧
        (s.err = some .lookbehindUnderrun → x = 2) ∧ (s.err = some .invalidLevel → x = 3)) ∧
      (reg = .inLen → x = s.inLen) ∧ (reg = .outHint → x = s.outHint) ∧
      (reg = .level → x = s.level) ∧ (reg = .outLen → x = s.outLen) ∧ (reg = .inPos → x = s.inPos)

/-- R43, R294, R268: RES delivers the result in order once STATUS is DONE (OUT of a DEC run, C of an encode
run) and nothing in FAULT; before a run has ended the read is refused (R72, U21; log 20). -/
def Obligations.ResDeliversTheResult : Prop :=
  ∀ (s : State) (r : List (Option HostOp)), s.pending = some .readRes :: r →
    (s.status = .done → s.run = some .dec → ∀ v, s.out.bytes[s.resPos]? = some v →
      step s = .next { s with pending := r, rdata := some v.toNat, resPos := s.resPos + 1 }) ∧
    (s.status = .done → s.run = some .encg ∨ s.run = some .encl →
      ∀ v, s.parse.em.c.bytes[s.resPos]? = some v →
      step s = .next { s with pending := r, rdata := some v.toNat, resPos := s.resPos + 1 }) ∧
    (s.status = .fault → step s = .next { s with pending := r, rdata := none }) ∧
    (s.status = .idle ∨ s.status = .busy → step s = .refused .resReadEarly)

/-- R72, R295, U20: the host's change of IN below in_len during a run, and a new stream put on SRC during a
run, have no meaning; the model refuses them (log 21). -/
def Obligations.AlteredInputIsRefused : Prop :=
  ∀ (s : State) (r : List (Option HostOp)), s.status = .busy →
    (∀ a v, s.pending = some (.alter a v) :: r → a < s.runInLen → step s = .refused .inputAltered) ∧
    (∀ bs live, s.pending = some (.present bs live) :: r → step s = .refused .inputAltered)

/-- R293, R295, R54, R58: outside a run the host puts a new stream on SRC; at any time it supplies further
bytes in order, during a run only those of a live source, and ends the source. That SRC is one field of
bytes is the model's choice (log 4), and so is the clause that a change of a byte of SRC takes place, outside
a run at any address and during a run at or beyond in_len: no rule states it, it is DEDUCED from R72, R295
and U20, which forbid only a change below in_len during a run; likewise that further bytes outside a run are
appended whether the source is live or not (log 21). -/
def Obligations.SourceOperations : Prop :=
  ∀ (s : State) (r : List (Option HostOp)),
    (∀ bs live, s.pending = some (.present bs live) :: r → s.status ≠ .busy →
      ∃ m : Memory, step s = .next { s with pending := r, src := m, srcOpen := live } ∧ m.wf ∧
        m.bytes = bs) ∧
    (∀ bs, s.pending = some (.supply bs) :: r → (s.status = .busy → s.srcOpen = true) → s.src.wf →
      ∃ m : Memory, step s = .next { s with pending := r, src := m } ∧ m.wf ∧
        m.bytes = s.src.bytes ++ bs) ∧
    (s.pending = some .endSource :: r → step s = .next { s with pending := r, srcOpen := false }) ∧
    (∀ a v, s.pending = some (.alter a v) :: r → (s.status = .busy → s.runInLen ≤ a) → s.src.wf →
      ∃ m : Memory, step s = .next { s with pending := r, src := m } ∧ m.wf ∧
        m.bytes = s.src.bytes.set a v)

/-- R25, R269, R291: with no host operation to make, nothing moves in DONE, in FAULT, or while idle (that such
a turn leaves the state as it is is the model's reading: log 9). -/
def Obligations.EndedRunHasNoStep : Prop :=
  ∀ s : State, s.pending = [] → s.status ≠ .busy → step s = .next s

/-- R11, R32, D23: no step, whatever it is, changes the instance's configuration. That the profile is a field
of the state is the model's choice (log 2); that the kind of search is one, and that no step changes it, is
the model's choice too (log 7). -/
def Obligations.ConfigurationIsFixed : Prop :=
  ∀ s t : State, step s = .next t → t.profile = s.profile ∧ t.search = s.search

/-- R58, R31, U22: when a DEC run ends, the count of bytes pulled from the source lies between ip and
min(L, ip + PREFETCH_MAX). -/
def Obligations.PulledStaysInRange : Prop :=
  ∀ s t : State, s.Inv → s.pending = [] → s.status = .busy → s.run = some .dec →
    step s = .next t → t.status ≠ .busy →
    t.ip ≤ t.pulled ∧ t.pulled ≤ min t.limit (t.ip + Config.prefetchMax)

/-- R23, R25, R29, R42, R50, R52, R231, R268: every step keeps the invariant State.Inv. -/
def Obligations.StepKeepsInvariant : Prop :=
  ∀ s t : State, s.Inv → step s = .next t → t.Inv

/-- The invariant holds at reset. -/
def Obligations.ResetMeetsInvariant : Prop := State.reset.Inv

/-- R134, R23, R24: a step of a DEC run, other than the first and while no live source may still deliver,
uses at least one byte of IN or ends the run; ip never passes L; and OUT only grows unless a fault discards
it. -/
def Obligations.DecStepMakesProgress : Prop :=
  ∀ s t : State, s.Inv → s.pending = [] → s.status = .busy → s.run = some .dec →
    s.starved = false → step s = .next t →
    (s.phase ≠ .start → s.ip < t.ip ∨ t.status ≠ .busy) ∧ s.ip ≤ t.ip ∧ t.ip ≤ t.limit ∧
    ((∃ bs, t.out = s.out.appendAll bs) ∨ t.status = .fault)

/-! ## Runs of the decoder -/

/-- R134, R44: every DEC run ends, within L + 1 steps, in DONE or in FAULT with one of DEC's two codes. -/
def Obligations.DecompressAlwaysEnds : Prop :=
  ∀ (p : Profile) (bs : List Byte) (inLen hint : Nat),
    (∃ D, decompress p bs inLen hint = some (.ok D)) ∨
      decompress p bs inLen hint = some (.err .inputUnderrun) ∨
      decompress p bs inLen hint = some (.err .lookbehindUnderrun)

/-- R304, R22: the result does not depend on the hint, on any stream, valid or not. -/
def Obligations.HintDoesNotMatter : Prop :=
  ∀ (p : Profile) (bs : List Byte) (inLen h h' : Nat),
    decompress p bs inLen h = decompress p bs inLen h'

/-- R21, R51, R298: bytes at or beyond in_len have no influence. -/
def Obligations.NoReadBeyondDeclaredLength : Prop :=
  ∀ (p : Profile) (bs bs' : List Byte) (inLen hint : Nat), bs.take inLen = bs'.take inLen →
    decompress p bs inLen hint = decompress p bs' inLen hint

/-- R303: of a stream that decodes, every prefix that cuts the end marker fails with InputUnderrun, and every
longer prefix still decodes to the same bytes. -/
def Obligations.TruncationFails : Prop :=
  ∀ (p : Profile) (bs D : List Byte) (hint : Nat),
    decompress p bs bs.length hint = some (.ok D) →
    ∀ k, k ≤ bs.length →
      (k < (decRun p bs bs.length hint).inPos →
        decompress p (bs.take k) k hint = some (.err .inputUnderrun)) ∧
      ((decRun p bs bs.length hint).inPos ≤ k →
        decompress p (bs.take k) k hint = some (.ok D))

/-- R133, D12: bytes after the end marker are never read and are no error. -/
def Obligations.BytesAfterEndMarkerIgnored : Prop :=
  ∀ (p : Profile) (bs extra D : List Byte) (hint : Nat),
    decompress p bs bs.length hint = some (.ok D) →
    decompress p (bs ++ extra) (bs ++ extra).length hint = some (.ok D) ∧
      (decRun p (bs ++ extra) (bs ++ extra).length hint).inPos =
        (decRun p bs bs.length hint).inPos

/-- R305: the overlap stream decodes to "ababababab", under both profiles and every hint. -/
def Obligations.OverlapStreamDecodes : Prop :=
  ∀ hint, ∀ p ∈ [Profile.doc, Profile.ref],
    decompress p [0x13#8, 0x61#8, 0x62#8, 0xE4#8, 0x00#8, 0x11#8, 0x00#8, 0x00#8] 8 hint =
      some (.ok [0x61#8, 0x62#8, 0x61#8, 0x62#8, 0x61#8, 0x62#8, 0x61#8, 0x62#8, 0x61#8, 0x62#8])

/-! ## The encode side -/

/-- R181: EmitExt(r) is the inverse of Ext and writes ExtLen(r) bytes. -/
def Obligations.EmitExtInvertsExt : Prop :=
  ∀ (p : Profile) (r : Nat) (rest : List Byte), 1 ≤ r →
    (extBytes p r).length = extLen p r ∧
    ∃ k v, readExt p (extBytes p r ++ rest) = some (k, v, rest) ∧
      ∀ (w base : Nat), lenValue base (.ext k v : LenField w) = r + base

/-- R185: in the context its precondition names, what EmitMatch writes decodes to a token of the same
distance and length with carry 0, whatever follows. -/
def Obligations.EmitMatchInvertsDecode : Prop :=
  ∀ (p : Profile) (cls : MatchClass) (dist len : Nat) (ctx : EmitCtx) (rest : List Byte) (n0 : Nat),
    representable cls dist len ctx = true →
    ∃ i, decode p (readPhase ctx) (matchHead p cls dist len ++ matchTail cls dist len ++ rest) =
        .ok i rest ∧
      matchOf n0 i = some ((n0 : Int) - dist, len, 0)

/-- R187: Classify returns a class that can represent the match, at the cost of the bytes EmitMatch writes,
and no class that can represent it costs less; it returns none only where no class can. -/
def Obligations.ClassifyIsNarrowest : Prop :=
  ∀ (p : Profile) (dist len : Nat) (ctx : EmitCtx),
    (∀ cls cost, classify p (fun _ => true) dist len ctx = some (cls, cost) →
      representable cls dist len ctx = true ∧
      cost = (matchHead p cls dist len ++ matchTail cls dist len).length ∧
      ∀ cls', representable cls' dist len ctx = true →
        cost ≤ (matchHead p cls' dist len ++ matchTail cls' dist len).length) ∧
    (classify p (fun _ => true) dist len ctx = none → ∀ cls, representable cls dist len ctx = false)

/-- R184, R98, R53: a run of 1 to 3 bytes after a match changes only bits 1 and 0 of one emitted byte, the
second-to-last of the match, whose bits 1 and 0 were 0, and appends the run. -/
def Obligations.CarryPatchTouchesTwoBits : Prop :=
  ∀ (p : Profile) (em : Emitter) (cls : MatchClass) (dist len : Nat) (ctx : EmitCtx) (run : List Byte),
    em.c.wf → representable cls dist len ctx = true → 1 ≤ run.length → run.length ≤ 3 →
    let e := emitMatch p cls dist len em
    ∃ a v, e.carryIdx = some a ∧ a + 2 = e.c.size ∧ e.c.bytes[a]? = some v ∧ v &&& 3#8 = 0#8 ∧
      (emitLiterals p run e).c.bytes =
        e.c.bytes.set a (v ||| BitVec.ofNat 8 run.length) ++ run

/-- R215: MatchLen is the largest length of a true match at a distance. -/
def Obligations.MatchLenIsLargest : Prop :=
  ∀ (D : List Byte) (i dist l : Nat), 1 ≤ dist → dist ≤ i → i ≤ D.length →
    (trueMatch D i dist l ↔ l ≤ matchLen D i dist)

/-- R216: GreedyBest has the largest length, at least 3, among the distances 1 to min(i, 49151), at the
smallest such distance, and is none when no distance reaches length 3. -/
def Obligations.GreedyBestIsBest : Prop :=
  ∀ (D : List Byte) (i : Nat),
    (∀ dist l, greedyBest D i = some (dist, l) →
      1 ≤ dist ∧ dist ≤ min i 49151 ∧ l = matchLen D i dist ∧ 3 ≤ l ∧
      ∀ d', 1 ≤ d' → d' ≤ min i 49151 →
        matchLen D i d' < l ∨ (matchLen D i d' = l ∧ dist ≤ d')) ∧
    (greedyBest D i = none → ∀ d', 1 ≤ d' → d' ≤ min i 49151 → matchLen D i d' < 3)

/-- R239, R240: the examined candidates are the distances at which the 2-byte prefix repeats, the first
`depth` of them in order of distance; Best returns one of them that Classify represents and that gains, its
key the greatest of all such, and none only where no examined candidate is represented and gains. -/
def Obligations.BestCandidateIsBest : Prop :=
  ∀ (p : Profile) (D : List Byte) (i depth : Nat) (ctx : EmitCtx),
    (∀ d, d ∈ candidates D i depth ↔
      prefixRepeats D i d ∧
        ((List.range d).filter fun e => decide (prefixRepeats D i e)).length < depth) ∧
    (∀ b, bestCand p D i depth ctx = some b →
      b.dist ∈ candidates D i depth ∧ b.len = matchLen D i b.dist ∧
      (∃ cost, classify p (fun _ => true) b.dist b.len ctx = some (b.cls, cost) ∧
        b.gain = (b.len : Int) - cost) ∧
      (1 ≤ b.gain ∨ (b.gain = 0 ∧ b.cls = .m1)) ∧
      ∀ d ∈ candidates D i depth, ∀ cls cost,
        classify p (fun _ => true) d (matchLen D i d) ctx = some (cls, cost) →
        (1 ≤ (matchLen D i d : Int) - cost ∨ ((matchLen D i d : Int) - cost = 0 ∧ cls = .m1)) →
        keyLe ((matchLen D i d : Int) - cost) (matchLen D i d) d b.gain b.len b.dist) ∧
    (bestCand p D i depth ctx = none →
      ∀ d ∈ candidates D i depth, ∀ cls cost,
        classify p (fun _ => true) d (matchLen D i d) ctx = some (cls, cost) →
        ¬ (1 ≤ (matchLen D i d : Int) - cost ∨ ((matchLen D i d : Int) - cost = 0 ∧ cls = .m1)))

/-- R53, R20, R41, R42: a step of an encode run always completes; it never writes D, the decoder's state, the
host's registers or the latched parameters, and before the end it writes nothing but the parse. That a step
is one iteration is the model's choice (log 1); so is that the step completes by leaving the state as it is
while a live source has yet to deliver D (log 5), and that an encode run never writes the count of pulled
bytes, at its end neither: t.pulled = s.pulled (log 28). How a parse of a reference search ends (R217, R241,
R242): the last run and the end marker are emitted; that is the result of ENCG, of ENCL at level 1, and of
ENCL's parse B where it is shorter than A; at another level parse A is kept and B begins afresh. -/
def Obligations.EncoderStepFrame : Prop :=
  ∀ s : State, s.pending = [] → s.status = .busy → s.run = some .encg ∨ s.run = some .encl →
    ∃ t, step s = .next t ∧ (t.status = .busy ∨ t.status = .done) ∧
      t.src = s.src ∧ t.srcOpen = s.srcOpen ∧ t.profile = s.profile ∧ t.search = s.search ∧
      t.inLen = s.inLen ∧ t.outHint = s.outHint ∧ t.level = s.level ∧ t.err = s.err ∧
      t.run = s.run ∧ t.runInLen = s.runInLen ∧ t.runHint = s.runHint ∧ t.runLevel = s.runLevel ∧
      t.resPos = s.resPos ∧ t.ip = s.ip ∧ t.out = s.out ∧ t.phase = s.phase ∧
      t.seenMatch = s.seenMatch ∧ t.pulled = s.pulled ∧ t.draws = s.draws ∧ t.rdata = s.rdata ∧
      t.pending = [] ∧
      (t.status = .busy → t.outLen = s.outLen ∧ t.inPos = s.inPos) ∧
      (t.status = .done → t.outLen = t.parse.em.c.size ∧ t.inPos = 0) ∧
      (s.starved = false → s.search = .reference → s.data.length ≤ s.parse.pos →
        let c : Memory :=
          (emitEos (emitLiterals s.profile (slice s.data s.parse.litStart s.data.length) s.parse.em)).c
        (s.run = some .encg → t.status = .done ∧ t.parse.em.c = c) ∧
        (s.run = some .encl → s.firstParse = none → s.runLevel = 1 →
          t.status = .done ∧ t.parse.em.c = c) ∧
        (s.run = some .encl → s.firstParse = none → s.runLevel ≠ 1 →
          t.status = .busy ∧ t.firstParse = some c ∧ t.parse = ⟨⟨[], none, false, .loopEntry⟩, 0, 0⟩) ∧
        (s.run = some .encl → ∀ a, s.firstParse = some a →
          t.status = .done ∧ t.parse.em.c = if a.size ≤ c.size then a else c))

/-- R294: an iteration of either encoder, of the reference search or of a free one, advances `i` by at least 1
and never past |D|. Of the reference search it is also said which match the iteration takes: for ENCG what
GreedyBest finds, in the class R217 chooses; for ENCL what Best finds with the level's DEPTH (R237; level 1 in
parse B, R242), unless LAZY holds (levels 5 to 9) and the match at i + 1 with one more pending literal gains
strictly more (R241). A match taken flushes the pending run before it; otherwise the run grows by one byte.
That a step is one iteration is the model's choice (log 1). -/
def Obligations.EncoderIterationAdvances : Prop :=
  ∀ s : State, s.pending = [] → s.status = .busy → s.run = some .encg ∨ s.run = some .encl →
    s.starved = false → s.parse.pos < s.data.length →
    let i : Nat := s.parse.pos
    let r : Nat := i - s.parse.litStart
    let literal : Parse := { s.parse with pos := i + 1 }
    let matched : MatchClass → Nat → Nat → Parse := fun cls dist len =>
      { em := emitMatch s.profile cls dist len
          (emitLiterals s.profile (slice s.data s.parse.litStart i) s.parse.em)
        pos := i + len
        litStart := i + len }
    let best : Nat → Nat → Nat → Option Cand := fun depth at' run =>
      bestCand s.profile s.data at' depth (ctxAfterRun s.profile.biasScope s.parse.em.seenMatch run)
    ∃ t, step s = .next t ∧ t.status = .busy ∧ t.run = s.run ∧ t.data = s.data ∧
      t.firstParse = s.firstParse ∧
      i < t.parse.pos ∧ t.parse.pos ≤ s.data.length ∧
      (s.search = .reference → s.run = some .encg →
        (greedyBest s.data i = none → t.parse = literal) ∧
        ∀ dist len, greedyBest s.data i = some (dist, len) →
          t.parse = matched
            (if len ≤ 8 ∧ dist ≤ 2048 then .m2 else if dist ≤ 16384 then .m3 else .m4) dist len) ∧
      (s.search = .reference → s.run = some .encl → ∀ level depth, (level, depth) ∈ depthTable →
        (s.firstParse = none ∧ s.runLevel = level ∨ s.firstParse ≠ none ∧ level = 1) →
        (best depth i r = none → t.parse = literal) ∧
        ∀ c, best depth i r = some c →
          ((5 ≤ level ∧ ∃ c2, best depth (i + 1) (r + 1) = some c2 ∧ c.gain < c2.gain) →
            t.parse = literal) ∧
          (¬ (5 ≤ level ∧ ∃ c2, best depth (i + 1) (r + 1) = some c2 ∧ c.gain < c2.gain) →
            t.parse = matched c.cls c.dist c.len))

/-- R217, R218: with no match anywhere, ENCG's result is one literal run and the end marker, in the START form
up to 238 bytes and in the LIT form above. -/
def Obligations.AllLiteralResult : Prop :=
  ∀ (p : Profile) (D : List Byte), (∀ i < D.length, greedyBest D i = none) →
    compress p .reference D =
      some (.ok
        ((if D = [] then []
          else if D.length ≤ 238 then BitVec.ofNat 8 (17 + D.length) :: D
          else 0#8 :: (extBytes p (D.length - 18) ++ D)) ++ [0x11#8, 0x00#8, 0x00#8]))

/-- R210, R214, R236, R230: both encoders always succeed (ENCL for a level 1 to 9), and what they emit is
admissible: ENCG's reference algorithm among M2, M3 and M4, any other realisation of ENCG among the classes
it uses, ENCL among all five. -/
def Obligations.EncodersAreAdmissible : Prop :=
  ∀ (p : Profile) (D : List Byte),
    (∃ C, compress p .reference D = some (.ok C) ∧ Admissible p greedyUses D C) ∧
    (∃ C, compress p .free D = some (.ok C) ∧ Admissible p Config.freeUses D C) ∧
    ∀ level, 1 ≤ level → level ≤ 9 →
      (∃ C, compressLeveled p .reference D level = some (.ok C) ∧
        Admissible p (fun _ => true) D C) ∧
      (∃ C, compressLeveled p .free D level = some (.ok C) ∧ Admissible p (fun _ => true) D C)

/-- R189, the emit law: what any sequence of EmitLiterals and EmitMatch calls writes, each under its own
precondition and each match in any class R185 admits it in, followed by EmitEOS, decodes under the same
profile to the bytes the calls stand for, and DEC uses all of it. So does every admissible stream, of any
realisation (R214). -/
def Obligations.AdmissibleStreamsDecode : Prop :=
  (∀ (p : Profile) (em : Emitter) (D : List Byte),
    Emitted p em D → StreamFor p D (emitEos em).c.bytes) ∧
  ∀ (p : Profile) (uses : MatchClass → Bool) (D C : List Byte),
    Admissible p uses D C → StreamFor p D C

/-- R302: round trip. For every input, hint and valid level, under one profile throughout, decompressing what
either encoder gives yields the input; for the reference algorithms and for any other realisation. -/
def Obligations.RoundTrip : Prop :=
  ∀ (p : Profile) (k : SearchKind) (D : List Byte) (hint : Nat),
    (∃ C, compress p k D = some (.ok C) ∧ decompress p C C.length hint = some (.ok D)) ∧
    ∀ level, 1 ≤ level → level ≤ 9 →
      ∃ C, compressLeveled p k D level = some (.ok C) ∧
        decompress p C C.length hint = some (.ok D)

/-- R243 (a), R242, R306: the reference ENCL's result at a valid level is never longer than at level 1. -/
def Obligations.HigherLevelIsNeverLarger : Prop :=
  ∀ (p : Profile) (D : List Byte) (level : Nat), 1 ≤ level → level ≤ 9 →
    ∃ C C1, compressLeveled p .reference D level = some (.ok C) ∧
      compressLeveled p .reference D 1 = some (.ok C1) ∧ C.length ≤ C1.length
end

