-- ==== Sys2Proof/Laws/Memory.lean ====
section
/-! SUPPORT. The laws of a space: its canonical form is kept by every operation, a canonical space is
its byte sequence, and a read after an append or a patch is what it should be (20_memory R52, R53, R60,
R61). -/

namespace Sys2Proof.Machine

theorem Memory.length_numberFrom (k : Nat) (bs : List Byte) :
    (Memory.numberFrom k bs).length = bs.length := by
  induction bs generalizing k with
  | nil => rfl
  | cons b r ih => simp [Memory.numberFrom, ih]

theorem Memory.map_fst_numberFrom (k : Nat) (bs : List Byte) :
    (Memory.numberFrom k bs).map Prod.fst = List.range' k bs.length := by
  induction bs generalizing k with
  | nil => rfl
  | cons b r ih => simp [Memory.numberFrom, ih, List.range'_succ]

theorem Memory.map_snd_numberFrom (k : Nat) (bs : List Byte) :
    (Memory.numberFrom k bs).map Prod.snd = bs := by
  induction bs generalizing k with
  | nil => rfl
  | cons b r ih => simp [Memory.numberFrom, ih]

theorem Memory.numberFrom_append (k : Nat) (a b : List Byte) :
    Memory.numberFrom k (a ++ b) = Memory.numberFrom k a ++ Memory.numberFrom (k + a.length) b := by
  induction a generalizing k with
  | nil => rfl
  | cons x r ih => simp [Memory.numberFrom, ih, Nat.add_comm, Nat.add_assoc]

@[simp] theorem Memory.size_nil : Memory.size [] = 0 := rfl

@[simp] theorem Memory.bytes_nil : Memory.bytes [] = [] := rfl

@[simp] theorem Memory.bytes_length (m : Memory) : m.bytes.length = m.size := by
  simp [Memory.bytes, Memory.size]

@[simp] theorem Memory.bytes_ofBytes (bs : List Byte) : (Memory.ofBytes bs).bytes = bs :=
  Memory.map_snd_numberFrom 0 bs

@[simp] theorem Memory.size_ofBytes (bs : List Byte) : (Memory.ofBytes bs).size = bs.length :=
  Memory.length_numberFrom 0 bs

theorem Memory.wf_nil : Memory.wf [] := rfl

theorem Memory.wf_ofBytes (bs : List Byte) : (Memory.ofBytes bs).wf := by
  simp [Memory.wf, Memory.ofBytes, Memory.map_fst_numberFrom, Memory.length_numberFrom,
    List.range_eq_range']

theorem Memory.eq_numberFrom (k : Nat) (m : Memory) (h : m.map Prod.fst = List.range' k m.length) :
    m = Memory.numberFrom k m.bytes := by
  induction m generalizing k with
  | nil => rfl
  | cons c r ih =>
    simp only [List.map_cons, List.length_cons, List.range'_succ, List.cons.injEq] at h
    have hr := ih (k + 1) h.2
    simp only [Memory.bytes] at hr ⊢
    simp only [List.map_cons, Memory.numberFrom, List.cons.injEq]
    exact ⟨Prod.ext h.1 rfl, hr⟩

/-- A canonical space is exactly its byte sequence, so equal contents are equal lists (R50). -/
theorem Memory.eq_ofBytes (m : Memory) (h : m.wf) : m = Memory.ofBytes m.bytes :=
  Memory.eq_numberFrom 0 m (by rw [← List.range_eq_range']; exact h)

@[simp] theorem Memory.bytes_append (m : Memory) (v : Byte) : (m.append v).bytes = m.bytes ++ [v] := by
  simp [Memory.append, Memory.bytes]

@[simp] theorem Memory.bytes_appendAll (m : Memory) (bs : List Byte) :
    (m.appendAll bs).bytes = m.bytes ++ bs := by
  simp [Memory.appendAll, Memory.bytes, Memory.map_snd_numberFrom]

@[simp] theorem Memory.size_append (m : Memory) (v : Byte) : (m.append v).size = m.size + 1 := by
  simp [Memory.append, Memory.size]

@[simp] theorem Memory.size_appendAll (m : Memory) (bs : List Byte) :
    (m.appendAll bs).size = m.size + bs.length := by
  simp [Memory.appendAll, Memory.size, Memory.length_numberFrom]

@[simp] theorem Memory.size_modify (m : Memory) (a : Nat) (f : Byte → Byte) :
    (m.modify a f).size = m.size := by
  simp [Memory.modify, Memory.size]

theorem Memory.appendAll_append (m : Memory) (a b : List Byte) :
    (m.appendAll a).appendAll b = m.appendAll (a ++ b) := by
  simp only [Memory.appendAll, Memory.numberFrom_append, List.append_assoc]
  simp [Memory.size, Memory.length_numberFrom]

theorem Memory.append_eq_appendAll (m : Memory) (v : Byte) : m.append v = m.appendAll [v] := rfl

@[simp] theorem Memory.appendAll_nil (m : Memory) : m.appendAll [] = m := by
  simp [Memory.appendAll, Memory.numberFrom]

theorem Memory.ofBytes_appendAll (a b : List Byte) :
    (Memory.ofBytes a).appendAll b = Memory.ofBytes (a ++ b) := by
  simp [Memory.appendAll, Memory.ofBytes, Memory.numberFrom_append, Memory.size,
    Memory.length_numberFrom]

/-- Every operation keeps the canonical form. -/
theorem Memory.wf_appendAll (m : Memory) (bs : List Byte) (h : m.wf) : (m.appendAll bs).wf := by
  rw [Memory.eq_ofBytes m h, Memory.ofBytes_appendAll]
  exact Memory.wf_ofBytes _

theorem Memory.wf_append (m : Memory) (v : Byte) (h : m.wf) : (m.append v).wf :=
  Memory.wf_appendAll m [v] h

theorem Memory.wf_modify (m : Memory) (a : Nat) (f : Byte → Byte) (h : m.wf) : (m.modify a f).wf := by
  have : (m.modify a f).map Prod.fst = m.map Prod.fst := by
    simp only [Memory.modify, List.map_map]
    refine List.map_congr_left fun c _ => ?_
    simp only [Function.comp]
    split <;> rfl
  have hl : (m.modify a f).length = m.length := by simp [Memory.modify]
  rw [Memory.wf, this, hl]
  exact h

theorem Memory.read_numberFrom (k a : Nat) (bs : List Byte) :
    Memory.read (Memory.numberFrom k bs) a = if a < k then none else bs[a - k]? := by
  induction bs generalizing k with
  | nil => simp [Memory.numberFrom, Memory.read]
  | cons b r ih =>
    have ih' := ih (k + 1)
    simp only [Memory.read] at ih'
    simp only [Memory.numberFrom, Memory.read, List.find?_cons]
    by_cases hk : k = a
    · subst hk; simp
    · simp only [beq_eq_false_iff_ne.mpr hk, ih']
      by_cases ha : a < k
      · simp [ha, Nat.lt_succ_of_lt ha]
      · have h1 : ¬ a < k + 1 := by omega
        have h2 : a - k = (a - (k + 1)) + 1 := by omega
        simp [ha, h1, h2]

/-- A canonical space reads as its byte sequence (R60). -/
theorem Memory.read_eq (m : Memory) (h : m.wf) (a : Nat) : m.read a = m.bytes[a]? := by
  conv_lhs => rw [Memory.eq_ofBytes m h]
  rw [Memory.ofBytes, Memory.read_numberFrom]
  simp

theorem Memory.modify_numberFrom (k a : Nat) (f : Byte → Byte) (bs : List Byte) :
    Memory.modify (Memory.numberFrom k bs) a f =
      if a < k then Memory.numberFrom k bs else Memory.numberFrom k (bs.modify (a - k) f) := by
  induction bs generalizing k with
  | nil => simp [Memory.numberFrom, Memory.modify]
  | cons b r ih =>
    have ih' := ih (k + 1)
    simp only [Memory.modify] at ih'
    simp only [Memory.numberFrom, Memory.modify, List.map_cons, ih']
    by_cases hk : k = a
    · subst hk; simp [Memory.numberFrom]
    · by_cases ha : a < k
      · simp [ha, Nat.lt_succ_of_lt ha, hk]
      · have h1 : ¬ a < k + 1 := by omega
        have h2 : a - k = (a - (k + 1)) + 1 := by omega
        simp [ha, h1, h2, hk, Memory.numberFrom]

/-- A patch of a canonical space changes the byte at its address and no other (R53). -/
theorem Memory.bytes_modify (m : Memory) (h : m.wf) (a : Nat) (f : Byte → Byte) :
    (m.modify a f).bytes = m.bytes.modify a f := by
  conv_lhs => rw [Memory.eq_ofBytes m h]
  rw [Memory.ofBytes, Memory.modify_numberFrom]
  simp [Memory.bytes, Memory.map_snd_numberFrom]

/-- Read after append: the new byte at its own address, every other address as before (R52, R61). -/
theorem Memory.read_append (m : Memory) (h : m.wf) (v : Byte) (a : Nat) :
    (m.append v).read a = if a = m.size then some v else m.read a := by
  rw [Memory.read_eq _ (Memory.wf_append m v h), Memory.read_eq m h, Memory.bytes_append,
    List.getElem?_append]
  simp only [Memory.bytes_length]
  split <;> split <;> try omega
  · rfl
  · next h1 h2 => subst h2; simp
  · next h1 h2 =>
    have : m.bytes[a]? = none := by simp; omega
    rw [this]; simp; omega

theorem Memory.reset_spaces_wf :
    State.reset.src.wf ∧ State.reset.out.wf ∧ State.reset.parse.em.c.wf := by decide

end Sys2Proof.Machine
end

