-- ==== Sys2Proof/Laws/State.lean ====
section
/-! SUPPORT. One lemma per field per named update of State, each true by rfl, so that no later proof
unfolds a record update. -/

namespace Sys2Proof.Machine

/-! ## advance -/

@[simp] theorem State.advance_profile (n : Nat) (s : State) : (s.advance n).profile = s.profile := rfl
@[simp] theorem State.advance_search (n : Nat) (s : State) : (s.advance n).search = s.search := rfl
@[simp] theorem State.advance_status (n : Nat) (s : State) : (s.advance n).status = s.status := rfl
@[simp] theorem State.advance_err (n : Nat) (s : State) : (s.advance n).err = s.err := rfl
@[simp] theorem State.advance_inLen (n : Nat) (s : State) : (s.advance n).inLen = s.inLen := rfl
@[simp] theorem State.advance_outHint (n : Nat) (s : State) : (s.advance n).outHint = s.outHint := rfl
@[simp] theorem State.advance_level (n : Nat) (s : State) : (s.advance n).level = s.level := rfl
@[simp] theorem State.advance_outLen (n : Nat) (s : State) : (s.advance n).outLen = s.outLen := rfl
@[simp] theorem State.advance_inPos (n : Nat) (s : State) : (s.advance n).inPos = s.inPos := rfl
@[simp] theorem State.advance_src (n : Nat) (s : State) : (s.advance n).src = s.src := rfl
@[simp] theorem State.advance_srcOpen (n : Nat) (s : State) : (s.advance n).srcOpen = s.srcOpen := rfl
@[simp] theorem State.advance_resPos (n : Nat) (s : State) : (s.advance n).resPos = s.resPos := rfl
@[simp] theorem State.advance_run (n : Nat) (s : State) : (s.advance n).run = s.run := rfl
@[simp] theorem State.advance_runInLen (n : Nat) (s : State) : (s.advance n).runInLen = s.runInLen := rfl
@[simp] theorem State.advance_runHint (n : Nat) (s : State) : (s.advance n).runHint = s.runHint := rfl
@[simp] theorem State.advance_runLevel (n : Nat) (s : State) : (s.advance n).runLevel = s.runLevel := rfl
@[simp] theorem State.advance_ip (n : Nat) (s : State) : (s.advance n).ip = s.ip + n := rfl
@[simp] theorem State.advance_out (n : Nat) (s : State) : (s.advance n).out = s.out := rfl
@[simp] theorem State.advance_phase (n : Nat) (s : State) : (s.advance n).phase = s.phase := rfl
@[simp] theorem State.advance_seenMatch (n : Nat) (s : State) : (s.advance n).seenMatch = s.seenMatch := rfl
@[simp] theorem State.advance_pulled (n : Nat) (s : State) : (s.advance n).pulled = s.pulled := rfl
@[simp] theorem State.advance_parse (n : Nat) (s : State) : (s.advance n).parse = s.parse := rfl
@[simp] theorem State.advance_firstParse (n : Nat) (s : State) : (s.advance n).firstParse = s.firstParse := rfl
@[simp] theorem State.advance_draws (n : Nat) (s : State) : (s.advance n).draws = s.draws := rfl
@[simp] theorem State.advance_pending (n : Nat) (s : State) : (s.advance n).pending = s.pending := rfl
@[simp] theorem State.advance_rdata (n : Nat) (s : State) : (s.advance n).rdata = s.rdata := rfl

/-! ## appendOut -/

@[simp] theorem State.appendOut_profile (v : Byte) (s : State) : (s.appendOut v).profile = s.profile := rfl
@[simp] theorem State.appendOut_search (v : Byte) (s : State) : (s.appendOut v).search = s.search := rfl
@[simp] theorem State.appendOut_status (v : Byte) (s : State) : (s.appendOut v).status = s.status := rfl
@[simp] theorem State.appendOut_err (v : Byte) (s : State) : (s.appendOut v).err = s.err := rfl
@[simp] theorem State.appendOut_inLen (v : Byte) (s : State) : (s.appendOut v).inLen = s.inLen := rfl
@[simp] theorem State.appendOut_outHint (v : Byte) (s : State) : (s.appendOut v).outHint = s.outHint := rfl
@[simp] theorem State.appendOut_level (v : Byte) (s : State) : (s.appendOut v).level = s.level := rfl
@[simp] theorem State.appendOut_outLen (v : Byte) (s : State) : (s.appendOut v).outLen = s.outLen := rfl
@[simp] theorem State.appendOut_inPos (v : Byte) (s : State) : (s.appendOut v).inPos = s.inPos := rfl
@[simp] theorem State.appendOut_src (v : Byte) (s : State) : (s.appendOut v).src = s.src := rfl
@[simp] theorem State.appendOut_srcOpen (v : Byte) (s : State) : (s.appendOut v).srcOpen = s.srcOpen := rfl
@[simp] theorem State.appendOut_resPos (v : Byte) (s : State) : (s.appendOut v).resPos = s.resPos := rfl
@[simp] theorem State.appendOut_run (v : Byte) (s : State) : (s.appendOut v).run = s.run := rfl
@[simp] theorem State.appendOut_runInLen (v : Byte) (s : State) : (s.appendOut v).runInLen = s.runInLen := rfl
@[simp] theorem State.appendOut_runHint (v : Byte) (s : State) : (s.appendOut v).runHint = s.runHint := rfl
@[simp] theorem State.appendOut_runLevel (v : Byte) (s : State) : (s.appendOut v).runLevel = s.runLevel := rfl
@[simp] theorem State.appendOut_ip (v : Byte) (s : State) : (s.appendOut v).ip = s.ip := rfl
@[simp] theorem State.appendOut_out (v : Byte) (s : State) : (s.appendOut v).out = s.out.append v := rfl
@[simp] theorem State.appendOut_phase (v : Byte) (s : State) : (s.appendOut v).phase = s.phase := rfl
@[simp] theorem State.appendOut_seenMatch (v : Byte) (s : State) : (s.appendOut v).seenMatch = s.seenMatch := rfl
@[simp] theorem State.appendOut_pulled (v : Byte) (s : State) : (s.appendOut v).pulled = s.pulled := rfl
@[simp] theorem State.appendOut_parse (v : Byte) (s : State) : (s.appendOut v).parse = s.parse := rfl
@[simp] theorem State.appendOut_firstParse (v : Byte) (s : State) : (s.appendOut v).firstParse = s.firstParse := rfl
@[simp] theorem State.appendOut_draws (v : Byte) (s : State) : (s.appendOut v).draws = s.draws := rfl
@[simp] theorem State.appendOut_pending (v : Byte) (s : State) : (s.appendOut v).pending = s.pending := rfl
@[simp] theorem State.appendOut_rdata (v : Byte) (s : State) : (s.appendOut v).rdata = s.rdata := rfl

/-! ## setPhase -/

@[simp] theorem State.setPhase_profile (ph : Phase) (s : State) : (s.setPhase ph).profile = s.profile := rfl
@[simp] theorem State.setPhase_search (ph : Phase) (s : State) : (s.setPhase ph).search = s.search := rfl
@[simp] theorem State.setPhase_status (ph : Phase) (s : State) : (s.setPhase ph).status = s.status := rfl
@[simp] theorem State.setPhase_err (ph : Phase) (s : State) : (s.setPhase ph).err = s.err := rfl
@[simp] theorem State.setPhase_inLen (ph : Phase) (s : State) : (s.setPhase ph).inLen = s.inLen := rfl
@[simp] theorem State.setPhase_outHint (ph : Phase) (s : State) : (s.setPhase ph).outHint = s.outHint := rfl
@[simp] theorem State.setPhase_level (ph : Phase) (s : State) : (s.setPhase ph).level = s.level := rfl
@[simp] theorem State.setPhase_outLen (ph : Phase) (s : State) : (s.setPhase ph).outLen = s.outLen := rfl
@[simp] theorem State.setPhase_inPos (ph : Phase) (s : State) : (s.setPhase ph).inPos = s.inPos := rfl
@[simp] theorem State.setPhase_src (ph : Phase) (s : State) : (s.setPhase ph).src = s.src := rfl
@[simp] theorem State.setPhase_srcOpen (ph : Phase) (s : State) : (s.setPhase ph).srcOpen = s.srcOpen := rfl
@[simp] theorem State.setPhase_resPos (ph : Phase) (s : State) : (s.setPhase ph).resPos = s.resPos := rfl
@[simp] theorem State.setPhase_run (ph : Phase) (s : State) : (s.setPhase ph).run = s.run := rfl
@[simp] theorem State.setPhase_runInLen (ph : Phase) (s : State) : (s.setPhase ph).runInLen = s.runInLen := rfl
@[simp] theorem State.setPhase_runHint (ph : Phase) (s : State) : (s.setPhase ph).runHint = s.runHint := rfl
@[simp] theorem State.setPhase_runLevel (ph : Phase) (s : State) : (s.setPhase ph).runLevel = s.runLevel := rfl
@[simp] theorem State.setPhase_ip (ph : Phase) (s : State) : (s.setPhase ph).ip = s.ip := rfl
@[simp] theorem State.setPhase_out (ph : Phase) (s : State) : (s.setPhase ph).out = s.out := rfl
@[simp] theorem State.setPhase_phase (ph : Phase) (s : State) : (s.setPhase ph).phase = ph := rfl
@[simp] theorem State.setPhase_seenMatch (ph : Phase) (s : State) : (s.setPhase ph).seenMatch = s.seenMatch := rfl
@[simp] theorem State.setPhase_pulled (ph : Phase) (s : State) : (s.setPhase ph).pulled = s.pulled := rfl
@[simp] theorem State.setPhase_parse (ph : Phase) (s : State) : (s.setPhase ph).parse = s.parse := rfl
@[simp] theorem State.setPhase_firstParse (ph : Phase) (s : State) : (s.setPhase ph).firstParse = s.firstParse := rfl
@[simp] theorem State.setPhase_draws (ph : Phase) (s : State) : (s.setPhase ph).draws = s.draws := rfl
@[simp] theorem State.setPhase_pending (ph : Phase) (s : State) : (s.setPhase ph).pending = s.pending := rfl
@[simp] theorem State.setPhase_rdata (ph : Phase) (s : State) : (s.setPhase ph).rdata = s.rdata := rfl

/-! ## afterMatch -/

@[simp] theorem State.afterMatch_profile (n : BitVec 2) (s : State) : (s.afterMatch n).profile = s.profile := rfl
@[simp] theorem State.afterMatch_search (n : BitVec 2) (s : State) : (s.afterMatch n).search = s.search := rfl
@[simp] theorem State.afterMatch_status (n : BitVec 2) (s : State) : (s.afterMatch n).status = s.status := rfl
@[simp] theorem State.afterMatch_err (n : BitVec 2) (s : State) : (s.afterMatch n).err = s.err := rfl
@[simp] theorem State.afterMatch_inLen (n : BitVec 2) (s : State) : (s.afterMatch n).inLen = s.inLen := rfl
@[simp] theorem State.afterMatch_outHint (n : BitVec 2) (s : State) : (s.afterMatch n).outHint = s.outHint := rfl
@[simp] theorem State.afterMatch_level (n : BitVec 2) (s : State) : (s.afterMatch n).level = s.level := rfl
@[simp] theorem State.afterMatch_outLen (n : BitVec 2) (s : State) : (s.afterMatch n).outLen = s.outLen := rfl
@[simp] theorem State.afterMatch_inPos (n : BitVec 2) (s : State) : (s.afterMatch n).inPos = s.inPos := rfl
@[simp] theorem State.afterMatch_src (n : BitVec 2) (s : State) : (s.afterMatch n).src = s.src := rfl
@[simp] theorem State.afterMatch_srcOpen (n : BitVec 2) (s : State) : (s.afterMatch n).srcOpen = s.srcOpen := rfl
@[simp] theorem State.afterMatch_resPos (n : BitVec 2) (s : State) : (s.afterMatch n).resPos = s.resPos := rfl
@[simp] theorem State.afterMatch_run (n : BitVec 2) (s : State) : (s.afterMatch n).run = s.run := rfl
@[simp] theorem State.afterMatch_runInLen (n : BitVec 2) (s : State) : (s.afterMatch n).runInLen = s.runInLen := rfl
@[simp] theorem State.afterMatch_runHint (n : BitVec 2) (s : State) : (s.afterMatch n).runHint = s.runHint := rfl
@[simp] theorem State.afterMatch_runLevel (n : BitVec 2) (s : State) : (s.afterMatch n).runLevel = s.runLevel := rfl
@[simp] theorem State.afterMatch_ip (n : BitVec 2) (s : State) : (s.afterMatch n).ip = s.ip := rfl
@[simp] theorem State.afterMatch_out (n : BitVec 2) (s : State) : (s.afterMatch n).out = s.out := rfl
@[simp] theorem State.afterMatch_phase (n : BitVec 2) (s : State) : (s.afterMatch n).phase = phaseAfter n := rfl
@[simp] theorem State.afterMatch_seenMatch (n : BitVec 2) (s : State) : (s.afterMatch n).seenMatch = true := rfl
@[simp] theorem State.afterMatch_pulled (n : BitVec 2) (s : State) : (s.afterMatch n).pulled = s.pulled := rfl
@[simp] theorem State.afterMatch_parse (n : BitVec 2) (s : State) : (s.afterMatch n).parse = s.parse := rfl
@[simp] theorem State.afterMatch_firstParse (n : BitVec 2) (s : State) : (s.afterMatch n).firstParse = s.firstParse := rfl
@[simp] theorem State.afterMatch_draws (n : BitVec 2) (s : State) : (s.afterMatch n).draws = s.draws := rfl
@[simp] theorem State.afterMatch_pending (n : BitVec 2) (s : State) : (s.afterMatch n).pending = s.pending := rfl
@[simp] theorem State.afterMatch_rdata (n : BitVec 2) (s : State) : (s.afterMatch n).rdata = s.rdata := rfl

/-! ## drawPulled -/

@[simp] theorem State.drawPulled_profile (s : State) : (s.drawPulled).profile = s.profile := rfl
@[simp] theorem State.drawPulled_search (s : State) : (s.drawPulled).search = s.search := rfl
@[simp] theorem State.drawPulled_status (s : State) : (s.drawPulled).status = s.status := rfl
@[simp] theorem State.drawPulled_err (s : State) : (s.drawPulled).err = s.err := rfl
@[simp] theorem State.drawPulled_inLen (s : State) : (s.drawPulled).inLen = s.inLen := rfl
@[simp] theorem State.drawPulled_outHint (s : State) : (s.drawPulled).outHint = s.outHint := rfl
@[simp] theorem State.drawPulled_level (s : State) : (s.drawPulled).level = s.level := rfl
@[simp] theorem State.drawPulled_outLen (s : State) : (s.drawPulled).outLen = s.outLen := rfl
@[simp] theorem State.drawPulled_inPos (s : State) : (s.drawPulled).inPos = s.inPos := rfl
@[simp] theorem State.drawPulled_src (s : State) : (s.drawPulled).src = s.src := rfl
@[simp] theorem State.drawPulled_srcOpen (s : State) : (s.drawPulled).srcOpen = s.srcOpen := rfl
@[simp] theorem State.drawPulled_resPos (s : State) : (s.drawPulled).resPos = s.resPos := rfl
@[simp] theorem State.drawPulled_run (s : State) : (s.drawPulled).run = s.run := rfl
@[simp] theorem State.drawPulled_runInLen (s : State) : (s.drawPulled).runInLen = s.runInLen := rfl
@[simp] theorem State.drawPulled_runHint (s : State) : (s.drawPulled).runHint = s.runHint := rfl
@[simp] theorem State.drawPulled_runLevel (s : State) : (s.drawPulled).runLevel = s.runLevel := rfl
@[simp] theorem State.drawPulled_ip (s : State) : (s.drawPulled).ip = s.ip := rfl
@[simp] theorem State.drawPulled_out (s : State) : (s.drawPulled).out = s.out := rfl
@[simp] theorem State.drawPulled_phase (s : State) : (s.drawPulled).phase = s.phase := rfl
@[simp] theorem State.drawPulled_seenMatch (s : State) : (s.drawPulled).seenMatch = s.seenMatch := rfl
@[simp] theorem State.drawPulled_parse (s : State) : (s.drawPulled).parse = s.parse := rfl
@[simp] theorem State.drawPulled_firstParse (s : State) : (s.drawPulled).firstParse = s.firstParse := rfl
@[simp] theorem State.drawPulled_draws (s : State) : (s.drawPulled).draws = s.draws + 1 := rfl
@[simp] theorem State.drawPulled_pending (s : State) : (s.drawPulled).pending = s.pending := rfl
@[simp] theorem State.drawPulled_rdata (s : State) : (s.drawPulled).rdata = s.rdata := rfl

/-! ## raise -/

@[simp] theorem State.raise_profile (f : FaultCode) (s : State) : (s.raise f).profile = s.profile := rfl
@[simp] theorem State.raise_search (f : FaultCode) (s : State) : (s.raise f).search = s.search := rfl
@[simp] theorem State.raise_status (f : FaultCode) (s : State) : (s.raise f).status = .fault := rfl
@[simp] theorem State.raise_err (f : FaultCode) (s : State) : (s.raise f).err = some f := rfl
@[simp] theorem State.raise_inLen (f : FaultCode) (s : State) : (s.raise f).inLen = s.inLen := rfl
@[simp] theorem State.raise_outHint (f : FaultCode) (s : State) : (s.raise f).outHint = s.outHint := rfl
@[simp] theorem State.raise_level (f : FaultCode) (s : State) : (s.raise f).level = s.level := rfl
@[simp] theorem State.raise_outLen (f : FaultCode) (s : State) : (s.raise f).outLen = 0 := rfl
@[simp] theorem State.raise_inPos (f : FaultCode) (s : State) : (s.raise f).inPos = 0 := rfl
@[simp] theorem State.raise_src (f : FaultCode) (s : State) : (s.raise f).src = s.src := rfl
@[simp] theorem State.raise_srcOpen (f : FaultCode) (s : State) : (s.raise f).srcOpen = s.srcOpen := rfl
@[simp] theorem State.raise_resPos (f : FaultCode) (s : State) : (s.raise f).resPos = s.resPos := rfl
@[simp] theorem State.raise_run (f : FaultCode) (s : State) : (s.raise f).run = s.run := rfl
@[simp] theorem State.raise_runInLen (f : FaultCode) (s : State) : (s.raise f).runInLen = s.runInLen := rfl
@[simp] theorem State.raise_runHint (f : FaultCode) (s : State) : (s.raise f).runHint = s.runHint := rfl
@[simp] theorem State.raise_runLevel (f : FaultCode) (s : State) : (s.raise f).runLevel = s.runLevel := rfl
@[simp] theorem State.raise_ip (f : FaultCode) (s : State) : (s.raise f).ip = s.ip := rfl
@[simp] theorem State.raise_out (f : FaultCode) (s : State) : (s.raise f).out = [] := rfl
@[simp] theorem State.raise_phase (f : FaultCode) (s : State) : (s.raise f).phase = .fault f := rfl
@[simp] theorem State.raise_seenMatch (f : FaultCode) (s : State) : (s.raise f).seenMatch = s.seenMatch := rfl
@[simp] theorem State.raise_pulled (f : FaultCode) (s : State) : (s.raise f).pulled = s.pulled := rfl
@[simp] theorem State.raise_parse (f : FaultCode) (s : State) : (s.raise f).parse = Parse.fresh := rfl
@[simp] theorem State.raise_firstParse (f : FaultCode) (s : State) : (s.raise f).firstParse = none := rfl
@[simp] theorem State.raise_draws (f : FaultCode) (s : State) : (s.raise f).draws = s.draws := rfl
@[simp] theorem State.raise_pending (f : FaultCode) (s : State) : (s.raise f).pending = s.pending := rfl
@[simp] theorem State.raise_rdata (f : FaultCode) (s : State) : (s.raise f).rdata = s.rdata := rfl

/-! ## finishDec -/

@[simp] theorem State.finishDec_profile (s : State) : (s.finishDec).profile = s.profile := rfl
@[simp] theorem State.finishDec_search (s : State) : (s.finishDec).search = s.search := rfl
@[simp] theorem State.finishDec_status (s : State) : (s.finishDec).status = .done := rfl
@[simp] theorem State.finishDec_err (s : State) : (s.finishDec).err = s.err := rfl
@[simp] theorem State.finishDec_inLen (s : State) : (s.finishDec).inLen = s.inLen := rfl
@[simp] theorem State.finishDec_outHint (s : State) : (s.finishDec).outHint = s.outHint := rfl
@[simp] theorem State.finishDec_level (s : State) : (s.finishDec).level = s.level := rfl
@[simp] theorem State.finishDec_outLen (s : State) : (s.finishDec).outLen = s.out.size := rfl
@[simp] theorem State.finishDec_inPos (s : State) : (s.finishDec).inPos = s.ip := rfl
@[simp] theorem State.finishDec_src (s : State) : (s.finishDec).src = s.src := rfl
@[simp] theorem State.finishDec_srcOpen (s : State) : (s.finishDec).srcOpen = s.srcOpen := rfl
@[simp] theorem State.finishDec_resPos (s : State) : (s.finishDec).resPos = s.resPos := rfl
@[simp] theorem State.finishDec_run (s : State) : (s.finishDec).run = s.run := rfl
@[simp] theorem State.finishDec_runInLen (s : State) : (s.finishDec).runInLen = s.runInLen := rfl
@[simp] theorem State.finishDec_runHint (s : State) : (s.finishDec).runHint = s.runHint := rfl
@[simp] theorem State.finishDec_runLevel (s : State) : (s.finishDec).runLevel = s.runLevel := rfl
@[simp] theorem State.finishDec_ip (s : State) : (s.finishDec).ip = s.ip := rfl
@[simp] theorem State.finishDec_out (s : State) : (s.finishDec).out = s.out := rfl
@[simp] theorem State.finishDec_phase (s : State) : (s.finishDec).phase = .done := rfl
@[simp] theorem State.finishDec_seenMatch (s : State) : (s.finishDec).seenMatch = s.seenMatch := rfl
@[simp] theorem State.finishDec_parse (s : State) : (s.finishDec).parse = s.parse := rfl
@[simp] theorem State.finishDec_firstParse (s : State) : (s.finishDec).firstParse = s.firstParse := rfl
@[simp] theorem State.finishDec_draws (s : State) : (s.finishDec).draws = s.draws + 1 := rfl
@[simp] theorem State.finishDec_pending (s : State) : (s.finishDec).pending = s.pending := rfl
@[simp] theorem State.finishDec_rdata (s : State) : (s.finishDec).rdata = s.rdata := rfl

/-! ## finishEnc -/

@[simp] theorem State.finishEnc_profile (em : Emitter) (s : State) : (s.finishEnc em).profile = s.profile := rfl
@[simp] theorem State.finishEnc_search (em : Emitter) (s : State) : (s.finishEnc em).search = s.search := rfl
@[simp] theorem State.finishEnc_status (em : Emitter) (s : State) : (s.finishEnc em).status = .done := rfl
@[simp] theorem State.finishEnc_err (em : Emitter) (s : State) : (s.finishEnc em).err = s.err := rfl
@[simp] theorem State.finishEnc_inLen (em : Emitter) (s : State) : (s.finishEnc em).inLen = s.inLen := rfl
@[simp] theorem State.finishEnc_outHint (em : Emitter) (s : State) : (s.finishEnc em).outHint = s.outHint := rfl
@[simp] theorem State.finishEnc_level (em : Emitter) (s : State) : (s.finishEnc em).level = s.level := rfl
@[simp] theorem State.finishEnc_outLen (em : Emitter) (s : State) : (s.finishEnc em).outLen = em.c.size := rfl
@[simp] theorem State.finishEnc_inPos (em : Emitter) (s : State) : (s.finishEnc em).inPos = 0 := rfl
@[simp] theorem State.finishEnc_src (em : Emitter) (s : State) : (s.finishEnc em).src = s.src := rfl
@[simp] theorem State.finishEnc_srcOpen (em : Emitter) (s : State) : (s.finishEnc em).srcOpen = s.srcOpen := rfl
@[simp] theorem State.finishEnc_resPos (em : Emitter) (s : State) : (s.finishEnc em).resPos = s.resPos := rfl
@[simp] theorem State.finishEnc_run (em : Emitter) (s : State) : (s.finishEnc em).run = s.run := rfl
@[simp] theorem State.finishEnc_runInLen (em : Emitter) (s : State) : (s.finishEnc em).runInLen = s.runInLen := rfl
@[simp] theorem State.finishEnc_runHint (em : Emitter) (s : State) : (s.finishEnc em).runHint = s.runHint := rfl
@[simp] theorem State.finishEnc_runLevel (em : Emitter) (s : State) : (s.finishEnc em).runLevel = s.runLevel := rfl
@[simp] theorem State.finishEnc_ip (em : Emitter) (s : State) : (s.finishEnc em).ip = s.ip := rfl
@[simp] theorem State.finishEnc_out (em : Emitter) (s : State) : (s.finishEnc em).out = s.out := rfl
@[simp] theorem State.finishEnc_phase (em : Emitter) (s : State) : (s.finishEnc em).phase = s.phase := rfl
@[simp] theorem State.finishEnc_seenMatch (em : Emitter) (s : State) : (s.finishEnc em).seenMatch = s.seenMatch := rfl
@[simp] theorem State.finishEnc_pulled (em : Emitter) (s : State) : (s.finishEnc em).pulled = s.pulled := rfl
@[simp] theorem State.finishEnc_parse (em : Emitter) (s : State) : (s.finishEnc em).parse = { s.parse with em := em } := rfl
@[simp] theorem State.finishEnc_firstParse (em : Emitter) (s : State) : (s.finishEnc em).firstParse = s.firstParse := rfl
@[simp] theorem State.finishEnc_draws (em : Emitter) (s : State) : (s.finishEnc em).draws = s.draws := rfl
@[simp] theorem State.finishEnc_pending (em : Emitter) (s : State) : (s.finishEnc em).pending = s.pending := rfl
@[simp] theorem State.finishEnc_rdata (em : Emitter) (s : State) : (s.finishEnc em).rdata = s.rdata := rfl

/-! ## launch -/

@[simp] theorem State.launch_profile (u : RunUnit) (s : State) : (s.launch u).profile = s.profile := rfl
@[simp] theorem State.launch_search (u : RunUnit) (s : State) : (s.launch u).search = s.search := rfl
@[simp] theorem State.launch_status (u : RunUnit) (s : State) : (s.launch u).status = .busy := rfl
@[simp] theorem State.launch_err (u : RunUnit) (s : State) : (s.launch u).err = none := rfl
@[simp] theorem State.launch_inLen (u : RunUnit) (s : State) : (s.launch u).inLen = s.inLen := rfl
@[simp] theorem State.launch_outHint (u : RunUnit) (s : State) : (s.launch u).outHint = s.outHint := rfl
@[simp] theorem State.launch_level (u : RunUnit) (s : State) : (s.launch u).level = s.level := rfl
@[simp] theorem State.launch_outLen (u : RunUnit) (s : State) : (s.launch u).outLen = 0 := rfl
@[simp] theorem State.launch_inPos (u : RunUnit) (s : State) : (s.launch u).inPos = 0 := rfl
@[simp] theorem State.launch_src (u : RunUnit) (s : State) : (s.launch u).src = s.src := rfl
@[simp] theorem State.launch_srcOpen (u : RunUnit) (s : State) : (s.launch u).srcOpen = s.srcOpen := rfl
@[simp] theorem State.launch_resPos (u : RunUnit) (s : State) : (s.launch u).resPos = 0 := rfl
@[simp] theorem State.launch_run (u : RunUnit) (s : State) : (s.launch u).run = some u := rfl
@[simp] theorem State.launch_runInLen (u : RunUnit) (s : State) : (s.launch u).runInLen = s.inLen := rfl
@[simp] theorem State.launch_runHint (u : RunUnit) (s : State) : (s.launch u).runHint = s.outHint := rfl
@[simp] theorem State.launch_runLevel (u : RunUnit) (s : State) : (s.launch u).runLevel = s.level := rfl
@[simp] theorem State.launch_ip (u : RunUnit) (s : State) : (s.launch u).ip = 0 := rfl
@[simp] theorem State.launch_out (u : RunUnit) (s : State) : (s.launch u).out = [] := rfl
@[simp] theorem State.launch_phase (u : RunUnit) (s : State) : (s.launch u).phase = .start := rfl
@[simp] theorem State.launch_seenMatch (u : RunUnit) (s : State) : (s.launch u).seenMatch = false := rfl
@[simp] theorem State.launch_pulled (u : RunUnit) (s : State) : (s.launch u).pulled = 0 := rfl
@[simp] theorem State.launch_parse (u : RunUnit) (s : State) : (s.launch u).parse = Parse.fresh := rfl
@[simp] theorem State.launch_firstParse (u : RunUnit) (s : State) : (s.launch u).firstParse = none := rfl
@[simp] theorem State.launch_draws (u : RunUnit) (s : State) : (s.launch u).draws = s.draws := rfl
@[simp] theorem State.launch_pending (u : RunUnit) (s : State) : (s.launch u).pending = s.pending := rfl
@[simp] theorem State.launch_rdata (u : RunUnit) (s : State) : (s.launch u).rdata = s.rdata := rfl

/-! ## iterate -/

@[simp] theorem State.iterate_profile (m : Option Pick) (s : State) : (s.iterate m).profile = s.profile := rfl
@[simp] theorem State.iterate_search (m : Option Pick) (s : State) : (s.iterate m).search = s.search := rfl
@[simp] theorem State.iterate_status (m : Option Pick) (s : State) : (s.iterate m).status = s.status := rfl
@[simp] theorem State.iterate_err (m : Option Pick) (s : State) : (s.iterate m).err = s.err := rfl
@[simp] theorem State.iterate_inLen (m : Option Pick) (s : State) : (s.iterate m).inLen = s.inLen := rfl
@[simp] theorem State.iterate_outHint (m : Option Pick) (s : State) : (s.iterate m).outHint = s.outHint := rfl
@[simp] theorem State.iterate_level (m : Option Pick) (s : State) : (s.iterate m).level = s.level := rfl
@[simp] theorem State.iterate_outLen (m : Option Pick) (s : State) : (s.iterate m).outLen = s.outLen := rfl
@[simp] theorem State.iterate_inPos (m : Option Pick) (s : State) : (s.iterate m).inPos = s.inPos := rfl
@[simp] theorem State.iterate_src (m : Option Pick) (s : State) : (s.iterate m).src = s.src := rfl
@[simp] theorem State.iterate_srcOpen (m : Option Pick) (s : State) : (s.iterate m).srcOpen = s.srcOpen := rfl
@[simp] theorem State.iterate_resPos (m : Option Pick) (s : State) : (s.iterate m).resPos = s.resPos := rfl
@[simp] theorem State.iterate_run (m : Option Pick) (s : State) : (s.iterate m).run = s.run := rfl
@[simp] theorem State.iterate_runInLen (m : Option Pick) (s : State) : (s.iterate m).runInLen = s.runInLen := rfl
@[simp] theorem State.iterate_runHint (m : Option Pick) (s : State) : (s.iterate m).runHint = s.runHint := rfl
@[simp] theorem State.iterate_runLevel (m : Option Pick) (s : State) : (s.iterate m).runLevel = s.runLevel := rfl
@[simp] theorem State.iterate_ip (m : Option Pick) (s : State) : (s.iterate m).ip = s.ip := rfl
@[simp] theorem State.iterate_out (m : Option Pick) (s : State) : (s.iterate m).out = s.out := rfl
@[simp] theorem State.iterate_phase (m : Option Pick) (s : State) : (s.iterate m).phase = s.phase := rfl
@[simp] theorem State.iterate_seenMatch (m : Option Pick) (s : State) : (s.iterate m).seenMatch = s.seenMatch := rfl
@[simp] theorem State.iterate_pulled (m : Option Pick) (s : State) : (s.iterate m).pulled = s.pulled := rfl
@[simp] theorem State.iterate_parse (m : Option Pick) (s : State) : (s.iterate m).parse = parseIter s.profile s.data m s.parse := rfl
@[simp] theorem State.iterate_firstParse (m : Option Pick) (s : State) : (s.iterate m).firstParse = s.firstParse := rfl
@[simp] theorem State.iterate_pending (m : Option Pick) (s : State) : (s.iterate m).pending = s.pending := rfl
@[simp] theorem State.iterate_rdata (m : Option Pick) (s : State) : (s.iterate m).rdata = s.rdata := rfl

/-! ## produce -/

@[simp] theorem State.produce_profile (n : Nat) (bs : List Byte) (s : State) : (s.produce n bs).profile = s.profile := rfl
@[simp] theorem State.produce_search (n : Nat) (bs : List Byte) (s : State) : (s.produce n bs).search = s.search := rfl
@[simp] theorem State.produce_status (n : Nat) (bs : List Byte) (s : State) : (s.produce n bs).status = s.status := rfl
@[simp] theorem State.produce_err (n : Nat) (bs : List Byte) (s : State) : (s.produce n bs).err = s.err := rfl
@[simp] theorem State.produce_inLen (n : Nat) (bs : List Byte) (s : State) : (s.produce n bs).inLen = s.inLen := rfl
@[simp] theorem State.produce_outHint (n : Nat) (bs : List Byte) (s : State) : (s.produce n bs).outHint = s.outHint := rfl
@[simp] theorem State.produce_level (n : Nat) (bs : List Byte) (s : State) : (s.produce n bs).level = s.level := rfl
@[simp] theorem State.produce_outLen (n : Nat) (bs : List Byte) (s : State) : (s.produce n bs).outLen = s.outLen := rfl
@[simp] theorem State.produce_inPos (n : Nat) (bs : List Byte) (s : State) : (s.produce n bs).inPos = s.inPos := rfl
@[simp] theorem State.produce_src (n : Nat) (bs : List Byte) (s : State) : (s.produce n bs).src = s.src := rfl
@[simp] theorem State.produce_srcOpen (n : Nat) (bs : List Byte) (s : State) : (s.produce n bs).srcOpen = s.srcOpen := rfl
@[simp] theorem State.produce_resPos (n : Nat) (bs : List Byte) (s : State) : (s.produce n bs).resPos = s.resPos := rfl
@[simp] theorem State.produce_run (n : Nat) (bs : List Byte) (s : State) : (s.produce n bs).run = s.run := rfl
@[simp] theorem State.produce_runInLen (n : Nat) (bs : List Byte) (s : State) : (s.produce n bs).runInLen = s.runInLen := rfl
@[simp] theorem State.produce_runHint (n : Nat) (bs : List Byte) (s : State) : (s.produce n bs).runHint = s.runHint := rfl
@[simp] theorem State.produce_runLevel (n : Nat) (bs : List Byte) (s : State) : (s.produce n bs).runLevel = s.runLevel := rfl
@[simp] theorem State.produce_ip (n : Nat) (bs : List Byte) (s : State) : (s.produce n bs).ip = s.ip + n := rfl
@[simp] theorem State.produce_out (n : Nat) (bs : List Byte) (s : State) : (s.produce n bs).out = s.out.appendAll bs := rfl
@[simp] theorem State.produce_phase (n : Nat) (bs : List Byte) (s : State) : (s.produce n bs).phase = s.phase := rfl
@[simp] theorem State.produce_seenMatch (n : Nat) (bs : List Byte) (s : State) : (s.produce n bs).seenMatch = s.seenMatch := rfl
@[simp] theorem State.produce_pulled (n : Nat) (bs : List Byte) (s : State) : (s.produce n bs).pulled = s.pulled := rfl
@[simp] theorem State.produce_parse (n : Nat) (bs : List Byte) (s : State) : (s.produce n bs).parse = s.parse := rfl
@[simp] theorem State.produce_firstParse (n : Nat) (bs : List Byte) (s : State) : (s.produce n bs).firstParse = s.firstParse := rfl
@[simp] theorem State.produce_draws (n : Nat) (bs : List Byte) (s : State) : (s.produce n bs).draws = s.draws := rfl
@[simp] theorem State.produce_pending (n : Nat) (bs : List Byte) (s : State) : (s.produce n bs).pending = s.pending := rfl
@[simp] theorem State.produce_rdata (n : Nat) (bs : List Byte) (s : State) : (s.produce n bs).rdata = s.rdata := rfl

end Sys2Proof.Machine
end

