-- ==== Sys2Proof/Laws/Ops.lean ====
section
/-! SUPPORT. One lemma for each shared operation that says everything it can do: the reads, the two
copies, the two token shapes, the launch. -/

namespace Sys2Proof.Machine

/-! ## The decoder's input -/

theorem State.limit_le_size (s : State) : s.limit ≤ s.src.size := Nat.min_le_right _ _

@[simp] theorem State.limit_advance (n : Nat) (s : State) : (s.advance n).limit = s.limit := rfl

@[simp] theorem State.limit_appendOut (v : Byte) (s : State) : (s.appendOut v).limit = s.limit := rfl

theorem State.length_inputLeft (s : State) : s.inputLeft.length = s.limit - s.ip := by
  have := s.limit_le_size
  simp only [State.inputLeft, List.length_drop, List.length_take, Memory.bytes_length]
  omega

theorem State.inputLeft_advance (n : Nat) (s : State) :
    (s.advance n).inputLeft = s.inputLeft.drop n := by
  simp [State.inputLeft, List.drop_drop, State.limit]

@[simp] theorem State.inputLeft_appendOut (v : Byte) (s : State) :
    (s.appendOut v).inputLeft = s.inputLeft := rfl

/-- InRead (R54) is the head of what is left of the input. -/
theorem State.inRead_eq (s : State) (h : s.src.wf) :
    s.inRead = s.inputLeft.head?.map fun v => (v, s.advance 1) := by
  have hl := s.limit_le_size
  unfold State.inRead
  rw [Memory.read_eq _ h, State.inputLeft, List.head?_drop]
  split
  · next hi => rw [List.getElem?_take_of_lt hi]
  · next hi =>
    have : (List.take s.limit s.src.bytes)[s.ip]? = none := by
      simp only [List.getElem?_eq_none_iff, List.length_take, Memory.bytes_length]
      omega
    rw [this]; rfl

theorem State.produce_advance_appendOut (v : Byte) (n : Nat) (bs : List Byte) (s : State) :
    ((s.advance 1).appendOut v).produce n bs = s.produce (n + 1) (v :: bs) := by
  simp only [State.produce, State.advance, State.appendOut, Memory.append_eq_appendAll,
    Memory.appendAll_append, List.singleton_append]
  congr 1
  omega

theorem State.produce_zero (s : State) : s.produce 0 [] = s := by
  simp [State.produce]

theorem State.produce_advance (n m : Nat) (bs : List Byte) (s : State) :
    (s.advance n).produce m bs = s.produce (n + m) bs := by
  simp only [State.produce, State.advance, Nat.add_assoc]

/-- CopyLit (R126): it copies the next `n` bytes of the input when there are so many, and else stops
with all of them read. -/
theorem copyLit_eq (n : Nat) (s : State) (h : s.src.wf) :
    copyLit n s =
      if n ≤ s.inputLeft.length then .ok (s.produce n (s.inputLeft.take n))
      else .error (s.produce s.inputLeft.length s.inputLeft) := by
  induction n generalizing s with
  | zero => simp [copyLit, State.produce_zero]
  | succ n ih =>
    unfold copyLit
    rw [s.inRead_eq h]
    cases hb : s.inputLeft with
    | nil => simp [State.produce_zero]
    | cons b r =>
      have hr : ((s.advance 1).appendOut b).inputLeft = r := by
        rw [State.inputLeft_appendOut, State.inputLeft_advance, hb]; rfl
      have ih' := ih ((s.advance 1).appendOut b) h
      rw [hr] at ih'
      simp only [List.head?_cons, Option.map_some, ih', List.length_cons,
        Nat.add_le_add_iff_right, List.take_succ_cons, State.produce_advance_appendOut]

/-- A literal run (R123, R125, R131): it completes exactly when its bytes are there, and else the fault
is InputUnderrun (R261). -/
theorem literalRun_eq (hdr n : Nat) (next : Phase) (s : State) (h : s.src.wf) :
    literalRun hdr n next s =
      if n ≤ (s.inputLeft.drop hdr).length then
        .next ((s.produce (hdr + n) ((s.inputLeft.drop hdr).take n)).setPhase next)
      else
        .next ((s.produce (hdr + (s.inputLeft.drop hdr).length)
          (s.inputLeft.drop hdr)).raiseDec .inputUnderrun) := by
  unfold literalRun
  rw [copyLit_eq n (s.advance hdr) h, State.inputLeft_advance]
  by_cases hn : n ≤ (s.inputLeft.drop hdr).length
  · simp only [if_pos hn, State.produce_advance]
  · simp only [if_neg hn, State.produce_advance]

/-! ## Fault entry -/

/-- Fault entry after `n` bytes were used (60_exceptions R268): only the free pulled count depends on
more than the state and the code. -/
theorem State.faultFrom_produce (n : Nat) (bs : List Byte) (f : FaultCode) (s : State) :
    s.FaultFrom f (s.ip + n) ((s.produce n bs).raiseDec f) := ⟨_, _, rfl⟩

theorem State.faultFrom_advance (n : Nat) (f : FaultCode) (s : State) :
    s.FaultFrom f (s.ip + n) ((s.advance n).raiseDec f) := ⟨_, _, rfl⟩

/-! ## The match copy -/

theorem length_periodic (bs : List Byte) (m len : Nat) : (periodic bs m len).length = len := by
  simp [periodic]

theorem periodic_succ (bs : List Byte) (m len : Nat) :
    periodic bs m (len + 1) =
      periodic bs m len ++ [bs.getD (m + len % (bs.length - m)) 0] := by
  simp [periodic, List.range_succ]

theorem copyMatch_from (o : Memory) (h : o.wf) (m : Nat) (hm : m < o.size) (j len : Nat) :
    copyMatch (m + j) len (o.appendAll (periodic o.bytes m j)) =
      some (o.appendAll (periodic o.bytes m (j + len))) := by
  induction len generalizing j with
  | zero => rfl
  | succ len ih =>
    have hd : 0 < o.bytes.length - m := by simp; omega
    have hread : (o.appendAll (periodic o.bytes m j)).read (m + j) =
        some (o.bytes.getD (m + j % (o.bytes.length - m)) 0) := by
      rw [Memory.read_eq _ (Memory.wf_appendAll _ _ h), Memory.bytes_appendAll,
        List.getElem?_append]
      have hmod := Nat.mod_lt j hd
      split
      · next hlt =>
        rw [Nat.mod_eq_of_lt (by omega), List.getD_eq_getElem?_getD, List.getElem?_eq_getElem hlt]
        rfl
      · next hge =>
        have hj : m + j - o.bytes.length = j - (o.bytes.length - m) := by omega
        have hlt : j - (o.bytes.length - m) < j := by omega
        rw [hj, periodic, List.getElem?_map, List.getElem?_range hlt]
        simp only [Option.map_some]
        rw [← Nat.mod_eq_sub_mod (by omega)]
    unfold copyMatch
    rw [hread]
    simp only
    rw [Memory.append_eq_appendAll, Memory.appendAll_append, ← periodic_succ, Nat.add_assoc, ih]
    congr 3; omega

/-- CopyMatch (R170) from inside OUT never misses a byte, and what it appends is periodic with the
distance as its period (R66, R171). -/
theorem copyMatch_eq (o : Memory) (h : o.wf) (m len : Nat) (hm : m < o.size) :
    copyMatch m len o = some (o.appendAll (periodic o.bytes m len)) := by
  simpa [periodic] using copyMatch_from o h m hm 0 len

/-- A match token (R151), for a position below |OUT|: the lookbehind fault, or the copy and
AfterMatch. -/
theorem matchToken_eq (hdr : Nat) (mPos : Int) (len : Nat) (carry : BitVec 2) (s : State)
    (h : s.out.wf) (hm : mPos < s.out.size) :
    matchToken hdr mPos len carry s =
      if mPos < 0 then .next ((s.advance hdr).raiseDec .lookbehindUnderrun)
      else
        .next ((s.produce hdr (periodic s.out.bytes mPos.toNat len)).afterMatch carry) := by
  unfold matchToken
  simp only
  split
  · rfl
  · next hn =>
    rw [copyMatch_eq _ (by exact h) _ _ (by simp only [State.advance_out]; omega)]
    rfl

/-- Whatever the spaces hold, a match token answers a next state or the one stop of the model. -/
theorem matchToken_cases (hdr : Nat) (mPos : Int) (len : Nat) (carry : BitVec 2) (s : State) :
    (∃ t, matchToken hdr mPos len carry s = .next t) ∨
      ∃ a, matchToken hdr mPos len carry s = .fault (.absentByte a) := by
  unfold matchToken
  simp only
  split
  · exact .inl ⟨_, rfl⟩
  · split
    · exact .inr ⟨_, rfl⟩
    · exact .inl ⟨_, rfl⟩

/-- Whatever the spaces hold, a literal run answers a next state. -/
theorem literalRun_cases (hdr n : Nat) (next : Phase) (s : State) :
    ∃ t, literalRun hdr n next s = .next t := by
  unfold literalRun
  split
  · exact ⟨_, rfl⟩
  · exact ⟨_, rfl⟩

/-! ## Distances -/

theorem toNat_append {a b : Nat} (x : BitVec a) (y : BitVec b) :
    (x ++ y).toNat = x.toNat * 2 ^ b + y.toNat := by
  rw [BitVec.toNat_append, ← Nat.shiftLeft_add_eq_or_of_lt y.isLt, Nat.shiftLeft_eq]

/-- The 2-byte field shifted right by 2 is D + 64 H (30_encoding R87, R88). -/
theorem distField_eq (d : BitVec 6) (c : BitVec 2) (h : Byte) :
    distField d c h = d.toNat + 64 * h.toNat := by
  have hc := c.isLt
  simp only [distField, le16, Nat.shiftRight_eq_div_pow]
  rw [toNat_append]
  omega

/-- Every match of every class points below |OUT| (41_decoder_matches R166). -/
theorem pos_lt (n0 : Nat) :
    (∀ d h, posM1 n0 d h < n0) ∧ (∀ d h, posM1b n0 d h < n0) ∧ (∀ d h, posM2 n0 d h < n0) ∧
      (∀ d c h, posM3 n0 d c h < n0) ∧ ∀ hb d c h, posM4 n0 hb d c h < n0 := by
  refine ⟨fun d h => ?_, fun d h => ?_, fun d h => ?_, fun d c h => ?_, fun hb d c h => ?_⟩
  · unfold posM1; omega
  · unfold posM1b m2MaxOffset; omega
  · unfold posM2; omega
  · unfold posM3; omega
  · unfold posM4 m4Bias; omega

/-! ## The start commands -/

/-- A start command (R38, R292): a launched run, or the InvalidLevel fault at launch (R231). -/
theorem State.start_cases (u : RunUnit) (s : State) :
    s.start u = s.launch u ∨
      (u = .encl ∧ levelValid s.level = false ∧ s.start u = (s.launch u).raise .invalidLevel) := by
  cases u with
  | dec => exact .inl rfl
  | encg => exact .inl rfl
  | encl =>
    unfold State.start
    cases h : levelValid s.level
    · exact .inr ⟨rfl, rfl, by simp⟩
    · exact .inl (by simp)

end Sys2Proof.Machine
end

