-- ==== Sys2Proof/Laws/Codec.lean ====
section
/-! SUPPORT. The laws of the token codec's parts: what reading an extension or a length field gives back,
how long an extension is, and how the fields of a byte are taken apart (30_encoding R82 to R90). -/

namespace Sys2Proof

/-- Whatever readExt answers, it has read continuing bytes and one terminator (R90). -/
theorem readExt_inv (p : Profile) (bs : List Byte) (k : Nat) (v : Byte) (r : List Byte)
    (h : readExt p bs = some (k, v, r)) :
    v ≠ p.extCont.byte ∧ bs = List.replicate k p.extCont.byte ++ v :: r := by
  induction bs generalizing k with
  | nil => simp [readExt] at h
  | cons b bs ih =>
    unfold readExt at h
    split at h
    · next hb =>
      cases hr : readExt p bs with
      | none => rw [hr] at h; simp at h
      | some x =>
        obtain ⟨k', v', r'⟩ := x
        rw [hr] at h
        simp only [Option.map_some, Option.some.injEq, Prod.mk.injEq] at h
        obtain ⟨rfl, rfl, rfl⟩ := h
        obtain ⟨h1, h2⟩ := ih k' hr
        exact ⟨h1, by rw [h2, hb]; rfl⟩
    · next hb =>
      simp only [Option.some.injEq, Prod.mk.injEq] at h
      obtain ⟨rfl, rfl, rfl⟩ := h
      exact ⟨hb, rfl⟩

/-- Whatever readLen answers is a well-formed length field, and its bytes are those that were read. -/
theorem readLen_inv {w : Nat} (p : Profile) (l : BitVec w) (bs : List Byte) (len : LenField w)
    (r : List Byte) (h : readLen p l bs = some (len, r)) :
    len.wf p = true ∧ len.bits = l ∧ len.extBytes p ++ r = bs := by
  unfold readLen at h
  split at h
  · next hl =>
    cases hr : readExt p bs with
    | none => rw [hr] at h; simp at h
    | some x =>
      obtain ⟨k', v', r'⟩ := x
      rw [hr] at h
      simp only [Option.map_some, Option.some.injEq, Prod.mk.injEq] at h
      obtain ⟨rfl, rfl⟩ := h
      obtain ⟨h1, h2⟩ := readExt_inv p bs _ _ _ hr
      refine ⟨by simpa [LenField.wf] using h1, hl.symm, ?_⟩
      rw [h2]; simp [LenField.extBytes]
  · next hl =>
    simp only [Option.some.injEq, Prod.mk.injEq] at h
    obtain ⟨rfl, rfl⟩ := h
    exact ⟨by simpa [LenField.wf] using hl, rfl, rfl⟩

theorem LenField.length_extBytes {w : Nat} (p : Profile) (len : LenField w) :
    (len.extBytes p).length = Machine.extCount len := by
  cases len <;> simp [LenField.extBytes, Machine.extCount]

/-- The two fields of a concatenation. -/
theorem extractLsb'_append {a b : Nat} (x : BitVec a) (y : BitVec b) :
    (x ++ y).extractLsb' 0 b = y ∧ (x ++ y).extractLsb' b a = x := by
  constructor
  · apply BitVec.eq_of_toNat_eq
    rw [BitVec.extractLsb'_toNat, Machine.toNat_append, Nat.shiftRight_zero,
      Nat.mul_add_mod_self_right, Nat.mod_eq_of_lt y.isLt]
  · apply BitVec.eq_of_toNat_eq
    simp only [BitVec.extractLsb'_toNat, Machine.toNat_append, Nat.shiftRight_eq_div_pow]
    rw [Nat.mul_comm, Nat.mul_add_div (by positivity), Nat.div_eq_of_lt y.isLt]
    simp [Nat.mod_eq_of_lt x.isLt]

/-- A byte put together again from its fields in each format (R83 to R89). -/
theorem byte_of_fields : ∀ b : BitVec 8,
    (b.extractLsb' 2 6 ++ b.extractLsb' 0 2 : BitVec 8) = b ∧
    (b.toNat < 16 → (0#4 ++ b.extractLsb' 2 2 ++ b.extractLsb' 0 2 : BitVec 8) = b ∧
      (0#4 ++ b.extractLsb' 0 4 : BitVec 8) = b) ∧
    (b.extractLsb' 5 3 ++ b.extractLsb' 2 3 ++ b.extractLsb' 0 2 : BitVec 8) = b ∧
    (64 ≤ b.toNat → 2 ≤ (b.extractLsb' 5 3).toNat) ∧
    (32 ≤ b.toNat → b.toNat < 64 → (1#3 ++ b.extractLsb' 0 5 : BitVec 8) = b) ∧
    (16 ≤ b.toNat → b.toNat < 32 →
      (1#4 ++ b.extractLsb' 3 1 ++ b.extractLsb' 0 3 : BitVec 8) = b ∧
      (b.extractLsb' 3 1 = 0#1 → (2#5 ++ b.extractLsb' 0 3 : BitVec 8) = b ∧ b.toNat ≤ 23)) := by
  decide

end Sys2Proof
end

