-- ==== Sys2Proof/Laws/Emit.lean ====
section
/-! SUPPORT. The laws of the emitter and of the searches: C stays canonical (42_token_emit R183 to R186),
every chosen match has a length the input still holds, and so every iteration moves forward. -/

namespace Sys2Proof.Machine

theorem carryPatch_wf (em : Emitter) (n : Nat) (h : em.c.wf) : (carryPatch em n).wf := by
  unfold carryPatch
  split
  · exact h
  · exact Memory.wf_modify _ _ _ h

theorem announceRun_wf (p : Profile) (n : Nat) (em : Emitter) (h : em.c.wf) :
    (announceRun p n em).wf := by
  unfold announceRun
  split
  · exact Memory.wf_append _ _ h
  · split
    · exact carryPatch_wf em n h
    · split
      · exact Memory.wf_append _ _ h
      · exact Memory.wf_appendAll _ _ h

theorem emitLiterals_wf (p : Profile) (run : List Byte) (em : Emitter) (h : em.c.wf) :
    (emitLiterals p run em).c.wf := by
  unfold emitLiterals
  split
  · exact h
  · exact Memory.wf_appendAll _ _ (announceRun_wf p _ em h)

theorem emitMatch_wf (p : Profile) (cls : MatchClass) (dist len : Nat) (em : Emitter) (h : em.c.wf) :
    (emitMatch p cls dist len em).c.wf := Memory.wf_appendAll _ _ h

theorem parseIter_wf (p : Profile) (D : List Byte) (pick : Option Pick) (q : Parse)
    (h : q.em.c.wf) : (parseIter p D pick q).em.c.wf := by
  cases pick with
  | none => exact h
  | some m => exact emitMatch_wf _ _ _ _ _ (emitLiterals_wf _ _ _ h)

theorem parseEnd_wf (p : Profile) (D : List Byte) (q : Parse) (h : q.em.c.wf) :
    (parseEnd p D q).c.wf := Memory.wf_appendAll _ _ (emitLiterals_wf _ _ _ h)

theorem commonPrefix_le (a b : List Byte) : commonPrefix a b ≤ a.length := by
  induction a generalizing b with
  | nil => simp [commonPrefix]
  | cons x r ih =>
    cases b with
    | nil => simp [commonPrefix]
    | cons y t =>
      unfold commonPrefix
      split
      · simpa using ih t
      · simp

/-- No match runs past the end of the input (43_greedy_encoder R215). -/
theorem matchLen_le (D : List Byte) (i dist : Nat) : matchLen D i dist ≤ D.length - i := by
  simpa [matchLen] using commonPrefix_le (D.drop i) (D.drop (i - dist))

/-- A class holds lengths of 2 and more only (42_token_emit R187). -/
theorem classify_len (p : Profile) (uses : MatchClass → Bool) (dist len : Nat) (ctx : EmitCtx)
    (c : MatchClass × Nat) (h : classify p uses dist len ctx = some c) : 2 ≤ len := by
  unfold classify at h
  split at h
  · omega
  · split at h
    · cases h
    · omega

end Sys2Proof.Machine
end

