-- ==== Sys2Proof/Laws/Emitted.lean ====
section
/-! SUPPORT. An admissible stream (43_greedy_encoder R214) is what a sequence of emit calls writes, each
under its precondition (42_token_emit R189). -/

namespace Sys2Proof.Machine

@[simp] theorem ctxAfterRun_zero (scope : BiasScope) (seen : Bool) :
    ctxAfterRun scope seen 0 = .loopEntry := rfl

@[simp] theorem emitMatch_ctx (p : Profile) (cls : MatchClass) (dist len : Nat) (em : Emitter) :
    (emitMatch p cls dist len em).ctx = .loopEntry := rfl

/-- EmitLiterals leaves the context CtxAfterRun of its run (42_token_emit R183). -/
@[simp] theorem emitLiterals_ctx (p : Profile) (run : List Byte) (em : Emitter) :
    (emitLiterals p run em).ctx = ctxAfterRun p.biasScope em.seenMatch run.length := by
  unfold emitLiterals
  split <;> simp_all

/-- Classify returns a class whose precondition holds (42_token_emit R185, R187). -/
theorem representable_of_classify (p : Profile) (uses : MatchClass → Bool) (dist len : Nat)
    (ctx : EmitCtx) (cls : MatchClass) (cost : Nat)
    (h : classify p uses dist len ctx = some (cls, cost)) : representable cls dist len ctx = true := by
  unfold classify m4MaxOffset at h
  repeat' split at h
  all_goals simp only [Option.some.injEq, Prod.mk.injEq, reduceCtorEq] at h
  all_goals obtain ⟨rfl, -⟩ := h
  all_goals simp only [representable, decide_eq_true_eq]
  all_goals grind

@[simp] theorem slice_length (D : List Byte) (a b : Nat) (h : b ≤ D.length) :
    (slice D a b).length = b - a := by simp [slice, h]

theorem take_append_slice (D : List Byte) (a b : Nat) (h : a ≤ b) :
    D.take a ++ slice D a b = D.take b := by
  have e : (D.take b).take a = D.take a := by rw [List.take_take, Nat.min_eq_left h]
  rw [slice, ← e, List.take_append_drop]

/-- A true match stands for the bytes its copy appends (43_greedy_encoder R214 (b), 20_memory R66). -/
theorem take_append_periodic (D : List Byte) (i dist len : Nat) (h : trueMatch D i dist len) :
    D.take i ++ periodic (D.take i) (i - dist) len = D.take (i + len) := by
  obtain ⟨h1, hi, hl, hk⟩ := h
  have back : ∀ k < len, D[i + k]? = D[i - dist + k % dist]? := by
    intro k
    induction k using Nat.strongRecOn with
    | _ k ih =>
      intro hkl
      rw [hk k hkl]
      by_cases c : k < dist
      · rw [Nat.mod_eq_of_lt c, Nat.sub_add_comm hi]
      · rw [Nat.mod_eq_sub_mod (by omega), ← ih (k - dist) (by omega) (by omega)]
        congr 1; omega
  apply List.ext_getElem?
  intro j
  have ti : (D.take i).length = i := by simp; omega
  by_cases c : j < i
  · rw [List.getElem?_append_left (by omega), List.getElem?_take_of_lt c,
      List.getElem?_take_of_lt (by omega)]
  · rw [List.getElem?_append_right (by omega), ti]
    by_cases c' : j < i + len
    · have e := back (j - i) (by omega)
      rw [show i + (j - i) = j by omega] at e
      have hm : (j - i) % dist < dist := Nat.mod_lt _ h1
      rw [List.getElem?_take_of_lt c', e]
      simp only [periodic, ti, List.getElem?_map, show i - (i - dist) = dist by omega]
      rw [List.getElem?_range (by omega)]
      simp only [Option.map_some, List.getD_eq_getElem?_getD]
      rw [List.getElem?_take_of_lt (by omega), List.getElem?_eq_getElem (by omega)]
      rfl
    · rw [List.getElem?_eq_none (by simp [periodic]; omega),
        List.getElem?_eq_none (by simp; omega)]

/-- What a parse has written is what emit calls write for the input before its pending run. -/
theorem Built.emitted {p : Profile} {uses : MatchClass → Bool} {D : List Byte} {q : Parse}
    (h : Built p uses D q) : Emitted p q.em (D.take q.litStart) ∧ q.em.ctx = .loopEntry ∧
      q.litStart ≤ q.pos ∧ q.pos ≤ D.length := by
  induction h with
  | fresh => exact ⟨by simpa [Parse.fresh] using Emitted.fresh, rfl, Nat.le_refl _, Nat.zero_le _⟩
  | literal q _ hp ih =>
    obtain ⟨he, hc, hl, -⟩ := ih
    exact ⟨he, hc, by simp only [parseIter]; omega, hp⟩
  | emit q m cost _ ht hcl ih =>
    obtain ⟨he, hc, hl, hp⟩ := ih
    have run := Emitted.literals q.em _ (slice D q.litStart q.pos) he hc
    rw [take_append_slice D _ _ hl] at run
    have ti : (D.take q.pos).length = q.pos := by simp [hp]
    have hr := representable_of_classify p uses _ _ _ _ _ hcl
    rw [pendingCtx, ← slice_length D q.litStart q.pos hp, ← emitLiterals_ctx] at hr
    have cp := Emitted.copy _ _ m.cls m.dist m.len run hr (by rw [ti]; exact ht.2.1)
    rw [ti, take_append_periodic D _ _ _ ht] at cp
    exact ⟨cp, rfl, Nat.le_refl _, ht.2.2.1⟩

/-- An admissible stream is the end marker after what emit calls write for the input. -/
theorem Admissible.emitted {p : Profile} {uses : MatchClass → Bool} {D C : List Byte}
    (h : Admissible p uses D C) : ∃ em, Emitted p em D ∧ C = (emitEos em).c.bytes := by
  obtain ⟨q, hb, hp, rfl⟩ := h
  obtain ⟨he, hc, hl, -⟩ := hb.emitted
  have run := Emitted.literals q.em _ (slice D q.litStart D.length) he hc
  rw [take_append_slice D _ _ (by omega), List.take_length] at run
  exact ⟨_, run, rfl⟩

end Sys2Proof.Machine
end

