-- ==== Sys2Proof/Laws/Exec.lean ====
section
/-! SUPPORT. What the copies and the instructions can do in any state, canonical or not: one inversion
lemma for exec, so that no later proof unfolds a meaning to learn which fields moved. -/

namespace Sys2Proof.Machine

/-- A match copy only appends (41_decoder_matches R170). -/
theorem copyMatch_appends (m len : Nat) (o o' : Memory) (h : copyMatch m len o = some o') :
    ∃ bs, o' = o.appendAll bs := by
  induction len generalizing m o with
  | zero => simp [copyMatch] at h; exact ⟨[], by simp [h]⟩
  | succ len ih =>
    unfold copyMatch at h
    split at h
    · cases h
    · next v hv =>
      obtain ⟨bs, rfl⟩ := ih _ _ h
      exact ⟨v :: bs, by rw [Memory.append_eq_appendAll, Memory.appendAll_append]; rfl⟩

/-- A literal copy uses bytes and appends bytes and does nothing else (40_decoder_control R126). -/
theorem copyLit_cases (n : Nat) (s : State) :
    (∃ k bs, copyLit n s = .ok (s.produce k bs)) ∨ ∃ k bs, copyLit n s = .error (s.produce k bs) := by
  induction n generalizing s with
  | zero => exact .inl ⟨0, [], by rw [State.produce_zero]; rfl⟩
  | succ n ih =>
    unfold copyLit
    cases hr : s.inRead with
    | none => exact .inr ⟨0, [], by rw [State.produce_zero]⟩
    | some x =>
      obtain ⟨v, s'⟩ := x
      unfold State.inRead at hr
      split at hr
      · cases hq : s.src.read s.ip with
        | none => rw [hq] at hr; cases hr
        | some w =>
          rw [hq] at hr
          simp only [Option.map_some, Option.some.injEq, Prod.mk.injEq] at hr
          obtain ⟨rfl, rfl⟩ := hr
          rcases ih ((s.advance 1).appendOut w) with ⟨k, bs, h⟩ | ⟨k, bs, h⟩
          · exact .inl ⟨k + 1, w :: bs, by rw [← State.produce_advance_appendOut]; exact h⟩
          · exact .inr ⟨k + 1, w :: bs, by rw [← State.produce_advance_appendOut]; exact h⟩
      · cases hr

theorem phaseAfter_ne_fault (c : BitVec 2) (f : FaultCode) : phaseAfter c ≠ .fault f := by
  unfold phaseAfter; split <;> simp

/-- What a next state of a literal run is. -/
theorem literalRun_next (hdr n : Nat) (ph : Phase) (s t : State)
    (h : literalRun hdr n ph s = .next t) :
    (∃ k bs, t = (s.produce k bs).setPhase ph) ∨ ∃ k bs, t = (s.produce k bs).raiseDec .inputUnderrun := by
  unfold literalRun at h
  rcases copyLit_cases n (s.advance hdr) with ⟨k, bs, e⟩ | ⟨k, bs, e⟩ <;> rw [e] at h <;> cases h
  · exact .inl ⟨hdr + k, bs, by rw [State.produce_advance]⟩
  · exact .inr ⟨hdr + k, bs, by rw [State.produce_advance]⟩

/-- What a next state of a match token is. -/
theorem matchToken_next (hdr : Nat) (m : Int) (len : Nat) (c : BitVec 2) (s t : State)
    (h : matchToken hdr m len c s = .next t) :
    (∃ bs, t = (s.produce hdr bs).afterMatch c) ∨ t = (s.advance hdr).raiseDec .lookbehindUnderrun := by
  unfold matchToken at h
  simp only at h
  split at h
  · cases h; exact .inr rfl
  · split at h
    · cases h
    · next o ho =>
      cases h
      obtain ⟨bs, rfl⟩ := copyMatch_appends _ _ _ _ ho
      exact .inl ⟨bs, rfl⟩

/-- The next states exec can answer: bytes used and appended with a change of phase; a match with its
AfterMatch; a decoder fault; the end of the run. -/
def ExecAnswer (i : Instr) (s t : State) : Prop :=
  (∃ n bs ph, t = (s.produce n bs).setPhase ph ∧ (∀ f, ph ≠ .fault f) ∧
    matchOf s.out.size i = none) ∨
  (∃ n bs c m, t = (s.produce n bs).afterMatch c ∧ matchOf s.out.size i = some m) ∨
  (∃ n bs f, t = (s.produce n bs).raiseDec f) ∨
  (∃ n, t = (s.advance n).finishDec ∧ matchOf s.out.size i = none)

/-- Everything exec can answer. -/
theorem exec_cases (i : Instr) (s t : State) (h : exec i s = .next t) : ExecAnswer i s t := by
  have run : ∀ hdr n ph, literalRun hdr n ph s = .next t → (∀ f, ph ≠ .fault f) →
      matchOf s.out.size i = none → ExecAnswer i s t := fun hdr n ph h hp hm =>
    (literalRun_next hdr n ph s t h).elim
      (fun ⟨k, bs, e⟩ => .inl ⟨k, bs, ph, e, hp, hm⟩)
      (fun ⟨k, bs, e⟩ => .inr (.inr (.inl ⟨k, bs, _, e⟩)))
  have tok : ∀ hdr m len c x, matchToken hdr m len c s = .next t →
      matchOf s.out.size i = some x → ExecAnswer i s t := fun hdr m len c x h hm =>
    (matchToken_next hdr m len c s t h).elim
      (fun ⟨bs, e⟩ => .inr (.inl ⟨hdr, bs, c, x, e, hm⟩))
      (fun e => .inr (.inr (.inl ⟨hdr, [], .lookbehindUnderrun, by
        rw [e]; simp [State.produce, State.advance]⟩)))
  cases i with
  | startPass => cases h; exact .inl ⟨0, [], .loop, by simp [State.produce], by simp, rfl⟩
  | startTrail nn =>
    cases h; exact .inl ⟨1, [], _, by simp [State.produce, State.advance]; rfl, by simp, rfl⟩
  | startLit nn => exact run _ _ _ h (by simp) rfl
  | lit len => exact run _ _ _ h (by simp) rfl
  | trail n => exact run _ _ _ h (by simp) rfl
  | m1 d c hh => exact tok _ _ _ _ _ h rfl
  | m1b d c hh => exact tok _ _ _ _ _ h rfl
  | m2 l d c hh => exact tok _ _ _ _ _ h rfl
  | m3 len d c hh => exact tok _ _ _ _ _ h rfl
  | m4 hb len d c hh => exact tok _ _ _ _ _ h rfl
  | eos len c => cases h; exact .inr (.inr (.inr ⟨_, rfl, rfl⟩))

end Sys2Proof.Machine
end

