-- ==== Sys2Proof/Laws/PerInstr.lean ====
section
/-! SUPPORT. One law of the encoding, constructor by constructor: an instruction's header has the length
30_encoding R103 gives it. -/

namespace Sys2Proof.Laws.EncodeLength

/-- The header has `headerLen` bytes, under both profiles (R103). -/
def Statement : Instr → Prop := fun i =>
  ∀ p : Profile, (encode p i).length = Sys2Proof.Machine.headerLen i

theorem startPass : Statement .startPass := fun _ => rfl

theorem startTrail (nn : Byte) : Statement (.startTrail nn) := fun _ => rfl

theorem startLit (nn : Byte) : Statement (.startLit nn) := fun _ => rfl

theorem lit (len : LenField 4) : Statement (.lit len) := fun p => by
  simp [encode, LenField.length_extBytes, Machine.headerLen, Nat.add_comm]

theorem m1 (d s : BitVec 2) (h : Byte) : Statement (.m1 d s h) := fun _ => rfl

theorem m1b (d s : BitVec 2) (h : Byte) : Statement (.m1b d s h) := fun _ => rfl

theorem m2 (l d : BitVec 3) (s : BitVec 2) (h : Byte) : Statement (.m2 l d s h) := fun _ => rfl

theorem m3 (len : LenField 5) (d : BitVec 6) (s : BitVec 2) (h : Byte) :
    Statement (.m3 len d s h) := fun p => by
  simp [encode, LenField.length_extBytes, Machine.headerLen]; omega

theorem m4 (hb : BitVec 1) (len : LenField 3) (d : BitVec 6) (s : BitVec 2) (h : Byte) :
    Statement (.m4 hb len d s h) := fun p => by
  simp [encode, LenField.length_extBytes, Machine.headerLen]; omega

theorem eos (len : LenField 3) (s : BitVec 2) : Statement (.eos len s) := fun p => by
  simp [encode, LenField.length_extBytes, Machine.headerLen]; omega

theorem trail (n : BitVec 2) : Statement (.trail n) := fun _ => rfl

end Sys2Proof.Laws.EncodeLength
end

