-- ==== Sys2Proof/Laws/Step.lean ====
section
/-! SUPPORT. The turns of step: which agent moves, one lemma for each (10_state R20). -/

namespace Sys2Proof.Machine

theorem step_dec (s : State) (hp : s.pending = []) (hb : s.status = .busy) (hr : s.run = some .dec) :
    step s = s.decTurn := by
  simp only [step, State.turn, hp, State.blockStep, hb, hr]

theorem step_encg (s : State) (hp : s.pending = []) (hb : s.status = .busy)
    (hr : s.run = some .encg) : step s = s.encTurn State.encgStep := by
  simp only [step, State.turn, hp, State.blockStep, hb, hr]

theorem step_encl (s : State) (hp : s.pending = []) (hb : s.status = .busy)
    (hr : s.run = some .encl) : step s = s.encTurn State.enclStep := by
  simp only [step, State.turn, hp, State.blockStep, hb, hr]

theorem step_host (s : State) (op : HostOp) (r : List (Option HostOp))
    (hp : s.pending = some op :: r) : step s = ({ s with pending := r } : State).hostStep op := by
  simp only [step, State.turn, hp]

/-- DEC's turn while no live source may still deliver. -/
theorem State.decTurn_closed (s : State) (h : s.starved = false) : s.decTurn = s.decStep := by
  simp [State.decTurn, h]

/-- An encoder's turn while no live source may still deliver. -/
theorem State.encTurn_closed (next : State → State) (s : State) (h : s.starved = false) :
    s.encTurn next = .next (next s) := by
  simp [State.encTurn, h]

end Sys2Proof.Machine
end

