-- ==== Sys2Proof/Tests/Slice0.lean ====
section
/-! SUPPORT. The model's own tests. Expected values come from the bit pictures of 30_encoding, from the
examples of 41_decoder_matches and 42_token_emit, and from the vectors of 95_test_vectors (V1 to V50,
programs P1 to P6), each named at its test. Then one witness for each statement with hypotheses. -/

namespace Sys2Proof.Tests

open Sys2Proof Sys2Proof.Machine

/-! ## WellFormed: an ill-formed term for each check -/

theorem test_wf_startTrail : Instr.wf .doc (.startTrail 17) = false ∧
    Instr.wf .doc (.startTrail 18) = true ∧ Instr.wf .doc (.startTrail 21) = false := by decide

theorem test_wf_startLit : Instr.wf .doc (.startLit 20) = false ∧
    Instr.wf .doc (.startLit 21) = true := by decide

theorem test_wf_inline_zero : Instr.wf .doc (.lit (.inline 0)) = false ∧
    Instr.wf .doc (.m3 (.inline 0) 0 0 0) = false ∧
    Instr.wf .doc (.m4 1 (.inline 0) 0 0 0) = false ∧ Instr.wf .doc (.eos (.inline 0) 0) = false := by
  decide

theorem test_wf_terminator : Instr.wf .doc (.lit (.ext 2 255)) = false ∧
    Instr.wf .ref (.lit (.ext 2 255)) = true ∧ Instr.wf .ref (.m3 (.ext 0 0) 0 0 0) = false ∧
    Instr.wf .doc (.m3 (.ext 0 0) 0 0 0) = true ∧ Instr.wf .ref (.m4 1 (.ext 0 0) 0 0 0) = false ∧
    Instr.wf .doc (.eos (.ext 0 255) 0) = false := by decide

theorem test_wf_m2 : Instr.wf .doc (.m2 1 7 3 255) = false ∧
    Instr.wf .doc (.m2 2 0 0 0) = true := by decide

theorem test_wf_m4_is_no_eos : Instr.wf .doc (.m4 0 (.inline 1) 0 3 0) = false ∧
    Instr.wf .doc (.m4 0 (.inline 1) 1 0 0) = true := by decide

theorem test_wf_trail : Instr.wf .doc (.trail 0) = false ∧ Instr.wf .doc (.trail 3) = true := by decide

/-! ## Decoding: words written out bit by bit from the pictures of R82 to R89 -/

/-- R82: NNNNNNNN. -/
theorem test_decode_start :
    decode .doc .start [0b00010010#8] = .ok (.startTrail 18) [] ∧
    decode .doc .start [0b11111111#8] = .ok (.startLit 255) [] ∧
    decode .doc .start [0b00010001#8] = .ok .startPass [0b00010001#8] := by decide

/-- R83: 0000LLLL, L = 1111; and L = 0000 with a one-byte extension. -/
theorem test_decode_lit :
    decode .doc .loop [0b00001111#8] = .ok (.lit (.inline 0b1111#4)) [] ∧
    decode .ref .loop [0b00000000#8, 0b11111111#8] = .ok (.lit (.ext 0 255)) [] := by decide

/-- R84: 0000DDSS HHHHHHHH with D = 10, S = 01, H = 10000001, in the two contexts. -/
theorem test_decode_m1 :
    decode .doc (.dispatch .plain) [0b00001001#8, 0b10000001#8] =
      .ok (.m1 0b10#2 0b01#2 0b10000001#8) [] ∧
    decode .doc (.dispatch .biased) [0b00001001#8, 0b10000001#8] =
      .ok (.m1b 0b10#2 0b01#2 0b10000001#8) [] := by decide

/-- R86: LLLDDDSS HHHHHHHH with L = 110, D = 011, S = 10. -/
theorem test_decode_m2 :
    decode .doc .loop [0b11001110#8, 0b10000001#8] =
      .ok (.m2 0b110#3 0b011#3 0b10#2 0b10000001#8) [] := by decide

/-- R87: 001LLLLL DDDDDDSS HHHHHHHH with L = 10110, D = 100110, S = 11. -/
theorem test_decode_m3 :
    decode .doc (.dispatch .plain) [0b00110110#8, 0b10011011#8, 0b01000000#8] =
      .ok (.m3 (.inline 0b10110#5) 0b100110#6 0b11#2 0b01000000#8) [] := by decide

/-- R88: 0001HLLL DDDDDDSS HHHHHHHH with H' = 1, L = 011, D = 000001, S = 10. -/
theorem test_decode_m4 :
    decode .doc (.dispatch .biased) [0b00011011#8, 0b00000110#8, 0b01000000#8] =
      .ok (.m4 0b1#1 (.inline 0b011#3) 0b000001#6 0b10#2 0b01000000#8) [] := by decide

/-- R89, R162: 00010LLL 000000SS 00000000; and 19 00 00 is no end marker. -/
theorem test_decode_eos :
    decode .doc .loop [0b00010111#8, 0b00000011#8, 0b00000000#8] =
      .ok (.eos (.inline 0b111#3) 0b11#2) [] ∧
    decode .doc .loop [0x19#8, 0x00#8, 0x00#8] = .ok (.m4 1#1 (.inline 1#3) 0#6 0#2 0#8) [] := by
  decide

/-- V13, V17 g: one stream, two lengths under the two values of EXT_CONT. -/
theorem test_decode_profiles :
    decode .doc .loop [0x00#8, 0x00#8, 0x01#8] = .ok (.lit (.ext 0 0)) [0x01#8] ∧
    decode .ref .loop [0x00#8, 0x00#8, 0x01#8] = .ok (.lit (.ext 1 1)) [] := by decide

/-- V21: the header is cut at the token byte, in the extension, at lo and at hi. -/
theorem test_decode_underrun :
    decode .doc .start [] = .underrun ∧ decode .doc .loop [0x00#8, 0xFF#8] = .underrun ∧
    decode .doc .loop [0x21#8] = .underrun ∧ decode .doc .loop [0x21#8, 0x00#8] = .underrun ∧
    decode .doc (.dispatch .plain) [0x00#8] = .underrun := by decide

/-- The encoder writes the canonical end marker and the examples of R185. -/
theorem test_encode :
    encode .doc (.eos (.inline 1) 0) = [0x11#8, 0x00#8, 0x00#8] ∧
    encode .doc (.m2 7 1 0 0) = [0xE4#8, 0x00#8] ∧
    encode .ref (.m4 0 (.ext 0 3) 1 0 0) = [0x10#8, 0x03#8, 0x04#8, 0x00#8] := by decide

/-- The host's table words: START_TRAIL, LIT, M1, M2, M3, EOS, TRAIL. -/
theorem test_tableWord :
    decodeTableWord 8 0x12 = some (.startTrail 0x12) ∧
    decodeTableWord 8 0x0F = some (.lit (.inline 15)) ∧
    decodeTableWord 16 0x8104 = some (.m1 1 0 0x81) ∧
    decodeTableWord 16 0x81E4 = some (.m2 7 1 0 0x81) ∧
    decodeTableWord 24 0x022821 = some (.m3 (.inline 1) 10 0 2) ∧
    decodeTableWord 24 0x000311 = some (.eos (.inline 1) 3) ∧
    decodeTableWord 0 0 = some (.trail 1) := by decide

/-! ## One step of a decoder run -/

/-- A DEC run in progress: its phase, seen_match, OUT so far and the stream from ip = 0. -/
def runAt (p : Profile) (ph : Phase) (seen : Bool) (out bs : List Byte) : State :=
  { State.reset with
    profile := p
    status := .busy
    run := some .dec
    src := Memory.ofBytes bs
    runInLen := bs.length
    phase := ph
    seenMatch := seen
    out := Memory.ofBytes out }

/-- What a test looks at after one step: ip, OUT, the phase, seen_match. -/
def stepView (s : State) : Option (Nat × List Byte × Phase × Bool) :=
  match step s with
  | .next t => some (t.ip, t.out.bytes, t.phase, t.seenMatch)
  | .fault _ => none
  | .refused _ => none

/-- V10 e: 01 is left unread. -/
theorem test_startPass :
    stepView (runAt .doc .start false [] [0x01#8]) = some (0, [], .loop, false) := by decide

/-- P1 step 1. -/
theorem test_startTrail :
    stepView (runAt .doc .start false [] [0x13#8, 0x61#8, 0x62#8]) =
      some (1, [], .trail 2, false) := by decide

/-- V10 c: START_LIT 4, then BIASED. -/
theorem test_startLit :
    stepView (runAt .doc .start false [] [0x15#8, 0x77#8, 0x78#8, 0x79#8, 0x7A#8]) =
      some (5, [0x77#8, 0x78#8, 0x79#8, 0x7A#8], .dispatch .biased, false) := by decide

/-- V4: a START run of 4 with 3 bytes present faults with every byte read. -/
theorem test_startLit_underrun :
    stepView (runAt .doc .start false [] [0x15#8, 0x77#8, 0x78#8, 0x79#8]) =
      some (4, [], .fault .inputUnderrun, false) := by decide

/-- V11 a: LIT 5; the context is BIASED while no match has been seen. -/
theorem test_lit :
    stepView (runAt .doc .loop false [] [0x02#8, 0x41#8, 0x42#8, 0x43#8, 0x44#8, 0x45#8]) =
      some (6, [0x41#8, 0x42#8, 0x43#8, 0x44#8, 0x45#8], .dispatch .biased, false) := by decide

/-- P4 step 3: after a match a later LIT goes to PLAIN under DOC and to BIASED under REF. -/
theorem test_lit_context :
    (stepView (runAt .doc .loop true [] [0x01#8, 0x77#8, 0x78#8, 0x79#8, 0x7A#8])).map (·.2.2.1) =
      some (.dispatch .plain) ∧
    (stepView (runAt .ref .loop true [] [0x01#8, 0x77#8, 0x78#8, 0x79#8, 0x7A#8])).map (·.2.2.1) =
      some (.dispatch .biased) := by decide

/-- V14 c: M1 of distance 1 with carry 3. -/
theorem test_m1 :
    stepView (runAt .doc (.dispatch .plain) false [0x61#8, 0x62#8, 0x63#8] [0x03#8, 0x00#8]) =
      some (2, [0x61#8, 0x62#8, 0x63#8, 0x63#8, 0x63#8], .trail 3, true) := by decide

/-- V14 f: the boundary dist = n0; and V14 d: one more is a fault. -/
theorem test_m1_boundary :
    stepView (runAt .doc (.dispatch .plain) false [0x61#8, 0x62#8, 0x63#8] [0x08#8, 0x00#8]) =
      some (2, [0x61#8, 0x62#8, 0x63#8, 0x61#8, 0x62#8], .loop, true) ∧
    stepView (runAt .doc (.dispatch .plain) false [0x61#8, 0x62#8, 0x63#8] [0x0C#8, 0x00#8]) =
      some (2, [], .fault .lookbehindUnderrun, false) := by decide

/-- R154's corner cases: 00 00 is distance 2049 and 0C FF is distance 3072. -/
theorem test_m1b_distances :
    posM1b 3072 0 0 = 1023 ∧ posM1b 3072 3 0xFF = 0 := by decide

/-- V15 d: 00 00 in BIASED with 4 bytes of output. -/
theorem test_m1b_far :
    stepView (runAt .doc (.dispatch .biased) false [0x77#8, 0x78#8, 0x79#8, 0x7A#8]
      [0x00#8, 0x00#8]) = some (2, [], .fault .lookbehindUnderrun, false) := by decide

/-- P1 step 3: the overlapping copy. -/
theorem test_m2 :
    stepView (runAt .doc (.dispatch .plain) false [0x61#8, 0x62#8] [0xE4#8, 0x00#8]) =
      some (2, [0x61#8, 0x62#8, 0x61#8, 0x62#8, 0x61#8, 0x62#8, 0x61#8, 0x62#8, 0x61#8, 0x62#8],
        .loop, true) := by decide

/-- V16 c: distance 9 with one byte of output. -/
theorem test_m2_far :
    stepView (runAt .doc (.dispatch .plain) false [0x41#8] [0x40#8, 0x01#8]) =
      some (2, [], .fault .lookbehindUnderrun, false) := by decide

/-- V17 b: M3 of distance 1, length 3, carry 1. -/
theorem test_m3 :
    stepView (runAt .doc (.dispatch .plain) false [0x41#8] [0x21#8, 0x01#8, 0x00#8]) =
      some (3, [0x41#8, 0x41#8, 0x41#8, 0x41#8], .trail 1, true) := by decide

/-- V17 c: distance 11, length 7. -/
theorem test_m3_distance :
    posM3 11 10 0 0 = 0 ∧ lenM3 (.inline 5) = 7 ∧ lenM3 (.ext 0 0) = 33 ∧ lenM3 (.ext 42 246) = 10989 ∧
      posM3 16384 63 0 0xFF = 0 := by decide

/-- V18 f, g: distances 32768 and 16385 with one byte of output. -/
theorem test_m4_far :
    stepView (runAt .doc (.dispatch .plain) false [0x41#8] [0x19#8, 0x00#8, 0x00#8]) =
      some (3, [], .fault .lookbehindUnderrun, false) ∧
    stepView (runAt .doc (.dispatch .plain) false [0x41#8] [0x11#8, 0x04#8, 0x00#8]) =
      some (3, [], .fault .lookbehindUnderrun, false) := by decide

/-- R160's corner cases: 11 04 00, 19 00 00 and 1F FF FF; V18 e: length 12. -/
theorem test_m4_distances :
    posM4 49151 0 1 0 0 = 49151 - 16385 ∧ posM4 49151 1 0 0 0 = 49151 - 32768 ∧
      posM4 49151 1 63 3 0xFF = 0 ∧ lenM4 (.inline 7) = 9 ∧ lenM4 (.ext 0 3) = 12 := by decide

/-- V1: the end marker with OUT empty; the carry bits and the length are ignored. -/
theorem test_eos :
    stepView (runAt .doc .loop false [] [0x11#8, 0x00#8, 0x00#8]) = some (3, [], .done, false) ∧
    stepView (runAt .doc (.dispatch .plain) true [0x41#8] [0x17#8, 0x03#8, 0x00#8, 0x55#8]) =
      some (3, [0x41#8], .done, true) := by decide

/-- P3 (b) and R162: a stream ending 11 00 is an underrun, not an end. -/
theorem test_eos_cut :
    stepView (runAt .doc .loop false [] [0x11#8, 0x00#8]) =
      some (2, [], .fault .inputUnderrun, false) := by decide

/-- P1 step 2 and V10 f. -/
theorem test_trail :
    stepView (runAt .doc (.trail 2) false [] [0x61#8, 0x62#8, 0xE4#8]) =
      some (2, [0x61#8, 0x62#8], .dispatch .plain, false) ∧
    stepView (runAt .doc (.trail 1) true [0x41#8] []) =
      some (0, [], .fault .inputUnderrun, true) := by decide

/-- A table word placed with withFetchWord after reset is the first instruction run. -/
theorem test_withFetchWord :
    stepView (State.reset.withFetchWord 24 0x000011) = some (3, [], .done, false) ∧
    stepView (State.reset.withFetchWord 8 0x12) = some (1, [], .trail 1, false) ∧
    (stepView (State.reset.withFetchWord 8 0x00)).map (·.1) = some 20 ∧
    (stepView (State.reset.withFetchWord 16 0x0004)).map (·.2.2.1) =
      some (.fault .lookbehindUnderrun) := by decide

/-! ## Memory -/

/-- A write at the end, a patch, and a read where no byte is (R60, R61, R53). -/
theorem test_memory :
    (Memory.ofBytes [1#8, 2#8]).append 3#8 = [(0, 1#8), (1, 2#8), (2, 3#8)] ∧
    (Memory.ofBytes [0x48#8, 0#8]).modify 0 (· ||| 1#8) = [(0, 0x49#8), (1, 0#8)] ∧
    (Memory.ofBytes [1#8, 2#8]).read 1 = some 2#8 ∧ (Memory.ofBytes [1#8, 2#8]).read 2 = none ∧
    ¬ Memory.wf [(1, 1#8)] := by decide

/-! ## The emitter: the examples of R181 to R186 -/

theorem test_emitExt :
    extBytes .doc 1 = [0x01#8] ∧ extBytes .ref 1 = [0x01#8] ∧ extBytes .doc 255 = [0xFF#8, 0x00#8] ∧
    extBytes .ref 255 = [0xFF#8] ∧ extBytes .doc 256 = [0xFF#8, 0x01#8] ∧
    extBytes .ref 256 = [0x00#8, 0x01#8] ∧ extLen .doc 10956 = 43 ∧
    extBytes .ref 10956 = List.replicate 42 0x00#8 ++ [0xF6#8] := by decide

theorem test_emitLiterals :
    (emitLiterals .doc [0x61#8, 0x62#8] Emitter.fresh).c.bytes = [0x13#8, 0x61#8, 0x62#8] ∧
    (announceRun .ref 239 Emitter.fresh).bytes = [0x00#8, 0xDD#8] ∧
    (announceRun .doc 5 { Emitter.fresh with c := Memory.ofBytes [0x40#8, 0x00#8] }).bytes =
      [0x40#8, 0x00#8, 0x02#8] := by decide

theorem test_emitMatch :
    matchTail .m2 2 8 = [0xE4#8, 0x00#8] ∧ matchTail .m1 2 2 = [0x04#8, 0x00#8] ∧
    matchTail .m1b 2049 3 = [0x00#8, 0x00#8] ∧
    matchHead .doc .m4 16385 3 ++ matchTail .m4 16385 3 = [0x11#8, 0x04#8, 0x00#8] ∧
    matchHead .doc .m3 11 49 ++ matchTail .m3 11 49 = [0x20#8, 0x10#8, 0x28#8, 0x00#8] ∧
    (emitEos Emitter.fresh).c.bytes = [0x11#8, 0x00#8, 0x00#8] := by decide

/-- P6: the carry patch turns 48 into 49. -/
theorem test_carryPatch :
    (emitLiterals .doc [0x58#8] (emitMatch .doc .m2 3 3
      (emitLiterals .doc [0x61#8, 0x62#8, 0x63#8] Emitter.fresh))).c.bytes =
      [0x14#8, 0x61#8, 0x62#8, 0x63#8, 0x49#8, 0x00#8, 0x58#8] := by decide

/-- R187. -/
theorem test_classify :
    classify .doc (fun _ => true) 1 2 .plain = some (.m1, 2) ∧
    classify .doc (fun _ => true) 1 2 .loopEntry = none ∧
    classify .doc (fun _ => true) 2049 3 .biased = some (.m1b, 2) ∧
    classify .doc (fun _ => true) 2049 3 .plain = some (.m3, 3) ∧
    classify .doc (fun _ => true) 2048 8 .plain = some (.m2, 2) ∧
    classify .ref (fun _ => true) 1 34 .plain = some (.m3, 4) ∧
    classify .doc (fun _ => true) 49151 9 .plain = some (.m4, 3) ∧
    classify .doc (fun _ => true) 49152 9 .plain = none := by decide

/-! ## The searches, on V41's "aaaa" and V40's "abcabcX…" -/

theorem test_greedyBest :
    matchLen [0x61#8, 0x61#8, 0x61#8, 0x61#8] 1 1 = 3 ∧
    greedyBest [0x61#8, 0x61#8, 0x61#8, 0x61#8] 1 = some (1, 3) ∧
    greedyBest [0x61#8, 0x61#8, 0x61#8] 1 = none := by decide

/-- R239, R240: at position 3 of "abcabcX" the candidate is distance 3, class M2, gain 1. -/
theorem test_bestCand :
    bestCand .doc [0x61#8, 0x62#8, 0x63#8, 0x61#8, 0x62#8, 0x63#8, 0x58#8] 3 1 .plain =
      some ⟨1, 3, 3, .m2⟩ ∧ levelDepth 5 = 16 ∧ levelLazy 5 = true ∧ levelLazy 4 = false := by decide

/-! ## Witnesses: for each statement with hypotheses, values that meet them together -/

/-- A stream of `n` bytes of output. -/
def outOf (n : Nat) (ph : Phase) (bs : List Byte) : State :=
  runAt .doc ph false (List.replicate n 0x41#8) bs

theorem outOf_wf (n : Nat) (ph : Phase) (bs : List Byte) : (outOf n ph bs).out.wf :=
  Memory.wf_ofBytes _

theorem outOf_size (n : Nat) (ph : Phase) (bs : List Byte) : (outOf n ph bs).out.size = n := by
  show (Memory.ofBytes _).size = n
  rw [Memory.size_ofBytes, List.length_replicate]

/-- The state with one host operation to come. -/
def hostAt (st : Status) (op : HostOp) : State :=
  { State.reset with status := st, run := some .dec, runInLen := 4, pending := [some op] }

theorem witness_StepRunsDecodedInstruction :
    let s := runAt .doc .loop false [] [0x11#8, 0x00#8, 0x00#8]
    let live : State := { s with srcOpen := true, runInLen := 9 }
    s.status = .busy ∧ s.run = some .dec ∧
      decode s.profile s.phase s.inputLeft = .ok (.eos (.inline 1) 0) [] ∧ s.starved = false ∧
      s.pending = [] ∧ ({ s with pending := [none] } : State).pending = none :: [] ∧
      live.starved = true ∧ live.status = .busy ∧ live.run = some .dec ∧
      decode live.profile live.phase live.inputLeft = .ok (.eos (.inline 1) 0) [] := by decide

theorem witness_EveryByteSelectsItsRow :
    decode .doc .loop (0x0F#8 :: []) = .ok (.lit (.inline 15)) [] ∧ Running .loop :=
  ⟨by decide, by simp [Running]⟩

theorem witness_DecodeOfEncode :
    Instr.wf .doc (.m4 1 (.ext 0 254) 63 3 255) = true ∧
      Instr.readIn (.m4 1 (.ext 0 254) 63 3 255) (.dispatch .biased) = true ∧
      Instr.wf .ref .startPass = true ∧ Instr.readIn .startPass .start = true ∧
      (Instr.startPass = .startPass → ∃ b r, [17#8] = b :: r ∧ b.toNat ≤ 17) :=
  ⟨by decide, by decide, by decide, by decide, fun _ => ⟨17#8, [], rfl, by decide⟩⟩

theorem witness_EncodeOfDecode :
    (∀ n, Phase.trail 3 = .trail n → n ≠ 0) ∧
      decode .doc (.trail 3) [1#8] = .ok (.trail 3) [1#8] ∧
      decode .ref .loop [0x20#8, 0x00#8, 0x01#8, 0x02#8, 0x03#8] =
        .ok (.m3 (.ext 1 1) 0 2 3) [] :=
  ⟨fun n h => by cases h; decide, by decide, by decide⟩

theorem witness_CutHeaderIsUnderrun :
    Instr.wf .doc (.eos (.inline 1) 0) = true ∧ Instr.readIn (.eos (.inline 1) 0) .loop = true ∧
      2 < (encode .doc (.eos (.inline 1) 0)).length ∧
      0 < (encode .doc (.eos (.inline 1) 0)).length := by decide

theorem witness_ExtensionReadsItsValue :
    (254#8 : Byte) ≠ Profile.doc.extCont.byte ∧ (1#8 : Byte) ≠ Profile.ref.extCont.byte := by decide

theorem witness_DistanceRangesAreExact :
    posM1 0 0 0 = -1 ∧ posM1 0 3 255 = -1024 ∧ posM1b 0 0 0 = -2049 ∧ posM1b 0 3 255 = -3072 ∧
      posM2 0 0 0 = -1 ∧ posM2 0 7 255 = -2048 ∧ 2 ≤ (2#3 : BitVec 3).toNat ∧ posM3 0 0 3 0 = -1 ∧
      posM3 0 63 0 255 = -16384 ∧ ¬ ((0#1 : BitVec 1) = 0#1 ∧ (1#6 : BitVec 6) = 0#6 ∧ (0 : Byte) = 0#8) ∧
      posM4 0 0 1 0 0 = -16385 ∧ posM4 0 1 63 3 255 = -49151 := by decide

theorem witness_StartPassGoesToLoop :
    let s := runAt .doc .start false [] [17#8]
    s.status = .busy ∧ s.run = some .dec ∧ s.starved = false ∧ s.pending = [] ∧ s.phase = .start ∧
      s.inputLeft = 17#8 :: [] ∧ (17#8 : Byte).toNat ≤ 17 := by decide

theorem witness_StartTrailGoesToTrail :
    18 ≤ (18#8 : Byte).toNat ∧ (20#8 : Byte).toNat ≤ 20 ∧ 18 ≤ (20#8 : Byte).toNat ∧
      (18#8 : Byte).toNat ≤ 20 := by decide

theorem witness_StartLitCopiesItsRun :
    let s := runAt .doc .start false [] [21#8, 1#8, 2#8, 3#8, 4#8]
    s.src.wf ∧ 21 ≤ (21#8 : Byte).toNat ∧ s.ip + 1 + ((21#8 : Byte).toNat - 17) ≤ s.limit := by decide

theorem witness_LitCopiesItsRun :
    let s := runAt .ref .loop true [] [1#8, 1#8, 2#8, 3#8, 4#8]
    s.src.wf ∧ s.ip + (1 + extCount (.inline 1 : LenField 4)) + (lenValue 15 (.inline 1 : LenField 4) + 3)
      ≤ s.limit := by decide

theorem witness_TrailCopiesItsBytes :
    let s := runAt .doc (.trail 3) false [] [1#8, 2#8, 3#8]
    s.src.wf ∧ s.ip + (3#2 : BitVec 2).toNat ≤ s.limit := by decide

theorem witness_M1CopiesTwoBytes :
    let s := outOf 1 (.dispatch .plain) []
    s.out.wf ∧ 1 + (0#2 : BitVec 2).toNat + 4 * (0#8 : Byte).toNat ≤ s.out.size :=
  ⟨outOf_wf _ _ _, by rw [outOf_size]; decide⟩

theorem witness_M1bCopiesThreeBytes :
    let s := outOf 2049 (.dispatch .biased) []
    s.out.wf ∧ 2049 + (0#2 : BitVec 2).toNat + 4 * (0#8 : Byte).toNat ≤ s.out.size :=
  ⟨outOf_wf _ _ _, by rw [outOf_size]; decide⟩

theorem witness_M2CopiesItsLength :
    let s := outOf 2048 .loop []
    s.out.wf ∧ 1 + (7#3 : BitVec 3).toNat + 8 * (255#8 : Byte).toNat ≤ s.out.size :=
  ⟨outOf_wf _ _ _, by rw [outOf_size]; decide⟩

theorem witness_M3CopiesItsLength :
    let s := outOf 16384 .loop []
    s.out.wf ∧ 1 + (63#6 : BitVec 6).toNat + 64 * (255#8 : Byte).toNat ≤ s.out.size :=
  ⟨outOf_wf _ _ _, by rw [outOf_size]; decide⟩

theorem witness_M4CopiesItsLength :
    let s := outOf 49151 .loop []
    s.out.wf ∧ 16384 + 16384 * (1#1 : BitVec 1).toNat + (63#6 : BitVec 6).toNat +
      64 * (255#8 : Byte).toNat ≤ s.out.size :=
  ⟨outOf_wf _ _ _, by rw [outOf_size]; decide⟩

/-- One byte of output fewer than the distance, class by class. -/
theorem witness_FarMatchRaisesLookbehind :
    (outOf 0 .loop []).out.size < 1 + (0#2 : BitVec 2).toNat + 4 * (0#8 : Byte).toNat ∧
    (outOf 2048 .loop []).out.size < 2049 + (0#2 : BitVec 2).toNat + 4 * (0#8 : Byte).toNat ∧
    (outOf 2047 .loop []).out.size < 1 + (7#3 : BitVec 3).toNat + 8 * (255#8 : Byte).toNat ∧
    (outOf 16383 .loop []).out.size < 1 + (63#6 : BitVec 6).toNat + 64 * (255#8 : Byte).toNat ∧
    (outOf 49150 .loop []).out.size < 16384 + 16384 * (1#1 : BitVec 1).toNat +
      (63#6 : BitVec 6).toNat + 64 * (255#8 : Byte).toNat := by
  refine ⟨?_, ?_, ?_, ?_, ?_⟩ <;> rw [outOf_size] <;> decide

theorem witness_ShortLiteralRunRaisesUnderrun :
    let a := runAt .doc .start false [] [21#8, 1#8, 2#8, 3#8]
    let b := runAt .doc .loop false [] [1#8, 1#8, 2#8, 3#8]
    let c := runAt .doc (.trail 1) false [] []
    a.src.wf ∧ a.ip + 1 ≤ a.limit ∧ a.limit < a.ip + 1 + ((21#8 : Byte).toNat - 17) ∧
      b.src.wf ∧ b.ip + (1 + extCount (.inline 1 : LenField 4)) ≤ b.limit ∧
      b.limit < b.ip + (1 + extCount (.inline 1 : LenField 4)) +
        (lenValue 15 (.inline 1 : LenField 4) + 3) ∧
      c.src.wf ∧ c.ip ≤ c.limit ∧ c.limit < c.ip + (1#2 : BitVec 2).toNat := by decide

theorem witness_ShortHeaderRaisesUnderrun :
    let s := runAt .doc .loop false [] [0x11#8, 0x00#8]
    s.status = .busy ∧ s.run = some .dec ∧ s.starved = false ∧ s.pending = [] ∧ s.ip ≤ s.limit ∧
      decode s.profile s.phase s.inputLeft = .underrun := by decide

theorem witness_NoInstructionStops : (outOf 3 .loop []).out.wf := outOf_wf _ _ _

theorem witness_InstructionFrame :
    exec .startPass (outOf 1 .start []) = .next { outOf 1 .start [] with phase := .loop } ∧
      (∀ f, ({ outOf 1 .start [] with phase := .loop } : State).phase ≠ .fault f) ∧
      (outOf 1 .start []).out.wf ∧ 0 < (outOf 1 .start []).out.size :=
  ⟨rfl, by simp, outOf_wf _ _ _, by rw [outOf_size]; decide⟩

theorem witness_SeenMatchIsSetByMatches :
    (∃ t, exec (.m1 0 0 0) (outOf 1 .loop []) = .next t ∧ ∀ f, t.phase ≠ .fault f) ∧
      ∃ t, exec .startPass (outOf 1 .start []) = .next t ∧ ∀ f, t.phase ≠ .fault f :=
  ⟨⟨_, rfl, by intro f h; cases h⟩, ⟨_, rfl, by intro f h; cases h⟩⟩

theorem witness_CopyMatchIsPeriodic :
    (Memory.ofBytes [1#8, 2#8]).wf ∧ 1 < (Memory.ofBytes [1#8, 2#8]).size ∧
      0 < (Memory.ofBytes [1#8, 2#8]).size := by decide

theorem witness_ResetLeavesTheRegisters :
    (hostAt .busy .reset).pending = some .reset :: [] := rfl

theorem witness_StartCommandLaunches :
    (hostAt .idle (.write .cmd 1)).pending = some (.write .cmd 1) :: [] ∧
      (hostAt .done (.write .cmd 2)).pending = some (.write .cmd 2) :: [] ∧
      (hostAt .fault (.write .cmd 3)).pending = some (.write .cmd 3) :: [] ∧
      (hostAt .idle (.write .cmd 1)).status ≠ .busy ∧ (hostAt .done (.write .cmd 2)).status ≠ .busy ∧
      (hostAt .fault (.write .cmd 3)).status ≠ .busy ∧
      (1 ≤ ({ hostAt .fault (.write .cmd 3) with level := 1 } : State).level ∧
        ({ hostAt .fault (.write .cmd 3) with level := 9 } : State).level ≤ 9) := by decide

theorem witness_InvalidLevelFaults :
    let s := hostAt .idle (.write .cmd 3)
    s.pending = some (.write .cmd 3) :: [] ∧ s.status ≠ .busy ∧ ¬ (1 ≤ s.level ∧ s.level ≤ 9) ∧
      ¬ (1 ≤ ({ s with level := 10 } : State).level ∧ ({ s with level := 10 } : State).level ≤ 9) := by
  decide

theorem witness_RegisterWrites :
    (hostAt .busy (.write .cmd 1)).status = .busy ∧
      (hostAt .busy (.write .cmd 1)).pending = some (.write .cmd 1) :: [] ∧
      (hostAt .idle (.write .cmd 4)).status ≠ .busy ∧
      (hostAt .idle (.write .cmd 4)).pending = some (.write .cmd 4) :: [] ∧
      (hostAt .idle (.write .inLen 8)).pending = some (.write .inLen 8) :: [] ∧
      (hostAt .idle (.write .outHint 8)).pending = some (.write .outHint 8) :: [] ∧
      (hostAt .idle (.write .level 8)).pending = some (.write .level 8) :: [] ∧
      (4 : Nat) ≠ 1 ∧ (4 : Nat) ≠ 2 ∧ (4 : Nat) ≠ 3 := by decide

theorem witness_RegisterReads :
    (hostAt .busy (.read .status)).pending = some (.read .status) :: [] ∧
      (hostAt .busy (.read .status)).status = .busy ∧ (hostAt .busy (.read .status)).err = none := by
  decide

theorem witness_ResDeliversTheResult :
    let d : State := { hostAt .done .readRes with out := Memory.ofBytes [7#8] }
    let e : State := { hostAt .done .readRes with
      run := some .encg, parse := { Parse.fresh with em := { Emitter.fresh with c := [(0, 9#8)] } } }
    d.pending = some .readRes :: [] ∧ d.status = .done ∧ d.run = some .dec ∧
      d.out.bytes[d.resPos]? = some 7#8 ∧ e.pending = some .readRes :: [] ∧ e.status = .done ∧
      e.run = some .encg ∧ e.parse.em.c.bytes[e.resPos]? = some 9#8 ∧
      (hostAt .fault .readRes).status = .fault ∧ (hostAt .busy .readRes).status = .busy ∧
      (hostAt .idle .readRes).status = .idle := by decide

theorem witness_AlteredInputIsRefused :
    (hostAt .busy (.alter 3 1#8)).status = .busy ∧
      (hostAt .busy (.alter 3 1#8)).pending = some (.alter 3 1#8) :: [] ∧
      3 < (hostAt .busy (.alter 3 1#8)).runInLen ∧
      (hostAt .busy (.present [] false)).pending = some (.present [] false) :: [] := by decide

theorem witness_SourceOperations :
    let live : State := { hostAt .busy (.supply [5#8]) with srcOpen := true }
    (hostAt .idle (.present [1#8] true)).pending = some (.present [1#8] true) :: [] ∧
      (hostAt .idle (.present [1#8] true)).status ≠ .busy ∧
      live.pending = some (.supply [5#8]) :: [] ∧ (live.status = .busy → live.srcOpen = true) ∧
      live.src.wf ∧ (hostAt .busy .endSource).pending = some .endSource :: [] ∧
      (hostAt .busy (.alter 4 1#8)).pending = some (.alter 4 1#8) :: [] ∧
      ((hostAt .busy (.alter 4 1#8)).status = .busy → (hostAt .busy (.alter 4 1#8)).runInLen ≤ 4) := by
  decide

theorem witness_EndedRunHasNoStep :
    State.reset.pending = [] ∧ State.reset.status ≠ .busy := by decide

theorem witness_ConfigurationIsFixed : step State.reset = .next State.reset := rfl

/-- A run about to read its end marker, in the invariant. -/
def atEos : State := runAt .doc .loop false [] [0x11#8, 0x00#8, 0x00#8]

theorem atEos_inv : atEos.Inv := by
  constructor <;>
    simp [atEos, runAt, State.reset, Parse.fresh, Emitter.fresh, Memory.ofBytes,
      Memory.numberFrom, State.limit]
  · decide
  · exact Memory.wf_nil
  · exact Memory.wf_nil

theorem witness_PulledStaysInRange :
    atEos.Inv ∧ atEos.pending = [] ∧ atEos.status = .busy ∧ atEos.run = some .dec ∧
      ∃ t, step atEos = .next t ∧ t.status ≠ .busy :=
  ⟨atEos_inv, rfl, rfl, rfl, _, rfl, by intro h; cases h⟩

theorem witness_StepKeepsInvariant : atEos.Inv ∧ ∃ t, step atEos = .next t := ⟨atEos_inv, _, rfl⟩

theorem witness_DecStepMakesProgress :
    atEos.Inv ∧ atEos.pending = [] ∧ atEos.status = .busy ∧ atEos.run = some .dec ∧
      atEos.starved = false ∧ (∃ t, step atEos = .next t) ∧ atEos.phase ≠ .start :=
  ⟨atEos_inv, rfl, rfl, rfl, rfl, ⟨_, rfl⟩, by decide⟩

theorem witness_NoReadBeyondDeclaredLength :
    [0x11#8, 0x00#8, 0x00#8, 0x05#8].take 3 = [0x11#8, 0x00#8, 0x00#8, 0x06#8].take 3 := by decide

theorem witness_TruncationFails :
    decompress .doc [0x11#8, 0x00#8, 0x00#8, 0x05#8] 4 0 = some (.ok []) ∧
      (decRun .doc [0x11#8, 0x00#8, 0x00#8, 0x05#8] 4 0).inPos = 3 := by decide

theorem witness_BytesAfterEndMarkerIgnored :
    decompress .doc [0x11#8, 0x00#8, 0x00#8] [0x11#8, 0x00#8, 0x00#8].length 0 = some (.ok []) := by
  decide

theorem witness_EmitExtInvertsExt : 1 ≤ 1 ∧ 1 ≤ 255 := by decide

theorem witness_EmitMatchInvertsDecode :
    representable .m1 1024 2 .plain = true ∧ representable .m1b 3072 3 .biased = true ∧
      representable .m2 2048 8 .loopEntry = true ∧ representable .m3 16384 3 .loopEntry = true ∧
      representable .m4 49151 300 .plain = true := by decide

theorem witness_ClassifyIsNarrowest :
    classify .doc (fun _ => true) 1 3 .plain = some (.m2, 2) ∧ representable .m3 1 3 .plain = true ∧
      classify .doc (fun _ => true) 49152 3 .plain = none := by decide

theorem witness_CarryPatchTouchesTwoBits :
    Emitter.fresh.c.wf ∧ representable .m2 3 3 .plain = true ∧ 1 ≤ [1#8, 2#8, 3#8].length ∧
      [1#8, 2#8, 3#8].length ≤ 3 ∧ 1 ≤ [1#8].length := by decide

theorem witness_MatchLenIsLargest :
    1 ≤ 1 ∧ 1 ≤ 1 ∧ 1 ≤ [5#8].length := by decide

theorem witness_GreedyBestIsBest :
    greedyBest [5#8, 5#8, 5#8, 5#8] 1 = some (1, 3) ∧ greedyBest [5#8, 5#8, 5#8] 1 = none ∧
      1 ≤ min 1 49151 := by decide

theorem witness_BestCandidateIsBest :
    bestCand .doc [5#8, 5#8, 5#8, 5#8] 1 1 .plain = some ⟨1, 3, 1, .m2⟩ ∧
      1 ∈ candidates [5#8, 5#8, 5#8, 5#8] 1 1 ∧
      classify .doc (fun _ => true) 1 (matchLen [5#8, 5#8, 5#8, 5#8] 1 1) .plain = some (.m2, 2) ∧
      prefixRepeats [5#8, 5#8, 5#8, 5#8] 1 1 ∧
      2 ∈ candidates [5#8, 5#8, 5#8, 5#8] 2 2 ∧ 2 ∉ candidates [5#8, 5#8, 5#8, 5#8] 2 1 ∧
      bestCand .doc [5#8] 0 1 .plain = none ∧
      bestCand .doc [5#8, 5#8, 5#8] 1 1 .loopEntry = none ∧ 1 ∈ candidates [5#8, 5#8, 5#8] 1 1 := by
  decide

theorem witness_AllLiteralResult :
    (∀ i < ([] : List Byte).length, greedyBest [] i = none) ∧
      ∀ i < [0x61#8, 0x62#8].length, greedyBest [0x61#8, 0x62#8] i = none := by decide

/-- An encode run at its first position. -/
def encAt (u : RunUnit) : State :=
  { State.reset with
    status := .busy, run := some u, src := Memory.ofBytes [5#8], runInLen := 1, runLevel := 1 }

theorem witness_EncoderStepFrame :
    (encAt .encg).pending = [] ∧ (encAt .encg).status = .busy ∧ (encAt .encg).run = some .encg ∧
      (encAt .encl).run = some .encl := by decide

/-- An ended parse of the empty input, at a level and with or without a parse A before it. -/
def encEnd (u : RunUnit) (level : Nat) (a : Option Memory) : State :=
  { encAt u with src := [], runLevel := level, firstParse := a }

theorem witness_EncoderParseEnd :
    (encEnd .encg 1 none).starved = false ∧ (encEnd .encg 1 none).search = .reference ∧
      (encEnd .encg 1 none).data.length ≤ (encEnd .encg 1 none).parse.pos ∧
      (encEnd .encl 1 none).runLevel = 1 ∧ (encEnd .encl 9 none).runLevel ≠ 1 ∧
      (encEnd .encl 9 none).firstParse = none ∧ (encEnd .encl 9 (some [])).firstParse = some [] := by
  decide

/-- 44_leveled_encoder R242, by hand: at level 9 the first parse is kept and the second begins afresh. -/
theorem test_parseB :
    ∃ t, step (encEnd .encl 9 none) = .next t ∧ t.status = .busy ∧ t.parse = Parse.fresh ∧
      t.firstParse.map Memory.bytes = some [0x11#8, 0x00#8, 0x00#8] := ⟨_, rfl, rfl, rfl, by decide⟩

theorem witness_EncoderIterationAdvances :
    (encAt .encl).pending = [] ∧ (encAt .encl).status = .busy ∧ (encAt .encl).run = some .encl ∧
      (encAt .encl).starved = false ∧ (encAt .encl).parse.pos < (encAt .encl).data.length := by decide

/-- An encode run at a position of an input, its search the reference one. -/
def encIn (u : RunUnit) (level : Nat) (D : List Byte) (pos : Nat) : State :=
  { encAt u with
    src := Memory.ofBytes D, runInLen := D.length, runLevel := level
    parse := { Parse.fresh with pos := pos } }

/-- "abcXbcdefYabcdef": at 10 "abc" repeats at distance 10 and gains 1, at 11 "bcdef" at distance 7 and
gains 3. -/
def lazyInput : List Byte :=
  [0x61#8, 0x62#8, 0x63#8, 0x58#8, 0x62#8, 0x63#8, 0x64#8, 0x65#8, 0x66#8, 0x59#8, 0x61#8, 0x62#8,
    0x63#8, 0x64#8, 0x65#8, 0x66#8]

theorem witness_GreedyIteration :
    (encIn .encg 1 lazyInput 10).search = .reference ∧ (encIn .encg 1 lazyInput 10).starved = false ∧
      (encIn .encg 1 lazyInput 10).data = lazyInput ∧
      greedyBest lazyInput 10 = some (10, 3) ∧ greedyBest lazyInput 0 = none := by decide

theorem witness_LeveledIteration :
    (encIn .encl 5 lazyInput 10).search = .reference ∧ (5, 16) ∈ depthTable ∧ (1, 1) ∈ depthTable ∧
      (9, 49151) ∈ depthTable ∧ (encIn .encl 5 lazyInput 10).firstParse = none ∧
      (encIn .encl 5 lazyInput 10).runLevel = 5 ∧
      bestCand .doc lazyInput 10 16 (ctxAfterRun .firstMatchOnly false 10) = some ⟨1, 3, 10, .m2⟩ ∧
      bestCand .doc lazyInput 11 16 (ctxAfterRun .firstMatchOnly false 11) = some ⟨3, 5, 7, .m2⟩ ∧
      bestCand .doc lazyInput 0 16 (ctxAfterRun .firstMatchOnly false 0) = none := by decide

/-- 44_leveled_encoder R237, R241, by hand: level 5 is lazy and leaves "a" as a literal, level 4 is not and
takes the match. -/
theorem test_lazyStep :
    (∃ t, step (encIn .encl 5 lazyInput 10) = .next t ∧ t.parse.pos = 11 ∧ t.parse.litStart = 0) ∧
      ∃ t, step (encIn .encl 4 lazyInput 10) = .next t ∧ t.parse.pos = 13 ∧ t.parse.litStart = 13 :=
  ⟨⟨_, rfl, by decide, by decide⟩, ⟨_, rfl, by decide, by decide⟩⟩

theorem witness_EncodersAreAdmissible : 1 ≤ 1 ∧ (9 : Nat) ≤ 9 := by decide

theorem witness_AdmissibleStreamsDecode :
    Admissible .doc greedyUses [] [0x11#8, 0x00#8, 0x00#8] :=
  ⟨Parse.fresh, .fresh, rfl, by decide⟩

/-- The emit law's own clause: distance 2, length 3 written in M3, where Classify returns M2. -/
theorem witness_EmitLaw :
    Emitted .doc
      (emitMatch .doc .m3 2 3 (emitLiterals .doc [0x61#8, 0x62#8] Emitter.fresh))
      [0x61#8, 0x62#8, 0x61#8, 0x62#8, 0x61#8] :=
  .copy _ _ .m3 2 3 (.literals _ _ _ .fresh rfl) (by decide) (by decide)

/-- By hand from 42_token_emit R183, R185, R186: 13 61 62, then M3 with t = 1 and x = 1, then 11 00 00. -/
theorem test_emitAnyClass :
    (emitEos (emitMatch .doc .m3 2 3 (emitLiterals .doc [0x61#8, 0x62#8] Emitter.fresh))).c.bytes =
      [0x13#8, 0x61#8, 0x62#8, 0x21#8, 0x04#8, 0x00#8, 0x11#8, 0x00#8, 0x00#8] ∧
    classify .doc (fun _ => true) 2 3 .plain = some (.m2, 2) := by decide

theorem witness_RoundTrip : 1 ≤ 1 ∧ (9 : Nat) ≤ 9 := by decide

theorem witness_HigherLevelIsNeverLarger : 1 ≤ 9 ∧ (9 : Nat) ≤ 9 := by decide

end Sys2Proof.Tests
end

section
/-! SUPPORT. What one turn of each agent can do, said once: inversion lemmas for the turns of the decoder,
of an encoder and of the block, and for the step. -/

namespace Sys2Proof.Machine

variable {s t : State}

/-- What a next state of the decoder's step is (40_decoder_control R120). -/
theorem State.decStep_next (h : s.decStep = .next t) :
    (∃ i rest, decode s.profile s.phase s.inputLeft = .ok i rest ∧ exec i s = .next t) ∨
      (decode s.profile s.phase s.inputLeft = .underrun ∧
        t = ({ s with ip := max s.ip s.limit } : State).raiseDec .inputUnderrun) ∨
      (decode s.profile s.phase s.inputLeft = .noToken ∧ t = s) := by
  unfold State.decStep at h
  split at h
  · next i rest hd => exact .inl ⟨i, rest, hd, h⟩
  · next hd => cases h; exact .inr (.inl ⟨hd, rfl⟩)
  · next hd => cases h; exact .inr (.inr ⟨hd, rfl⟩)

/-- A turn of DEC is the decoder's step, unless that step would underrun while a live source may still
deliver: then DEC waits (20_memory R54, R58). -/
theorem State.decTurn_next (h : s.decTurn = .next t) :
    (t = s ∧ s.starved = true ∧ ∃ u, s.decStep = .next u ∧ u.phase = .fault .inputUnderrun) ∨
      (s.decStep = .next t ∧ (s.starved = true → t.phase ≠ .fault .inputUnderrun)) := by
  unfold State.decTurn at h
  split at h
  · next hs =>
    split at h
    · next u hu =>
      split at h
      · next hf => cases h; exact .inl ⟨rfl, hs, u, hu, hf⟩
      · next hf => cases h; exact .inr ⟨hu, fun _ => hf⟩
    · cases h
    · cases h
  · next hs => exact .inr ⟨h, fun hs' => absurd hs' hs⟩

/-- A turn of an encoder is its step, unless its live source may still deliver: then it waits. -/
theorem State.encTurn_next {next : State → State} (h : s.encTurn next = .next t) :
    (t = s ∧ s.starved = true) ∨ (t = next s ∧ s.starved = false) := by
  unfold State.encTurn at h
  split at h
  · next hs => cases h; exact .inl ⟨rfl, hs⟩
  · next hs => cases h; exact .inr ⟨rfl, by simpa using hs⟩

/-- A turn of the block is the running unit's turn; without a run nothing moves (70_reset_and_hazards
R291). -/
theorem State.blockStep_next (h : s.blockStep = .next t) :
    (t = s ∧ (s.status = .busy → s.run = none)) ∨
      (s.status = .busy ∧
        ((s.run = some .dec ∧ s.decTurn = .next t) ∨
          (s.run = some .encg ∧ s.encTurn State.encgStep = .next t) ∨
          (s.run = some .encl ∧ s.encTurn State.enclStep = .next t))) := by
  unfold State.blockStep at h
  split at h
  · next hb =>
    split at h
    · next hr => exact .inr ⟨hb, .inl ⟨hr, h⟩⟩
    · next hr => exact .inr ⟨hb, .inr (.inl ⟨hr, h⟩)⟩
    · next hr => exact .inr ⟨hb, .inr (.inr ⟨hr, h⟩)⟩
    · next hr => cases h; exact .inl ⟨rfl, fun _ => hr⟩
  all_goals
    next hb => cases h; exact .inl ⟨rfl, by simp [hb]⟩

/-- A step is a turn of the block, with no entry or an idle one at the head of the host's list, or the
operation at its head (10_state R20). -/
theorem step_next (h : step s = .next t) :
    (s.pending = [] ∧ s.blockStep = .next t) ∨
      (∃ r, s.pending = none :: r ∧ ({ s with pending := r } : State).blockStep = .next t) ∨
      ∃ op r, s.pending = some op :: r ∧ ({ s with pending := r } : State).hostStep op = .next t := by
  unfold step State.turn at h
  split at h
  · next hp => exact .inl ⟨hp, h⟩
  · next r hp => exact .inr (.inl ⟨r, hp, h⟩)
  · next op r hp => exact .inr (.inr ⟨op, r, hp, h⟩)

/-- An operation that is refused under a condition has its one next state (R72, R295). -/
theorem next_of_refusedIf {c : Prop} [Decidable c] {f : Refusal} {u : State}
    (h : (if c then .refused f else .next u : Host.Outcome State Fault Refusal) = .next t) :
    ¬ c ∧ t = u := by
  split at h
  · cases h
  · next hc => cases h; exact ⟨hc, rfl⟩

end Sys2Proof.Machine
end

section
/-! SUPPORT. The configuration is kept by the decoder, the encoders and the host (00_scope R11,
10_state R32). -/

namespace Sys2Proof.Machine

/-- Two states agree on the configuration: the same format profile and the same kind of search. -/
def SameConfig (s t : State) : Prop := t.profile = s.profile ∧ t.search = s.search

theorem SameConfig.refl (s : State) : SameConfig s s := ⟨rfl, rfl⟩

variable {s t : State}

/-! ## The decoder -/

theorem exec_sameConfig {i : Instr} (h : exec i s = .next t) : SameConfig s t := by
  rcases exec_cases i s t h with ⟨n, bs, ph, rfl, -, -⟩ | ⟨n, bs, c, m, rfl, -⟩ | ⟨n, bs, f, rfl⟩ |
    ⟨n, rfl, -⟩
  all_goals exact ⟨rfl, rfl⟩

theorem State.decStep_sameConfig (h : s.decStep = .next t) : SameConfig s t := by
  rcases State.decStep_next h with ⟨i, rest, -, hx⟩ | ⟨-, rfl⟩ | ⟨-, rfl⟩
  · exact exec_sameConfig hx
  · exact ⟨rfl, rfl⟩
  · exact .refl _

theorem State.decTurn_sameConfig (h : s.decTurn = .next t) : SameConfig s t := by
  rcases State.decTurn_next h with ⟨rfl, -⟩ | ⟨hd, -⟩
  · exact .refl _
  · exact State.decStep_sameConfig hd

/-! ## The encoders -/

theorem State.encgStep_sameConfig (s : State) : SameConfig s s.encgStep := by
  unfold State.encgStep
  split <;> exact ⟨rfl, rfl⟩

theorem State.endParse_sameConfig (s : State) : SameConfig s s.endParse := by
  unfold State.endParse
  simp only
  split
  · split <;> exact ⟨rfl, rfl⟩
  · exact ⟨rfl, rfl⟩

theorem State.enclStep_sameConfig (s : State) : SameConfig s s.enclStep := by
  unfold State.enclStep
  split
  · exact ⟨rfl, rfl⟩
  · exact s.endParse_sameConfig

/-- An encoder's turn keeps the configuration when its step does. -/
theorem State.encTurn_sameConfig {next : State → State} (hn : ∀ s, SameConfig s (next s))
    (h : s.encTurn next = .next t) : SameConfig s t := by
  rcases State.encTurn_next h with ⟨rfl, -⟩ | ⟨rfl, -⟩
  · exact .refl _
  · exact hn s

/-! ## The block -/

theorem State.blockStep_sameConfig (h : s.blockStep = .next t) : SameConfig s t := by
  rcases State.blockStep_next h with ⟨rfl, -⟩ | ⟨-, ⟨-, hd⟩ | ⟨-, hg⟩ | ⟨-, hl⟩⟩
  · exact .refl _
  · exact State.decTurn_sameConfig hd
  · exact State.encTurn_sameConfig State.encgStep_sameConfig hg
  · exact State.encTurn_sameConfig State.enclStep_sameConfig hl

/-! ## The host -/

theorem State.start_sameConfig (u : RunUnit) (s : State) : SameConfig s (s.start u) := by
  rcases s.start_cases u with e | ⟨-, -, e⟩
  all_goals rw [e]; exact ⟨rfl, rfl⟩

theorem State.command_sameConfig (v : Nat) (s : State) : SameConfig s (s.command v) := by
  unfold State.command
  split
  · exact s.start_sameConfig .dec
  · exact s.start_sameConfig .encg
  · exact s.start_sameConfig .encl
  · exact .refl s

theorem State.writeReg_sameConfig (r : Reg) (v : Nat) (s : State) :
    SameConfig s (s.writeReg r v) := by
  unfold State.writeReg
  split
  · exact .refl s
  · cases r with
    | cmd => exact s.command_sameConfig v
    | _ => exact ⟨rfl, rfl⟩

theorem State.readRes_sameConfig (h : s.hostStep .readRes = .next t) : SameConfig s t := by
  simp only [State.hostStep] at h
  split at h
  · split at h
    · cases h; exact ⟨rfl, rfl⟩
    · cases h; exact ⟨rfl, rfl⟩
  · cases h; exact ⟨rfl, rfl⟩
  · cases h
  · cases h

theorem State.hostStep_sameConfig {op : HostOp} (h : s.hostStep op = .next t) :
    SameConfig s t := by
  cases op with
  | write r v => cases h; exact s.writeReg_sameConfig r v
  | read r => cases h; exact ⟨rfl, rfl⟩
  | present bs live => obtain ⟨-, rfl⟩ := next_of_refusedIf h; exact ⟨rfl, rfl⟩
  | supply bs => obtain ⟨-, rfl⟩ := next_of_refusedIf h; exact ⟨rfl, rfl⟩
  | endSource => cases h; exact ⟨rfl, rfl⟩
  | alter a v => obtain ⟨-, rfl⟩ := next_of_refusedIf h; exact ⟨rfl, rfl⟩
  | readRes => exact State.readRes_sameConfig h
  | reset => cases h; exact ⟨rfl, rfl⟩

end Sys2Proof.Machine
end

section
/-! The statements of family 00_scope. -/

namespace Sys2Proof.Machine

/-- Settles O36: whichever agent moves, its turn keeps the configuration, and taking an entry off the
host's list does not touch it. -/
theorem configurationIsFixed : Obligations.ConfigurationIsFixed := by
  intro s t h
  rcases step_next h with ⟨-, hb⟩ | ⟨r, -, hb⟩ | ⟨op, r, -, ho⟩
  · exact State.blockStep_sameConfig hb
  · exact State.blockStep_sameConfig (s := { s with pending := r }) hb
  · exact State.hostStep_sameConfig (s := { s with pending := r }) ho

end Sys2Proof.Machine
end

section
/-! SUPPORT. Whatever is decoded is a well-formed instruction of the phase whose header is exactly the bytes
read (30_encoding R81 to R91). -/

namespace Sys2Proof

variable {p : Profile} {ph : Phase} {b : Byte} {bs rest : List Byte} {i : Instr}

/-- `i` stands for the bytes of `bs` before `rest`, and the phase has a row for it. -/
structure ReadAs (p : Profile) (ph : Phase) (bs : List Byte) (i : Instr) (rest : List Byte) : Prop where
  bytes : encode p i ++ rest = bs
  wf : i.wf p = true
  readIn : i.readIn ph = true

/-- The phases in which M2, M3, M4 and EOS are read (R81). -/
def readsMatches (ph : Phase) : Bool :=
  ph == .loop || ph == .dispatch .plain || ph == .dispatch .biased

theorem readsMatches_dispatch (c : Ctx) : readsMatches (.dispatch c) = true := by cases c <;> rfl

theorem decodeM2_readAs (hph : readsMatches ph = true) (hb : 64 ≤ b.toNat)
    (h : decodeM2 b bs = .ok i rest) : ReadAs p ph (b :: bs) i rest := by
  obtain ⟨-, -, hm2, hl, -⟩ := byte_of_fields b
  cases bs with
  | nil => cases h
  | cons x r => cases h; exact ⟨by simp [encode, hm2], by simpa [Instr.wf] using hl hb, hph⟩

theorem decodeM3_readAs (hph : readsMatches ph = true) (hb : 32 ≤ b.toNat) (hb' : b.toNat < 64)
    (h : decodeM3 p b bs = .ok i rest) : ReadAs p ph (b :: bs) i rest := by
  obtain ⟨-, -, -, -, hm3, -⟩ := byte_of_fields b
  unfold decodeM3 at h
  split at h
  · next len lo hi r hr =>
    cases h
    obtain ⟨hw, hbits, hbytes⟩ := readLen_inv _ _ _ _ _ hr
    exact ⟨by simp [encode, hbits, hm3 hb hb', (byte_of_fields lo).1, ← hbytes], hw, hph⟩
  · cases h

theorem decodeM4_readAs (hph : readsMatches ph = true) (hb : 16 ≤ b.toNat) (hb' : b.toNat < 32)
    (h : decodeM4 p b bs = .ok i rest) : ReadAs p ph (b :: bs) i rest := by
  obtain ⟨-, -, -, -, -, hm4⟩ := byte_of_fields b
  obtain ⟨hb4, heos⟩ := hm4 hb hb'
  unfold decodeM4 at h
  split at h
  · next len lo hi r hr =>
    obtain ⟨hw, hbits, hbytes⟩ := readLen_inv _ _ _ _ _ hr
    have hlo := (byte_of_fields lo).1
    split at h
    · next hz =>
      obtain ⟨hh, hd, rfl⟩ := hz
      cases h
      rw [hd] at hlo
      exact ⟨by simp [encode, hbits, (heos hh).1, hlo, ← hbytes], hw, hph⟩
    · next hz =>
      cases h
      refine ⟨by simp [encode, hbits, hb4, hlo, ← hbytes], ?_, hph⟩
      simp only [Instr.wf, hw, Bool.true_and, Bool.or_eq_true, bne_iff_ne, ne_eq]
      tauto
  · cases h

theorem decodeFar_readAs (hph : readsMatches ph = true) (hb : 16 ≤ b.toNat)
    (h : decodeFar p b bs = .ok i rest) : ReadAs p ph (b :: bs) i rest := by
  unfold decodeFar at h
  split at h
  · next h64 => exact decodeM2_readAs hph h64 h
  · split at h
    · next h64 h32 => exact decodeM3_readAs hph h32 (by omega) h
    · next h64 h32 => exact decodeM4_readAs hph hb (by omega) h

theorem decodeLit_readAs (hb : b.toNat < 16) (h : decodeLit p b bs = .ok i rest) :
    ReadAs p .loop (b :: bs) i rest := by
  obtain ⟨-, hlow, -⟩ := byte_of_fields b
  unfold decodeLit at h
  split at h
  · next len r hr =>
    cases h
    obtain ⟨hw, hbits, hbytes⟩ := readLen_inv _ _ _ _ _ hr
    exact ⟨by simp [encode, hbits, (hlow hb).2, ← hbytes], hw, rfl⟩
  · cases h

theorem decodeM1_readAs {c : Ctx} (hb : b.toNat < 16) (h : decodeM1 c b bs = .ok i rest) :
    ReadAs p (.dispatch c) (b :: bs) i rest := by
  obtain ⟨-, hlow, -⟩ := byte_of_fields b
  cases bs with
  | nil => cases h
  | cons x r =>
    cases c <;> cases h
    all_goals exact ⟨by simp [encode, (hlow hb).1], rfl, rfl⟩

theorem decodeStart_readAs (h : decodeStart bs = .ok i rest) : ReadAs p .start bs i rest := by
  unfold decodeStart startBias at h
  split at h
  · cases h
  · split at h
    · split at h
      · cases h; exact ⟨rfl, by simp [Instr.wf]; omega, rfl⟩
      · cases h; exact ⟨rfl, by simp [Instr.wf]; omega, rfl⟩
    · cases h; exact ⟨rfl, rfl, rfl⟩

/-- Whatever is decoded is well formed, belongs to the phase, and its header is exactly the bytes that were
read (R82 to R91, R99). -/
theorem decode_readAs (hph : ∀ n, ph = .trail n → n ≠ 0) (h : decode p ph bs = .ok i rest) :
    ReadAs p ph bs i rest := by
  unfold decode at h
  split at h
  · exact decodeStart_readAs h
  · split at h
    · cases h
    · split at h
      · next hb => exact decodeLit_readAs hb h
      · next hb => exact decodeFar_readAs rfl (by omega) h
  · next c =>
    split at h
    · cases h
    · split at h
      · next hb => exact decodeM1_readAs hb h
      · next hb => exact decodeFar_readAs (readsMatches_dispatch c) (by omega) h
  · next n => cases h; exact ⟨rfl, by simpa [Instr.wf] using hph n rfl, by simp [Instr.readIn]⟩
  · cases h
  · cases h

theorem decodeStart_ne_noToken : decodeStart bs ≠ .noToken := by
  unfold decodeStart
  repeat' split
  all_goals simp

theorem decodeLit_ne_noToken : decodeLit p b bs ≠ .noToken := by
  unfold decodeLit
  split <;> simp

theorem decodeM1_ne_noToken {c : Ctx} : decodeM1 c b bs ≠ .noToken := by
  cases bs <;> cases c <;> simp [decodeM1]

theorem decodeFar_ne_noToken : decodeFar p b bs ≠ .noToken := by
  unfold decodeFar decodeM2 decodeM3 decodeM4
  repeat' split
  all_goals simp

/-- A running phase always has a token, or is short of a byte (10_state R25). -/
theorem decode_ne_noToken (hph : Machine.Running ph) : decode p ph bs ≠ .noToken := by
  unfold decode
  split
  · exact decodeStart_ne_noToken
  · repeat' split
    · simp
    · exact decodeLit_ne_noToken
    · exact decodeFar_ne_noToken
  · repeat' split
    · simp
    · exact decodeM1_ne_noToken
    · exact decodeFar_ne_noToken
  · simp
  · exact absurd rfl hph.1
  · next f => exact absurd rfl (hph.2 f)

/-- The header of an instruction has `headerLen` bytes (R103). -/
theorem length_encode (p : Profile) (i : Instr) : (encode p i).length = Machine.headerLen i := by
  cases i with
  | startPass => exact Laws.EncodeLength.startPass p
  | startTrail nn => exact Laws.EncodeLength.startTrail nn p
  | startLit nn => exact Laws.EncodeLength.startLit nn p
  | lit len => exact Laws.EncodeLength.lit len p
  | m1 d s h => exact Laws.EncodeLength.m1 d s h p
  | m1b d s h => exact Laws.EncodeLength.m1b d s h p
  | m2 l d s h => exact Laws.EncodeLength.m2 l d s h p
  | m3 len d s h => exact Laws.EncodeLength.m3 len d s h p
  | m4 hb len d s h => exact Laws.EncodeLength.m4 hb len d s h p
  | eos len s => exact Laws.EncodeLength.eos len s p
  | trail n => exact Laws.EncodeLength.trail n p

end Sys2Proof
end

section
/-! SUPPORT. What a step of the decoder answers in a run that meets the invariant: how many bytes it used,
and in which of three ways it left the state. -/

namespace Sys2Proof.Machine

variable {s t : State} {n : Nat}

/-- The next states of a step of DEC that used `n` bytes: the run goes on in a phase, a fault is entered, or
the run is finished. -/
inductive DecAnswer (s : State) (n : Nat) : State → Prop where
  | goOn (bs : List Byte) (ph : Phase) (seen : Bool) : Running ph → (∀ k, ph = .trail k → k ≠ 0) →
      DecAnswer s n { s.produce n bs with phase := ph, seenMatch := seen }
  | fault (bs : List Byte) (f : FaultCode) : DecAnswer s n ((s.produce n bs).raiseDec f)
  | finish : DecAnswer s n (s.advance n).finishDec

theorem State.produce_nil (n : Nat) (s : State) : s.produce n [] = s.advance n := by
  simp [State.produce, State.advance]

theorem DecAnswer.raiseAdvance (n : Nat) (f : FaultCode) (s : State) :
    DecAnswer s n ((s.advance n).raiseDec f) := by
  rw [← State.produce_nil]
  exact .fault [] f

theorem DecAnswer.advanceTo (n : Nat) {ph : Phase} (hph : Running ph)
    (htr : ∀ k, ph = .trail k → k ≠ 0) : DecAnswer s n ((s.advance n).setPhase ph) := by
  rw [← State.produce_nil]
  exact .goOn [] ph s.seenMatch hph htr

theorem running_phaseAfter (c : BitVec 2) : Running (phaseAfter c) := by
  unfold phaseAfter
  split <;> simp [Running]

theorem trailPos_phaseAfter (c k : BitVec 2) (h : phaseAfter c = .trail k) : k ≠ 0 := by
  unfold phaseAfter at h
  split at h
  · cases h
  · next hc => cases h; exact hc

/-- START_TRAIL's run is 1 to 3 bytes (30_encoding R82). -/
theorem startRun_ne_zero {nn : Byte} (h : 18 ≤ nn.toNat) (h' : nn.toNat ≤ 20) :
    BitVec.ofNat 2 (startRun nn) ≠ 0 := by
  intro h0
  have := congrArg BitVec.toNat h0
  simp only [startRun, startBias, BitVec.toNat_ofNat, BitVec.ofNat_eq_ofNat] at this
  omega

/-- `t` answers a step that used at least `lo` of the bytes left, or is in FAULT. -/
def Used (s : State) (lo : Nat) (t : State) : Prop :=
  ∃ n, DecAnswer s n t ∧ n ≤ s.inputLeft.length ∧ (lo ≤ n ∨ t.status = .fault)

theorem Used.weaken {lo hi : Nat} (h : Used s hi t) (hlo : lo ≤ hi) : Used s lo t := by
  obtain ⟨n, ha, hn, hl⟩ := h
  exact ⟨n, ha, hn, hl.imp_left hlo.trans⟩

/-- A match token uses its header. -/
theorem matchToken_used {hdr len : Nat} {m : Int} {c : BitVec 2} (hh : hdr ≤ s.inputLeft.length)
    (h : matchToken hdr m len c s = .next t) : Used s hdr t := by
  rcases matchToken_next hdr m len c s t h with ⟨bs, rfl⟩ | rfl
  · exact ⟨hdr, .goOn bs _ true (running_phaseAfter c) (trailPos_phaseAfter c), hh, .inl le_rfl⟩
  · exact ⟨hdr, .raiseAdvance _ _ _, hh, .inl le_rfl⟩

/-- A literal run uses its header and its literal bytes, or all that is left and ends in FAULT. -/
theorem literalRun_used {hdr k : Nat} {ph : Phase} (hw : s.src.wf) (hh : hdr ≤ s.inputLeft.length)
    (hph : Running ph) (htr : ∀ k, ph = .trail k → k ≠ 0)
    (h : literalRun hdr k ph s = .next t) : Used s (hdr + k) t := by
  rw [literalRun_eq _ _ _ _ hw] at h
  rw [List.length_drop] at h
  split at h
  · cases h; exact ⟨hdr + k, .goOn _ ph s.seenMatch hph htr, by omega, .inl le_rfl⟩
  · cases h; exact ⟨_, .fault _ _, by omega, .inr rfl⟩

/-- Every header but that of START_PASS and TRAIL has a byte (30_encoding R103). -/
theorem headerLen_pos {i : Instr} (hp : i ≠ .startPass) (ht : ∀ n, i ≠ .trail n) :
    1 ≤ headerLen i := by
  cases i with
  | startPass => exact absurd rfl hp
  | trail n => exact absurd rfl (ht n)
  | _ => simp [headerLen] <;> omega

/-- A well-formed instruction whose header is there uses at least one byte, or ends in FAULT, unless it is
START_PASS (40_decoder_control R134). -/
theorem exec_used {p : Profile} {i : Instr} (hw : s.src.wf) (hi : i.wf p = true)
    (hh : headerLen i ≤ s.inputLeft.length) (h : exec i s = .next t) :
    Used s (if i = .startPass then 0 else 1) t := by
  have hpos := headerLen_pos (i := i)
  cases i <;> simp only [reduceCtorEq, if_false, if_true]
  case startPass =>
    cases h
    exact ⟨0, .advanceTo 0 (by simp [Running]) (by simp), Nat.zero_le _, .inl le_rfl⟩
  case startTrail nn =>
    simp only [Instr.wf, Bool.and_eq_true, decide_eq_true_eq] at hi
    cases h
    refine ⟨1, .advanceTo 1 (by simp [Running]) ?_, hh, .inl le_rfl⟩
    rintro k ⟨⟩
    exact startRun_ne_zero hi.1 hi.2
  case startLit nn =>
    exact (literalRun_used hw hh (by simp [Running]) (by simp) h).weaken (Nat.le_add_right 1 _)
  case lit len =>
    exact (literalRun_used hw hh (by simp [Running]) (by simp) h).weaken
      (Nat.le_add_right_of_le (hpos (by simp) (by simp)))
  case trail n =>
    have hn : 0 < n.toNat := by
      simpa [Instr.wf, Nat.pos_iff_ne_zero, ← BitVec.toNat_inj] using hi
    exact (literalRun_used hw hh (by simp [Running]) (by simp) h).weaken (Nat.le_add_left_of_le hn)
  case eos len c => cases h; exact ⟨_, .finish, hh, .inl (hpos (by simp) (by simp))⟩
  all_goals exact (matchToken_used hh h).weaken (hpos (by simp) (by simp))

/-- A step of DEC in a run that meets the invariant stays within the read limit, and outside phase START it
uses a byte or faults (40_decoder_control R134). -/
theorem State.Inv.decStep_answer (hi : s.Inv) (hb : s.status = .busy) (hr : s.run = some .dec)
    (h : s.decStep = .next t) :
    ∃ n, DecAnswer s n t ∧ s.ip + n ≤ s.limit ∧ (s.phase ≠ .start → 1 ≤ n ∨ t.status = .fault) := by
  have hip := hi.ipBound hb hr
  have hlen := s.length_inputLeft
  rcases State.decStep_next h with ⟨i, rest, hd, hx⟩ | ⟨-, rfl⟩ | ⟨hd, -⟩
  · obtain ⟨hbytes, hwf, hread⟩ := decode_readAs hi.trailPos hd
    have hh : headerLen i ≤ s.inputLeft.length := by
      rw [← hbytes, ← length_encode s.profile, List.length_append]
      exact Nat.le_add_right _ _
    obtain ⟨n, ha, hn, hl⟩ := exec_used hi.srcWf hwf hh hx
    refine ⟨n, ha, by omega, fun hph => ?_⟩
    have hne : i ≠ .startPass := by
      rintro rfl
      exact hph (by simpa [Instr.readIn] using hread)
    rwa [if_neg hne] at hl
  · have e : ({ s with ip := max s.ip s.limit } : State) = s.advance (s.limit - s.ip) := by
      simp only [State.advance, max_eq_right hip, Nat.add_sub_cancel' hip]
    rw [e]
    exact ⟨_, .raiseAdvance _ _ _, by omega, fun _ => .inr rfl⟩
  · exact absurd hd (decode_ne_noToken (hi.decBusy hb hr))

end Sys2Proof.Machine
end

section
/-! SUPPORT. Where the invariant is established (reset, launch, fault entry, the two ends of a run) and what
keeps it: the decoder, the encoders and the host. -/

namespace Sys2Proof.Machine

variable {s t : State}

/-! ## Where it is established -/

theorem State.hardReset_inv (hw : s.src.wf) : s.hardReset.Inv where
  srcWf := hw
  outWf := Memory.wf_nil
  cWf := Memory.wf_nil
  firstWf := nofun
  trailPos := nofun
  busyRun := nofun
  doneRun := nofun
  ipBound := nofun
  decBusy := nofun
  decDone := nofun
  encDone := nofun
  doneLen := nofun
  notDone _ := ⟨rfl, rfl⟩
  faulted := nofun
  noErr _ := rfl
  levelOk := nofun

/-- Fault entry establishes the invariant (60_exceptions R268). -/
theorem State.raise_inv (f : FaultCode) (hw : s.src.wf) : (s.raise f).Inv where
  srcWf := hw
  outWf := Memory.wf_nil
  cWf := Memory.wf_nil
  firstWf := nofun
  trailPos := nofun
  busyRun := nofun
  doneRun := nofun
  ipBound := nofun
  decBusy := nofun
  decDone := nofun
  encDone := nofun
  doneLen := nofun
  notDone _ := ⟨rfl, rfl⟩
  faulted _ := ⟨f, rfl, rfl, rfl, rfl⟩
  noErr h := absurd rfl h
  levelOk := nofun

/-- A launch establishes the invariant; ENCL is launched with a level in range (70_reset_and_hazards R292,
44_leveled_encoder R231). -/
theorem State.launch_inv {u : RunUnit} (hw : s.src.wf)
    (hl : u = .encl → levelValid s.level = true) : (s.launch u).Inv where
  srcWf := hw
  outWf := Memory.wf_nil
  cWf := Memory.wf_nil
  firstWf := nofun
  trailPos := nofun
  busyRun := nofun
  doneRun := nofun
  ipBound _ _ := Nat.zero_le _
  decBusy _ _ := ⟨nofun, nofun⟩
  decDone := nofun
  encDone := nofun
  doneLen := nofun
  notDone _ := ⟨rfl, rfl⟩
  faulted := nofun
  noErr _ := rfl
  levelOk _ hr := hl (Option.some.inj hr)

theorem State.start_inv (u : RunUnit) (hw : s.src.wf) : (s.start u).Inv := by
  cases u with
  | dec => exact State.launch_inv hw nofun
  | encg => exact State.launch_inv hw nofun
  | encl =>
    unfold State.start
    cases hl : levelValid s.level
    · exact State.raise_inv .invalidLevel hw
    · exact State.launch_inv hw fun _ => hl

/-! ## The decoder -/

/-- Every answer of a step of DEC that stays within the read limit keeps the invariant. -/
theorem State.Inv.decAnswer {n : Nat} (hi : s.Inv) (hb : s.status = .busy) (hr : s.run = some .dec)
    (ha : DecAnswer s n t) (hn : s.ip + n ≤ s.limit) : t.Inv := by
  have hd : s.status ≠ .done := by simp [hb]
  have hf : s.status ≠ .fault := by simp [hb]
  cases ha with
  | fault bs f => exact State.raise_inv f hi.srcWf
  | goOn bs ph seen hph htr =>
    exact { hi with
      outWf := Memory.wf_appendAll _ _ hi.outWf
      trailPos := htr
      ipBound := fun _ _ => hn
      decBusy := fun _ _ => hph
      decDone := fun h => absurd h hd
      doneLen := fun h => absurd h hd
      faulted := fun h => absurd h hf }
  | finish =>
    exact { hi with
      trailPos := nofun
      busyRun := nofun
      doneRun := fun _ => hi.busyRun hb
      ipBound := nofun
      decBusy := nofun
      decDone := fun _ _ => ⟨rfl, rfl⟩
      encDone := fun _ h => absurd hr h
      doneLen := fun _ => by simp [State.result, hr]
      notDone := fun h => absurd rfl h
      faulted := nofun
      noErr := fun _ => hi.noErr hf
      levelOk := nofun }

theorem State.Inv.decTurn (hi : s.Inv) (hb : s.status = .busy) (hr : s.run = some .dec)
    (h : s.decTurn = .next t) : t.Inv := by
  rcases State.decTurn_next h with ⟨rfl, -⟩ | ⟨hd, -⟩
  · exact hi
  · obtain ⟨n, ha, hn, -⟩ := hi.decStep_answer hb hr hd
    exact hi.decAnswer hb hr ha hn

/-! ## The encoders -/

/-- The next states of an encoder's step: at most the parse moves, or the run is finished. -/
inductive EncAnswer (s : State) : State → Prop where
  | parse (q : Parse) (f : Option Memory) : EncAnswer s { s with parse := q, firstParse := f }
  | finish (em : Emitter) : EncAnswer s (s.finishEnc em)

theorem State.encgStep_answer (s : State) : EncAnswer s s.encgStep := by
  unfold State.encgStep
  split
  · exact .parse _ s.firstParse
  · exact .finish _

theorem State.endParse_answer (s : State) : EncAnswer s s.endParse := by
  unfold State.endParse
  simp only
  split
  · split
    · exact .finish _
    · exact .parse _ _
  · exact .finish _

theorem State.enclStep_answer (s : State) : EncAnswer s s.enclStep := by
  unfold State.enclStep
  split
  · exact .parse _ s.firstParse
  · exact s.endParse_answer

/-- The spaces of the encoders are in canonical form: C, and parse A's bytes where they are kept. -/
def State.ParseWf (s : State) : Prop := s.parse.em.c.wf ∧ ∀ a, s.firstParse = some a → a.wf

theorem State.ParseWf.iterate (h : s.ParseWf) (pick : Option Pick) : (s.iterate pick).ParseWf :=
  ⟨parseIter_wf _ _ _ _ h.1, h.2⟩

theorem State.ParseWf.finishEnc (h : s.ParseWf) {em : Emitter} (hem : em.c.wf) :
    (s.finishEnc em).ParseWf := ⟨hem, h.2⟩

theorem State.ParseWf.encgStep (h : s.ParseWf) : s.encgStep.ParseWf := by
  unfold State.encgStep
  split
  · exact h.iterate _
  · exact h.finishEnc (parseEnd_wf _ _ _ h.1)

theorem State.ParseWf.endParse (h : s.ParseWf) : s.endParse.ParseWf := by
  have hem := parseEnd_wf s.profile s.data s.parse h.1
  unfold State.endParse
  simp only
  split
  · split
    · exact h.finishEnc hem
    · exact ⟨Memory.wf_nil, fun a ha => Option.some.inj ha ▸ hem⟩
  · next a ha =>
    apply h.finishEnc
    split
    · exact h.2 a ha
    · exact hem

theorem State.ParseWf.enclStep (h : s.ParseWf) : s.enclStep.ParseWf := by
  unfold State.enclStep
  split
  · exact h.iterate _
  · exact h.endParse

/-- The result of a finished encode run is C (70_reset_and_hazards R294). -/
theorem State.result_finishEnc (em : Emitter) (hr : s.run ≠ some .dec) (hn : s.run ≠ none) :
    (s.finishEnc em).result = em.c.bytes := by
  simp only [State.result, State.finishEnc_status, State.finishEnc_run, State.finishEnc_parse]
  split
  · next h => exact absurd h hr
  · rfl
  · rfl
  · next h => exact absurd h hn

/-- Every answer of an encoder's step keeps the invariant, its spaces being in canonical form. -/
theorem State.Inv.encAnswer (hi : s.Inv) (hb : s.status = .busy) (hr : s.run ≠ some .dec)
    (ha : EncAnswer s t) (hw : t.ParseWf) : t.Inv := by
  have hd : s.status ≠ .done := by simp [hb]
  have hf : s.status ≠ .fault := by simp [hb]
  have hrun := hi.busyRun hb
  cases ha with
  | parse q f =>
    exact { hi with
      cWf := hw.1
      firstWf := hw.2
      doneLen := fun h => absurd h hd
      faulted := fun h => absurd h hf }
  | finish em =>
    exact { hi with
      cWf := hw.1
      firstWf := hw.2
      busyRun := nofun
      doneRun := fun _ => hrun
      ipBound := nofun
      decBusy := nofun
      decDone := fun _ h => absurd h hr
      encDone := fun _ _ => rfl
      doneLen := fun _ => by simp [State.result_finishEnc em hr hrun]
      notDone := fun h => absurd rfl h
      faulted := nofun
      noErr := fun _ => hi.noErr hf
      levelOk := nofun }

theorem State.Inv.encTurn {next : State → State} (hi : s.Inv) (hb : s.status = .busy)
    (hr : s.run ≠ some .dec) (ha : EncAnswer s (next s)) (hw : s.ParseWf → (next s).ParseWf)
    (h : s.encTurn next = .next t) : t.Inv := by
  rcases State.encTurn_next h with ⟨rfl, -⟩ | ⟨rfl, -⟩
  · exact hi
  · exact hi.encAnswer hb hr ha (hw ⟨hi.cWf, hi.firstWf⟩)

/-! ## The block -/

theorem State.Inv.blockStep (hi : s.Inv) (h : s.blockStep = .next t) : t.Inv := by
  rcases State.blockStep_next h with ⟨rfl, -⟩ | ⟨hb, ⟨hr, hd⟩ | ⟨hr, hg⟩ | ⟨hr, hl⟩⟩
  · exact hi
  · exact hi.decTurn hb hr hd
  · exact hi.encTurn hb (by simp [hr]) s.encgStep_answer .encgStep hg
  · exact hi.encTurn hb (by simp [hr]) s.enclStep_answer .enclStep hl

/-! ## The host -/

/-- The invariant does not look at the registers the host writes, the RES cursor, or the model's own
fields. -/
theorem State.Inv.hostFields (hi : s.Inv) (inLen outHint level resPos : Nat)
    (pending : List (Option HostOp)) (rdata : Option Nat) :
    ({ s with inLen := inLen, outHint := outHint, level := level, resPos := resPos,
              pending := pending, rdata := rdata } : State).Inv :=
  { hi with }

/-- A change of the source keeps the invariant where it shortens nothing a run may still read. -/
theorem State.Inv.source (hi : s.Inv) {m : Memory} (live : Bool) (hm : m.wf)
    (hl : s.status = .busy → s.src.size ≤ m.size) :
    ({ s with src := m, srcOpen := live } : State).Inv :=
  { hi with
    srcWf := hm
    ipBound := fun hb hr => (hi.ipBound hb hr).trans (min_le_min_left _ (hl hb)) }

theorem State.Inv.command (hi : s.Inv) (v : Nat) : (s.command v).Inv := by
  unfold State.command
  split
  · exact State.start_inv .dec hi.srcWf
  · exact State.start_inv .encg hi.srcWf
  · exact State.start_inv .encl hi.srcWf
  · exact hi

theorem State.Inv.writeReg (hi : s.Inv) (r : Reg) (v : Nat) : (s.writeReg r v).Inv := by
  unfold State.writeReg
  split
  · exact hi
  · cases r with
    | cmd => exact hi.command v
    | inLen => exact hi.hostFields v s.outHint s.level s.resPos s.pending s.rdata
    | outHint => exact hi.hostFields s.inLen v s.level s.resPos s.pending s.rdata
    | level => exact hi.hostFields s.inLen s.outHint v s.resPos s.pending s.rdata
    | _ => exact hi

theorem State.Inv.readRes (hi : s.Inv) (h : s.hostStep .readRes = .next t) : t.Inv := by
  have read := hi.hostFields s.inLen s.outHint s.level
  simp only [State.hostStep] at h
  split at h
  · split at h
    · next v _ => cases h; exact read (s.resPos + 1) s.pending (some v.toNat)
    · cases h; exact read s.resPos s.pending none
  · cases h; exact read s.resPos s.pending none
  · cases h
  · cases h

theorem State.Inv.hostStep {op : HostOp} (hi : s.Inv) (h : s.hostStep op = .next t) : t.Inv := by
  cases op with
  | write r v => cases h; exact hi.writeReg r v
  | read r =>
    cases h
    exact hi.hostFields s.inLen s.outHint s.level s.resPos s.pending (some (s.readReg r))
  | present bs live =>
    obtain ⟨hb, rfl⟩ := next_of_refusedIf h
    exact hi.source live (Memory.wf_ofBytes bs) fun hb' => absurd hb' hb
  | supply bs =>
    obtain ⟨-, rfl⟩ := next_of_refusedIf h
    exact hi.source s.srcOpen (Memory.wf_appendAll _ _ hi.srcWf) fun _ => by simp
  | endSource => cases h; exact hi.source false hi.srcWf fun _ => le_rfl
  | alter a v =>
    obtain ⟨-, rfl⟩ := next_of_refusedIf h
    exact hi.source s.srcOpen (Memory.wf_modify _ _ _ hi.srcWf) fun _ => by simp
  | readRes => exact hi.readRes h
  | reset => cases h; exact State.hardReset_inv hi.srcWf

theorem State.Inv.setPending (hi : s.Inv) (r : List (Option HostOp)) :
    ({ s with pending := r } : State).Inv :=
  hi.hostFields s.inLen s.outHint s.level s.resPos r s.rdata

end Sys2Proof.Machine
end

section
/-! SUPPORT. The frame of the instructions: what no meaning of a token changes (10_state R20, 20_memory R50,
R52, R61). -/

namespace Sys2Proof.Machine

variable {s t : State}

/-- `t` has the host's side of `s`: the configuration, the host-written registers, the ports, the latched
parameters and the host's own fields. -/
structure SameHostSide (s t : State) : Prop where
  profile : t.profile = s.profile
  search : t.search = s.search
  inLen : t.inLen = s.inLen
  outHint : t.outHint = s.outHint
  level : t.level = s.level
  src : t.src = s.src
  srcOpen : t.srcOpen = s.srcOpen
  resPos : t.resPos = s.resPos
  run : t.run = s.run
  runInLen : t.runInLen = s.runInLen
  runHint : t.runHint = s.runHint
  runLevel : t.runLevel = s.runLevel
  pending : t.pending = s.pending
  rdata : t.rdata = s.rdata

theorem SameHostSide.refl (s : State) : SameHostSide s s := by constructor <;> rfl

theorem exec_sameHostSide {i : Instr} (h : exec i s = .next t) : SameHostSide s t := by
  rcases exec_cases i s t h with ⟨n, bs, ph, rfl, -, -⟩ | ⟨n, bs, c, m, rfl, -⟩ | ⟨n, bs, f, rfl⟩ |
    ⟨n, rfl, -⟩
  all_goals constructor <;> rfl

theorem exec_ip_le {i : Instr} (h : exec i s = .next t) : s.ip ≤ t.ip := by
  rcases exec_cases i s t h with ⟨n, bs, ph, rfl, -, -⟩ | ⟨n, bs, c, m, rfl, -⟩ | ⟨n, bs, f, rfl⟩ |
    ⟨n, rfl, -⟩
  all_goals exact Nat.le_add_right _ n

/-- Without a fault OUT is only appended to, and the encoder's state and ERR are kept. -/
theorem exec_appends {i : Instr} (h : exec i s = .next t) (hf : ∀ f, t.phase ≠ .fault f) :
    t.parse = s.parse ∧ t.firstParse = s.firstParse ∧ t.err = s.err ∧
      ∃ bs, t.out = s.out.appendAll bs := by
  rcases exec_cases i s t h with ⟨n, bs, ph, rfl, -, -⟩ | ⟨n, bs, c, m, rfl, -⟩ | ⟨n, bs, f, rfl⟩ |
    ⟨n, rfl, -⟩
  · exact ⟨rfl, rfl, rfl, bs, rfl⟩
  · exact ⟨rfl, rfl, rfl, bs, rfl⟩
  · exact absurd rfl (hf f)
  · exact ⟨rfl, rfl, rfl, [], by simp⟩

/-- Bytes appended at the end leave the earlier addresses as they were (20_memory R52, R61). -/
theorem Memory.read_appendAll {m : Memory} (hm : m.wf) (bs : List Byte) {a : Nat} (ha : a < m.size) :
    (m.appendAll bs).read a = m.read a := by
  rw [Memory.read_eq _ (Memory.wf_appendAll _ _ hm), Memory.read_eq _ hm, Memory.bytes_appendAll,
    List.getElem?_append_left (by simpa using ha)]

end Sys2Proof.Machine
end

section
/-! SUPPORT. What the answers of a step of DEC say of ip, L, OUT and the pulled count. -/

namespace Sys2Proof.Machine

variable {s t : State} {n : Nat}

theorem DecAnswer.ip_eq (h : DecAnswer s n t) : t.ip = s.ip + n := by cases h <;> rfl

theorem DecAnswer.limit_eq (h : DecAnswer s n t) : t.limit = s.limit := by cases h <;> rfl

theorem DecAnswer.out_or_fault (h : DecAnswer s n t) :
    (∃ bs, t.out = s.out.appendAll bs) ∨ t.status = .fault := by
  cases h with
  | goOn bs => exact .inl ⟨bs, rfl⟩
  | fault => exact .inr rfl
  | finish => exact .inl ⟨[], by simp⟩

/-- The draw of the pulled count stays in its range (20_memory R58). -/
theorem State.drawPulled_range (h : s.ip ≤ s.limit) :
    s.ip ≤ s.drawPulled.pulled ∧ s.drawPulled.pulled ≤ min s.limit (s.ip + Config.prefetchMax) := by
  have hle : s.ip ≤ min s.limit (s.ip + Config.prefetchMax) := le_min h (Nat.le_add_right _ _)
  simp only [State.drawPulled]
  generalize min s.limit (s.ip + Config.prefetchMax) = top at hle ⊢
  have hmod : Config.freePull s.draws % (top - s.ip + 1) < top - s.ip + 1 :=
    Nat.mod_lt _ (Nat.succ_pos _)
  omega

theorem DecAnswer.pulled_range (h : DecAnswer s n t) (hn : s.ip + n ≤ s.limit)
    (hb : s.status = .busy) (ht : t.status ≠ .busy) :
    t.ip ≤ t.pulled ∧ t.pulled ≤ min t.limit (t.ip + Config.prefetchMax) := by
  cases h with
  | goOn => exact absurd hb ht
  | fault bs => exact State.drawPulled_range (s := s.produce n bs) hn
  | finish => exact State.drawPulled_range (s := s.advance n) hn

end Sys2Proof.Machine
end

section
/-! SUPPORT. The block's turn where no unit runs. -/

namespace Sys2Proof.Machine

variable {s : State}

/-- With nothing to make for the host and no run, nothing moves (10_state R25, R269, R291). -/
theorem step_of_not_busy (hp : s.pending = []) (hb : s.status ≠ .busy) : step s = .next s := by
  simp only [step, State.turn, hp, State.blockStep]
  split
  · next h => exact absurd h hb
  all_goals rfl

end Sys2Proof.Machine
end

section
/-! SUPPORT. A run of DEC with a closed source depends on the source only by the bytes below in_len
(10_state R21, 20_memory R51). -/

namespace Sys2Proof.Machine

variable {s t : State} {m : Memory}

/-- The state with another source. -/
def State.withSrc (m : Memory) (s : State) : State := { s with src := m }

/-- What a transaction returns does not look at the source. -/
theorem State.txResult_withSrc (m : Memory) (s : State) : (s.withSrc m).txResult = s.txResult := rfl

/-- An outcome with its next state changed by `f`. -/
def mapNext (f : State → State) : Host.Outcome State Fault Refusal → Host.Outcome State Fault Refusal
  | .next t => .next (f t)
  | .fault r => .fault r
  | .refused r => .refused r

theorem State.limit_eq_length_data (s : State) : s.limit = s.data.length := by
  simp [State.limit, State.data]

theorem State.inputLeft_eq_drop_data (s : State) : s.inputLeft = s.data.drop s.ip := by
  simp only [State.inputLeft, State.data, State.limit]
  congr 1
  rw [List.take_eq_take_iff]
  simp

/-- Another source that a run of `s` cannot tell from its own: in canonical form, with the same bytes below
in_len. -/
structure SameInput (s : State) (m : Memory) : Prop where
  srcWf : s.src.wf
  otherWf : m.wf
  data : (s.withSrc m).data = s.data

theorem SameInput.limit (h : SameInput s m) : (s.withSrc m).limit = s.limit := by
  rw [State.limit_eq_length_data, State.limit_eq_length_data, h.data]

theorem SameInput.inputLeft (h : SameInput s m) : (s.withSrc m).inputLeft = s.inputLeft := by
  rw [State.inputLeft_eq_drop_data, State.inputLeft_eq_drop_data, h.data]
  rfl

theorem SameInput.drawPulled (h : SameInput s m) :
    (s.withSrc m).drawPulled = s.drawPulled.withSrc m := by
  simp only [State.drawPulled, h.limit]
  rfl

theorem SameInput.raiseDec (h : SameInput s m) (f : FaultCode) :
    (s.withSrc m).raiseDec f = (s.raiseDec f).withSrc m := by
  simp only [State.raiseDec, h.drawPulled]
  rfl

theorem SameInput.advance (h : SameInput s m) (n : Nat) : SameInput (s.advance n) m :=
  ⟨h.srcWf, h.otherWf, h.data⟩

theorem SameInput.produce (h : SameInput s m) (n : Nat) (bs : List Byte) :
    SameInput (s.produce n bs) m :=
  ⟨h.srcWf, h.otherWf, h.data⟩

theorem SameInput.literalRun (h : SameInput s m) (hdr n : Nat) (ph : Phase) :
    literalRun hdr n ph (s.withSrc m) = mapNext (State.withSrc m) (literalRun hdr n ph s) := by
  rw [literalRun_eq _ _ _ _ h.srcWf, literalRun_eq _ _ _ (s.withSrc m) h.otherWf, h.inputLeft]
  split
  · rfl
  · exact congrArg _ ((h.produce _ _).raiseDec .inputUnderrun)

theorem SameInput.matchToken (h : SameInput s m) (hdr : Nat) (pos : Int) (len : Nat) (c : BitVec 2) :
    matchToken hdr pos len c (s.withSrc m) =
      mapNext (State.withSrc m) (matchToken hdr pos len c s) := by
  unfold Machine.matchToken
  simp only
  split
  · exact congrArg _ ((h.advance hdr).raiseDec .lookbehindUnderrun)
  · have hout : ((s.withSrc m).advance hdr).out = (s.advance hdr).out := rfl
    rw [hout]
    cases copyMatch pos.toNat len (s.advance hdr).out <;> rfl

theorem SameInput.finishDec (h : SameInput s m) :
    (s.withSrc m).finishDec = s.finishDec.withSrc m := by
  simp only [State.finishDec, h.drawPulled]
  rfl

theorem SameInput.exec (h : SameInput s m) (i : Instr) :
    exec i (s.withSrc m) = mapNext (State.withSrc m) (exec i s) := by
  cases i with
  | startPass => rfl
  | startTrail nn => rfl
  | startLit nn => exact h.literalRun _ _ _
  | lit len => exact h.literalRun _ _ _
  | trail n => exact h.literalRun _ _ _
  | m1 d c hh => exact h.matchToken _ _ _ _
  | m1b d c hh => exact h.matchToken _ _ _ _
  | m2 l d c hh => exact h.matchToken _ _ _ _
  | m3 len d c hh => exact h.matchToken _ _ _ _
  | m4 hb len d c hh => exact h.matchToken _ _ _ _
  | eos len c => exact congrArg _ (h.advance _).finishDec

theorem SameInput.decStep (h : SameInput s m) :
    (s.withSrc m).decStep = mapNext (State.withSrc m) s.decStep := by
  have hd : decode (s.withSrc m).profile (s.withSrc m).phase (s.withSrc m).inputLeft =
      decode s.profile s.phase s.inputLeft := by rw [h.inputLeft]; rfl
  unfold State.decStep
  rw [hd, h.limit]
  cases decode s.profile s.phase s.inputLeft with
  | ok i rest => exact h.exec i
  | underrun =>
    have h' : SameInput { s with ip := max s.ip s.limit } m := ⟨h.srcWf, h.otherWf, h.data⟩
    exact congrArg _ (h'.raiseDec .inputUnderrun)
  | noToken => rfl

/-- The last run is one of DEC, its source is closed, and the host leaves it alone. -/
structure ClosedDec (s : State) : Prop where
  pending : s.pending = []
  srcOpen : s.srcOpen = false
  run : s.run = some .dec

theorem ClosedDec.starved (h : ClosedDec s) : s.starved = false := by
  simp [State.starved, h.srcOpen]

theorem ClosedDec.step_busy (h : ClosedDec s) (hb : s.status = .busy) : step s = s.decStep := by
  rw [step_dec s h.pending hb h.run, s.decTurn_closed h.starved]

theorem State.decStep_sameHostSide (h : s.decStep = .next t) : SameHostSide s t := by
  rcases State.decStep_next h with ⟨i, rest, -, hx⟩ | ⟨-, rfl⟩ | ⟨-, rfl⟩
  · exact exec_sameHostSide hx
  · constructor <;> rfl
  · exact .refl _

theorem ClosedDec.step_sameHostSide (h : ClosedDec s) (hs : step s = .next t) :
    SameHostSide s t := by
  by_cases hb : s.status = .busy
  · exact State.decStep_sameHostSide (h.step_busy hb ▸ hs)
  · cases (step_of_not_busy h.pending hb).symm.trans hs
    exact .refl s

theorem ClosedDec.step_withSrc (h : ClosedDec s) (hi : SameInput s m) :
    step (s.withSrc m) = mapNext (State.withSrc m) (step s) := by
  have h' : ClosedDec (s.withSrc m) := ⟨h.pending, h.srcOpen, h.run⟩
  by_cases hb : s.status = .busy
  · rw [h'.step_busy hb, h.step_busy hb, hi.decStep]
  · rw [step_of_not_busy h'.pending hb, step_of_not_busy h.pending hb]
    rfl

/-- Runs on two sources with the same bytes below in_len go alike, step by step. -/
theorem ClosedDec.runSteps_withSrc (h : ClosedDec s) (hi : SameInput s m) (n : Nat) :
    runSteps n (s.withSrc m) = (runSteps n s).withSrc m := by
  induction n generalizing s with
  | zero => rfl
  | succ n ih =>
    unfold runSteps
    rw [h.step_withSrc hi]
    cases hs : step s with
    | next t =>
      have hh := h.step_sameHostSide hs
      refine ih ⟨hh.pending ▸ h.pending, hh.srcOpen ▸ h.srcOpen, hh.run ▸ h.run⟩
        ⟨hh.src ▸ hi.srcWf, hi.otherWf, ?_⟩
      have hd := hi.data
      simp only [State.data, State.withSrc] at hd ⊢
      rw [hh.runInLen, hh.src, hd]
    | fault f => rfl
    | refused r => rfl

end Sys2Proof.Machine
end

section
/-! SUPPORT. The end of an encoder's parse, case by case (43_greedy_encoder R217, 44_leveled_encoder R242). -/

namespace Sys2Proof.Machine

variable {s t : State}

theorem State.encgStep_end (h : s.data.length ≤ s.parse.pos) :
    s.encgStep = s.finishEnc (parseEnd s.profile s.data s.parse) := by
  simp only [State.encgStep, if_neg h.not_gt]

theorem State.enclStep_end (h : s.data.length ≤ s.parse.pos) : s.enclStep = s.endParse := by
  simp only [State.enclStep, if_neg h.not_gt]

theorem State.endParse_levelOne (hf : s.firstParse = none) (hl : s.runLevel = 1) :
    s.endParse = s.finishEnc (parseEnd s.profile s.data s.parse) := by
  simp [State.endParse, hf, hl]

theorem State.endParse_again (hf : s.firstParse = none) (hl : s.runLevel ≠ 1)
    (hs : s.search = .reference) :
    s.endParse = { s with
      firstParse := some (parseEnd s.profile s.data s.parse).c, parse := Parse.fresh } := by
  simp [State.endParse, hf, hl, hs]

theorem State.endParse_second {a : Memory} (hf : s.firstParse = some a) :
    s.endParse = s.finishEnc
      (if a.size ≤ (parseEnd s.profile s.data s.parse).c.size then
        { parseEnd s.profile s.data s.parse with c := a }
      else parseEnd s.profile s.data s.parse) := by
  simp [State.endParse, hf]

/-- How the end of a reference parse leaves the state, once the source has delivered D. -/
def ParseEnds (s t : State) : Prop :=
  let c : Memory := (parseEnd s.profile s.data s.parse).c
  (s.run = some .encg → t.status = .done ∧ t.parse.em.c = c) ∧
  (s.run = some .encl → s.firstParse = none → s.runLevel = 1 →
    t.status = .done ∧ t.parse.em.c = c) ∧
  (s.run = some .encl → s.firstParse = none → s.runLevel ≠ 1 →
    t.status = .busy ∧ t.firstParse = some c ∧ t.parse = Parse.fresh) ∧
  (s.run = some .encl → ∀ a, s.firstParse = some a →
    t.status = .done ∧ t.parse.em.c = if a.size ≤ c.size then a else c)

theorem State.encgStep_parseEnds (hr : s.run = some .encg) (h : s.data.length ≤ s.parse.pos) :
    ParseEnds s s.encgStep := by
  rw [State.encgStep_end h]
  exact ⟨fun _ => ⟨rfl, rfl⟩, by simp [hr], by simp [hr], by simp [hr]⟩

theorem State.enclStep_parseEnds (hb : s.status = .busy) (hr : s.run = some .encl)
    (hs : s.search = .reference) (h : s.data.length ≤ s.parse.pos) : ParseEnds s s.enclStep := by
  rw [State.enclStep_end h]
  refine ⟨by simp [hr], fun _ hf hl => ?_, fun _ hf hl => ?_, fun _ a hf => ?_⟩
  · rw [State.endParse_levelOne hf hl]
    exact ⟨rfl, rfl⟩
  · rw [State.endParse_again hf hl hs]
    exact ⟨hb, rfl, rfl⟩
  · rw [State.endParse_second hf]
    refine ⟨rfl, ?_⟩
    simp only [State.finishEnc_parse]
    split <;> rfl

/-- A step of an encode run completes: what it answers, and how it ends a reference parse. -/
theorem step_enc (hp : s.pending = []) (hb : s.status = .busy)
    (hr : s.run = some .encg ∨ s.run = some .encl) :
    ∃ t, step s = .next t ∧ EncAnswer s t ∧
      (s.starved = false → s.search = .reference → s.data.length ≤ s.parse.pos → ParseEnds s t) := by
  cases hs : s.starved with
  | true =>
    refine ⟨s, ?_, .parse s.parse s.firstParse, nofun⟩
    rcases hr with hr | hr
    · rw [step_encg s hp hb hr, State.encTurn, if_pos hs]
    · rw [step_encl s hp hb hr, State.encTurn, if_pos hs]
  | false =>
    rcases hr with hr | hr
    · exact ⟨_, by rw [step_encg s hp hb hr, s.encTurn_closed _ hs], s.encgStep_answer,
        fun _ _ h => State.encgStep_parseEnds hr h⟩
    · exact ⟨_, by rw [step_encl s hp hb hr, s.encTurn_closed _ hs], s.enclStep_answer,
        fun _ hk h => State.enclStep_parseEnds hb hr hk h⟩

end Sys2Proof.Machine
end

section
/-! SUPPORT. The host's operations in the cases the statements name (10_state R38 to R43, 70_reset_and_hazards
R292 to R295). -/

namespace Sys2Proof.Machine

variable {s : State}

theorem State.writeReg_busy (r : Reg) (v : Nat) (hb : s.status = .busy) : s.writeReg r v = s := by
  simp only [State.writeReg, if_pos hb]

theorem State.writeReg_cmd (v : Nat) (hb : s.status ≠ .busy) : s.writeReg .cmd v = s.command v := by
  simp only [State.writeReg, if_neg hb]

theorem State.command_ignored {v : Nat} (h1 : v ≠ 1) (h2 : v ≠ 2) (h3 : v ≠ 3) :
    s.command v = s := by
  unfold State.command
  split
  · exact absurd rfl h1
  · exact absurd rfl h2
  · exact absurd rfl h3
  · rfl

theorem State.start_encl (h : 1 ≤ s.level) (h' : s.level ≤ 9) : s.start .encl = s.launch .encl := by
  simp [State.start, levelValid, h, h']

/-- A step on a write of CMD outside a run is the command (R38). -/
theorem step_command {v : Nat} {r : List (Option HostOp)} (hp : s.pending = some (.write .cmd v) :: r)
    (hb : s.status ≠ .busy) : step s = .next (({ s with pending := r } : State).command v) := by
  rw [step_host s _ r hp]
  exact congrArg _ (State.writeReg_cmd (s := { s with pending := r }) v hb)

/-- A read of RES at DONE delivers the byte at the cursor (R43). -/
theorem State.hostStep_readRes {v : Byte} (hd : s.status = .done)
    (hv : s.result[s.resPos]? = some v) :
    s.hostStep .readRes = .next { s with rdata := some v.toNat, resPos := s.resPos + 1 } := by
  simp only [State.hostStep, hd, hv]

theorem State.result_dec (hd : s.status = .done) (hr : s.run = some .dec) : s.result = s.out.bytes := by
  simp only [State.result, hd, hr]

theorem State.result_enc (hd : s.status = .done) (hr : s.run = some .encg ∨ s.run = some .encl) :
    s.result = s.parse.em.c.bytes := by
  rcases hr with hr | hr
  all_goals simp only [State.result, hd, hr]

/-- A change of one byte of a canonical space (R72). -/
theorem Memory.bytes_modify_const {m : Memory} (hm : m.wf) (a : Nat) (v : Byte) :
    (m.modify a fun _ => v).bytes = m.bytes.set a v := by
  rw [Memory.bytes_modify m hm]
  exact List.modify_eq_set (fun _ => v) a m.bytes

end Sys2Proof.Machine
end

section
/-! The statements of family 10_state. -/

namespace Sys2Proof.Machine

/-- Settles O38: whichever agent moves keeps the invariant. -/
theorem stepKeepsInvariant : Obligations.StepKeepsInvariant := by
  intro s t hi h
  rcases step_next h with ⟨-, hb⟩ | ⟨r, -, hb⟩ | ⟨op, r, -, ho⟩
  · exact hi.blockStep hb
  · exact (hi.setPending r).blockStep hb
  · exact (hi.setPending r).hostStep ho

/-- Settles O39: reset is a hardware reset with an empty source. -/
theorem resetMeetsInvariant : Obligations.ResetMeetsInvariant :=
  State.hardReset_inv (s := State.reset) Memory.wf_nil

/-- Settles O24: the host's side is kept by every meaning, and what is not faulted only appends. -/
theorem instructionFrame : Obligations.InstructionFrame := by
  intro i s t h
  have same := exec_sameHostSide h
  refine ⟨⟨same.profile, same.search, same.inLen, same.outHint, same.level, same.src, same.srcOpen,
    same.resPos, same.run, same.runInLen, same.runHint, same.runLevel, same.pending, same.rdata,
    exec_ip_le h⟩, fun hf => ?_⟩
  obtain ⟨hparse, hfirst, herr, bs, hout⟩ := exec_appends h hf
  exact ⟨hparse, hfirst, herr, ⟨bs, hout⟩, fun hw a ha => hout ▸ Memory.read_appendAll hw bs ha⟩

/-- Settles O25: only AfterMatch writes seen_match, and only the match tokens reach it. -/
theorem seenMatchIsSetByMatches : Obligations.SeenMatchIsSetByMatches := by
  intro i s t h hf
  rcases exec_cases i s t h with ⟨n, bs, ph, rfl, -, hm⟩ | ⟨n, bs, c, m, rfl, hm⟩ | ⟨n, bs, f, rfl⟩ |
    ⟨n, rfl, hm⟩
  · simp [hm]
  · simp [hm]
  · exact absurd rfl (hf f)
  · simp [hm]

/-- Settles O37: a run ends by a fault or by EOS, and both draw the count within its range. -/
theorem pulledStaysInRange : Obligations.PulledStaysInRange := by
  intro s t hi hp hb hr h ht
  rw [step_dec s hp hb hr] at h
  rcases State.decTurn_next h with ⟨rfl, -⟩ | ⟨hd, -⟩
  · exact absurd hb ht
  · obtain ⟨n, ha, hn, -⟩ := hi.decStep_answer hb hr hd
    exact ha.pulled_range hn hb ht

/-- Settles O40: the bytes a step of DEC uses are counted by its answer. -/
theorem decStepMakesProgress : Obligations.DecStepMakesProgress := by
  intro s t hi hp hb hr hs h
  rw [step_dec s hp hb hr, s.decTurn_closed hs] at h
  obtain ⟨n, ha, hn, hprog⟩ := hi.decStep_answer hb hr h
  rw [ha.ip_eq, ha.limit_eq]
  refine ⟨fun hph => ?_, Nat.le_add_right _ _, hn, ha.out_or_fault⟩
  rcases hprog hph with h1 | hf
  · exact .inl (Nat.lt_add_of_pos_right h1)
  · exact .inr (by simp [hf])

/-- Settles O43: the two runs go alike step by step, and a result does not look at the source. -/
theorem noReadBeyondDeclaredLength : Obligations.NoReadBeyondDeclaredLength := by
  intro p bs bs' inLen hint h
  have hfuel : min inLen bs.length = min inLen bs'.length := by
    simpa using congrArg List.length h
  have hin : SameInput ((callState p .reference bs inLen hint 0).start .dec) (Memory.ofBytes bs') :=
    ⟨Memory.wf_ofBytes bs, Memory.wf_ofBytes bs', by
      simpa [State.data, State.withSrc, State.start, State.launch, callState] using h.symm⟩
  have hrun := ClosedDec.runSteps_withSrc ⟨rfl, rfl, rfl⟩ hin (min inLen bs.length + 1)
  unfold decompress decRun
  rw [← hfuel, ← State.txResult_withSrc (Memory.ofBytes bs')]
  exact (congrArg State.txResult hrun).symm

/-- Settles O54: a step of an encoder moves the parse or finishes the run, and a parse ends by R242. -/
theorem encoderStepFrame : Obligations.EncoderStepFrame := by
  intro s hp hb hr
  obtain ⟨t, ht, ha, hend⟩ := step_enc hp hb hr
  refine ⟨t, ht, ?_⟩
  cases ha with
  | parse q f =>
    exact ⟨.inl hb, rfl, rfl, rfl, rfl, rfl, rfl, rfl, rfl, rfl, rfl, rfl, rfl, rfl, rfl, rfl, rfl, rfl,
      rfl, rfl, rfl, hp, fun _ => ⟨rfl, rfl⟩, fun hd => by simp [hb] at hd, hend⟩
  | finish em =>
    exact ⟨.inr rfl, rfl, rfl, rfl, rfl, rfl, rfl, rfl, rfl, rfl, rfl, rfl, rfl, rfl, rfl, rfl, rfl, rfl,
      rfl, rfl, rfl, hp, nofun, fun _ => ⟨rfl, rfl⟩, hend⟩

/-- Settles O27: the values of reset, and a host reset gives the same registers. -/
theorem resetLeavesTheRegisters : Obligations.ResetLeavesTheRegisters := by
  refine ⟨rfl, rfl, rfl, rfl, rfl, rfl, rfl, rfl, fun s r hp => ?_⟩
  exact ⟨_, step_host s _ r hp, rfl, rfl, rfl, rfl, rfl, rfl, rfl, rfl⟩

/-- Settles O28: each start command is a launch of its unit. -/
theorem startCommandLaunches : Obligations.StartCommandLaunches := by
  intro s u v r hp hb hv
  rw [step_command hp hb]
  rcases hv with ⟨rfl, rfl⟩ | ⟨rfl, rfl⟩ | ⟨rfl, rfl, h1, h9⟩
  · rfl
  · rfl
  · exact congrArg _ (State.start_encl (s := { s with pending := r }) h1 h9)

/-- Settles O30: R41 and D24 register by register. -/
theorem registerWrites : Obligations.RegisterWrites := by
  intro s reg v r hp
  refine ⟨fun hb => ?_, fun hb => ⟨?_, ?_, ?_, ?_⟩⟩
  · rw [step_host s _ r hp]
    exact congrArg _ (State.writeReg_busy (s := { s with pending := r }) reg v hb)
  · rintro rfl h1 h2 h3
    rw [step_command hp hb, State.command_ignored h1 h2 h3]
  all_goals
    rintro rfl
    simp only [step_host s _ r hp, State.hostStep, State.writeReg, if_neg hb]

/-- Settles O31: the value read is that of `readReg`, with the codes of R39 and R40. -/
theorem registerReads : Obligations.RegisterReads := by
  intro s reg r hp
  refine ⟨({ s with pending := r } : State).readReg reg, step_host s _ r hp, ?_, ?_, ?_, ?_⟩
  · rintro rfl; rfl
  · rintro rfl
    exact ⟨congrArg Status.code, congrArg Status.code, congrArg Status.code, congrArg Status.code⟩
  · rintro rfl
    exact ⟨congrArg errCode, congrArg errCode, congrArg errCode, congrArg errCode⟩
  · refine ⟨?_, ?_, ?_, ?_, ?_⟩
    all_goals rintro rfl; rfl

/-- Settles O32: RES by STATUS and by the unit of the run. -/
theorem resDeliversTheResult : Obligations.ResDeliversTheResult := by
  intro s r hp
  have hstep := step_host s _ r hp
  refine ⟨fun hd hr v hv => ?_, fun hd hr v hv => ?_, fun hf => ?_, fun hs => ?_⟩
  · rw [hstep]
    apply State.hostStep_readRes (s := { s with pending := r }) hd
    rwa [State.result_dec (s := { s with pending := r }) hd hr]
  · rw [hstep]
    apply State.hostStep_readRes (s := { s with pending := r }) hd
    rwa [State.result_enc (s := { s with pending := r }) hd hr]
  · simp only [hstep, State.hostStep, hf]
  · rcases hs with hs | hs
    all_goals simp only [hstep, State.hostStep, hs]

/-- Settles O34: each operation on the source keeps it canonical and gives the bytes R293 and R72 name. -/
theorem sourceOperations : Obligations.SourceOperations := by
  intro s r
  refine ⟨fun bs live hp hb => ?_, fun bs hp hb hw => ?_, fun hp => step_host s _ r hp,
    fun a v hp hb hw => ?_⟩
  · refine ⟨Memory.ofBytes bs, ?_, Memory.wf_ofBytes bs, Memory.bytes_ofBytes bs⟩
    simp only [step_host s _ r hp, State.hostStep, if_neg hb]
  · refine ⟨s.src.appendAll bs, ?_, Memory.wf_appendAll _ _ hw, Memory.bytes_appendAll _ _⟩
    have hc : ¬ (s.status = .busy ∧ s.srcOpen = false) := fun ⟨h, h'⟩ => by simp [hb h] at h'
    simp only [step_host s _ r hp, State.hostStep, if_neg hc]
  · refine ⟨s.src.modify a fun _ => v, ?_, Memory.wf_modify _ _ _ hw, Memory.bytes_modify_const hw a v⟩
    have hc : ¬ (s.status = .busy ∧ a < s.runInLen) := fun ⟨h, h'⟩ => absurd h' (hb h).not_gt
    simp only [step_host s _ r hp, State.hostStep, if_neg hc]

/-- Settles O35: with nothing listed the turn is the block's, and without a run it leaves the state. -/
theorem endedRunHasNoStep : Obligations.EndedRunHasNoStep := fun _ hp hb => step_of_not_busy hp hb

end Sys2Proof.Machine
end

section
/-! SUPPORT. What a copied match reads as, and the decoder's answers to a missing header. -/

namespace Sys2Proof.Machine

variable {s : State}

/-- Appended bytes stand at the addresses from the old end on (20_memory R52, R61). -/
theorem Memory.read_appendAll_size_add {m : Memory} (hm : m.wf) (bs : List Byte) (k : Nat) :
    (m.appendAll bs).read (m.size + k) = bs[k]? := by
  rw [Memory.read_eq _ (Memory.wf_appendAll _ _ hm), Memory.bytes_appendAll, ← Memory.bytes_length,
    List.getElem?_append_right (Nat.le_add_right _ _), Nat.add_sub_cancel_left]

/-- Byte `k` of a match from inside the sequence is one of its own bytes (R66). -/
theorem getElem?_periodic {bs : List Byte} {m len k : Nat} (hm : m < bs.length) (hk : k < len) :
    (periodic bs m len)[k]? = bs[m + k % (bs.length - m)]? := by
  have hlt : m + k % (bs.length - m) < bs.length := by
    have := Nat.mod_lt k (Nat.sub_pos_of_lt hm)
    omega
  simp [periodic, hk, hlt]

/-- A header cut short ends the decoder's step in the fault, with every byte up to L used (R54, R261). -/
theorem State.decStep_underrun (hip : s.ip ≤ s.limit)
    (hd : decode s.profile s.phase s.inputLeft = .underrun) :
    s.decStep = .next (({ s with ip := s.limit } : State).raiseDec .inputUnderrun) := by
  simp only [State.decStep, hd, max_eq_right hip]

/-- Fault entry from a state that differs in the input cursor only (60_exceptions R268). -/
theorem State.faultFrom_setIp (ip : Nat) (f : FaultCode) (s : State) :
    s.FaultFrom f ip (({ s with ip := ip } : State).raiseDec f) := ⟨_, _, rfl⟩

end Sys2Proof.Machine
end

section
/-! The statements of family 20_memory. -/

namespace Sys2Proof.Machine

/-- Settles O26: the copy appends the periodic bytes, and OUT is read before and after its old end. -/
theorem copyMatchIsPeriodic : Obligations.CopyMatchIsPeriodic := by
  intro o m len ho hm
  refine ⟨_, copyMatch_eq o ho m len hm, Memory.wf_appendAll _ _ ho, ?_,
    fun a ha => Memory.read_appendAll ho _ ha, fun k hk => ?_⟩
  · rw [Memory.size_appendAll, length_periodic]
  · have hm' : m < o.bytes.length := by rwa [Memory.bytes_length]
    rw [Memory.read_appendAll_size_add ho, getElem?_periodic hm' hk, Memory.bytes_length,
      Memory.read_eq o ho]

/-- Settles O22: with no live source the turn is the decoder's step, which raises at L. -/
theorem shortHeaderRaisesUnderrun : Obligations.ShortHeaderRaisesUnderrun := by
  intro s hb hr hs hp hip hd
  rw [step_dec s hp hb hr, s.decTurn_closed hs, State.decStep_underrun hip hd]
  exact ⟨_, rfl, s.faultFrom_setIp s.limit .inputUnderrun⟩

/-- Settles O33: each operation is refused by its own guard, which a run in progress meets. -/
theorem alteredInputIsRefused : Obligations.AlteredInputIsRefused := by
  intro s r hb
  refine ⟨fun a v hp ha => ?_, fun bs live hp => ?_⟩
  · rw [step_host s _ r hp]
    exact if_pos ⟨hb, ha⟩
  · rw [step_host s _ r hp]
    exact if_pos hb

end Sys2Proof.Machine
end

section
/-! SUPPORT. What the decoder reads from an encoded header: the first bytes of each row and their fields,
the encoded length field, and the branch a first byte takes (30_encoding R81 to R90). -/

namespace Sys2Proof

variable {p : Profile} {ph : Phase} {b : Byte} {bs rest : List Byte} {i : Instr}

/-! ## The range of a row's first byte (R81) -/

theorem litByte_lt (l : BitVec 4) : (0#4 ++ l : Byte).toNat < 16 := by
  have hl := l.isLt
  simp only [Machine.toNat_append, BitVec.toNat_ofNat]
  omega

theorem m1Byte_lt (d s : BitVec 2) : (0#4 ++ d ++ s : Byte).toNat < 16 := by
  have hd := d.isLt
  have hs := s.isLt
  simp only [Machine.toNat_append, BitVec.toNat_ofNat]
  omega

theorem le_m2Byte {l : BitVec 3} (d : BitVec 3) (s : BitVec 2) (hl : 2 ≤ l.toNat) :
    64 ≤ (l ++ d ++ s : Byte).toNat := by
  simp only [Machine.toNat_append]
  omega

theorem m3Byte_range (l : BitVec 5) : 32 ≤ (1#3 ++ l : Byte).toNat ∧ (1#3 ++ l : Byte).toNat < 64 := by
  have hl := l.isLt
  simp only [Machine.toNat_append, BitVec.toNat_ofNat]
  omega

theorem m4Byte_range (hb : BitVec 1) (l : BitVec 3) :
    16 ≤ (1#4 ++ hb ++ l : Byte).toNat ∧ (1#4 ++ hb ++ l : Byte).toNat < 32 := by
  have hh := hb.isLt
  have hl := l.isLt
  simp only [Machine.toNat_append, BitVec.toNat_ofNat]
  omega

/-- The end marker's first byte is that of an M4 with H' = 0 (R89). -/
theorem eosByte_eq (l : BitVec 3) : (2#5 ++ l : Byte) = (1#4 ++ 0#1 ++ l : Byte) := rfl

theorem eosByte_lt (l : BitVec 3) : (2#5 ++ l : Byte).toNat < 24 := by
  have hl := l.isLt
  simp only [Machine.toNat_append, BitVec.toNat_ofNat]
  omega

/-! ## The fields of a row's bytes (R83 to R89) -/

theorem m1Byte_fields (d s : BitVec 2) :
    (0#4 ++ d ++ s : Byte).extractLsb' 2 2 = d ∧ (0#4 ++ d ++ s : Byte).extractLsb' 0 2 = s := by
  revert d s; decide

theorem m2Byte_fields (l d : BitVec 3) (s : BitVec 2) :
    (l ++ d ++ s : Byte).extractLsb' 5 3 = l ∧ (l ++ d ++ s : Byte).extractLsb' 2 3 = d ∧
      (l ++ d ++ s : Byte).extractLsb' 0 2 = s := by
  revert l d s; decide

theorem m4Byte_fields (hb : BitVec 1) (l : BitVec 3) :
    (1#4 ++ hb ++ l : Byte).extractLsb' 3 1 = hb ∧ (1#4 ++ hb ++ l : Byte).extractLsb' 0 3 = l := by
  revert hb l; decide

/-! ## Length fields (R90, R129) -/

/-- Continuing bytes and a terminator are read as one extension (R90). -/
theorem readExt_replicate {v : Byte} (hv : v ≠ p.extCont.byte) (k : Nat) (rest : List Byte) :
    readExt p (List.replicate k p.extCont.byte ++ v :: rest) = some (k, v, rest) := by
  induction k with
  | zero => simp [readExt, hv]
  | succ k ih => simp [List.replicate_succ, readExt, ih]

/-- A well-formed length field is read back from its bits and its extension. -/
theorem readLen_bits {w : Nat} {len : LenField w} (hw : len.wf p = true) (rest : List Byte) :
    readLen p len.bits (len.extBytes p ++ rest) = some (len, rest) := by
  cases len with
  | inline l =>
    have hl : l ≠ 0 := by simpa [LenField.wf] using hw
    exact if_neg hl
  | ext k v =>
    have hv : v ≠ p.extCont.byte := by simpa [LenField.wf] using hw
    simp [readLen, LenField.bits, LenField.extBytes, readExt_replicate hv]

/-! ## The branch a first byte takes (R81, R151) -/

theorem decode_loop_low (hb : b.toNat < 16) : decode p .loop (b :: bs) = decodeLit p b bs := if_pos hb

theorem decode_dispatch_low {c : Ctx} (hb : b.toNat < 16) :
    decode p (.dispatch c) (b :: bs) = decodeM1 c b bs := if_pos hb

theorem readsMatches_iff : readsMatches ph = true ↔ ph = .loop ∨ ∃ c, ph = .dispatch c := by
  constructor
  · simp only [readsMatches, Bool.or_eq_true, beq_iff_eq]
    rintro ((h | h) | h)
    · exact .inl h
    · exact .inr ⟨_, h⟩
    · exact .inr ⟨_, h⟩
  · rintro (rfl | ⟨c, rfl⟩)
    · rfl
    · exact readsMatches_dispatch c

theorem decode_far (hph : readsMatches ph = true) (hb : 16 ≤ b.toNat) :
    decode p ph (b :: bs) = decodeFar p b bs := by
  obtain rfl | ⟨c, rfl⟩ := readsMatches_iff.1 hph
  · exact if_neg (by omega)
  · exact if_neg (by omega)

theorem decode_m2 (hph : readsMatches ph = true) (hb : 64 ≤ b.toNat) :
    decode p ph (b :: bs) = decodeM2 b bs := by
  rw [decode_far hph (by omega), decodeFar, if_pos hb]

theorem decode_m3 (hph : readsMatches ph = true) (hb : 32 ≤ b.toNat) (hb' : b.toNat < 64) :
    decode p ph (b :: bs) = decodeM3 p b bs := by
  rw [decode_far hph (by omega), decodeFar, if_neg (by omega), if_pos hb]

theorem decode_m4 (hph : readsMatches ph = true) (hb : 16 ≤ b.toNat) (hb' : b.toNat < 32) :
    decode p ph (b :: bs) = decodeM4 p b bs := by
  rw [decode_far hph hb, decodeFar, if_neg (by omega), if_neg (by omega)]

/-! ## The encoded header read back, row by row -/

theorem decodeStart_startTrail {nn : Byte} (hw : (Instr.startTrail nn).wf p = true) :
    decodeStart (nn :: rest) = .ok (.startTrail nn) rest := by
  simp only [Instr.wf, Bool.and_eq_true, decide_eq_true_eq] at hw
  have hlo : startBias < nn.toNat := by unfold startBias; omega
  have hrun : nn.toNat - startBias < 4 := by unfold startBias; omega
  rw [decodeStart, if_pos hlo, if_pos hrun]

theorem decodeStart_startLit {nn : Byte} (hw : (Instr.startLit nn).wf p = true) :
    decodeStart (nn :: rest) = .ok (.startLit nn) rest := by
  simp only [Instr.wf, decide_eq_true_eq] at hw
  have hlo : startBias < nn.toNat := by unfold startBias; omega
  have hrun : ¬ nn.toNat - startBias < 4 := by unfold startBias; omega
  rw [decodeStart, if_pos hlo, if_neg hrun]

theorem decode_encode_lit {len : LenField 4} (hw : len.wf p = true) :
    decode p .loop (encode p (.lit len) ++ rest) = .ok (.lit len) rest := by
  simp only [encode, List.cons_append]
  rw [decode_loop_low (litByte_lt _), decodeLit, (extractLsb'_append _ _).1, readLen_bits hw]

theorem decode_encode_m2 {l : BitVec 3} (hph : readsMatches ph = true) (hl : 2 ≤ l.toNat)
    (d : BitVec 3) (s : BitVec 2) (h : Byte) :
    decode p ph (encode p (.m2 l d s h) ++ rest) = .ok (.m2 l d s h) rest := by
  obtain ⟨hl', hd, hs⟩ := m2Byte_fields l d s
  simp only [encode, List.cons_append, List.nil_append]
  rw [decode_m2 hph (le_m2Byte d s hl), decodeM2, hl', hd, hs]

theorem decode_encode_m3 {len : LenField 5} (hph : readsMatches ph = true) (hw : len.wf p = true)
    (d : BitVec 6) (s : BitVec 2) (h : Byte) :
    decode p ph (encode p (.m3 len d s h) ++ rest) = .ok (.m3 len d s h) rest := by
  obtain ⟨hlo, hhi⟩ := m3Byte_range len.bits
  obtain ⟨hs, hd⟩ := extractLsb'_append d s
  simp only [encode, List.cons_append, List.append_assoc, List.nil_append]
  rw [decode_m3 hph hlo hhi, decodeM3, (extractLsb'_append _ _).1, readLen_bits hw]
  simp only [hd, hs]

/-- M4 and the end marker have one reading: which of the two it is, the distance fields say (R88, R89). -/
theorem decode_m4_bytes {len : LenField 3} (hph : readsMatches ph = true) (hw : len.wf p = true)
    (hb : BitVec 1) (d : BitVec 6) (s : BitVec 2) (h : Byte) :
    decode p ph ((1#4 ++ hb ++ len.bits : Byte) :: (len.extBytes p ++ (d ++ s : Byte) :: h :: rest)) =
      if hb = 0#1 ∧ d = 0#6 ∧ h = 0#8 then .ok (.eos len s) rest else .ok (.m4 hb len d s h) rest := by
  obtain ⟨hlo, hhi⟩ := m4Byte_range hb len.bits
  obtain ⟨hhb, hlen⟩ := m4Byte_fields hb len.bits
  obtain ⟨hs, hd⟩ := extractLsb'_append d s
  rw [decode_m4 hph hlo hhi, decodeM4, hlen, readLen_bits hw]
  simp only [hd, hs, hhb]

theorem decode_encode_m4 {len : LenField 3} {hb : BitVec 1} {d : BitVec 6} {s : BitVec 2} {h : Byte}
    (hph : readsMatches ph = true) (hw : (Instr.m4 hb len d s h).wf p = true) :
    decode p ph (encode p (.m4 hb len d s h) ++ rest) = .ok (.m4 hb len d s h) rest := by
  simp only [Instr.wf, Bool.and_eq_true, Bool.or_eq_true, bne_iff_ne, ne_eq] at hw
  obtain ⟨hlen, hne⟩ := hw
  simp only [encode, List.cons_append, List.append_assoc, List.nil_append]
  rw [decode_m4_bytes hph hlen, if_neg (by simp only [BitVec.ofNat_eq_ofNat] at hne; tauto)]

theorem decode_encode_eos {len : LenField 3} (hph : readsMatches ph = true) (hw : len.wf p = true)
    (s : BitVec 2) : decode p ph (encode p (.eos len s) ++ rest) = .ok (.eos len s) rest := by
  simp only [encode, List.cons_append, List.append_assoc, List.nil_append]
  rw [eosByte_eq, decode_m4_bytes hph hw, if_pos ⟨rfl, rfl, rfl⟩]

/-- Decoding the header of a well-formed instruction in a phase of its row gives it back (R82 to R91);
START_PASS only looks at the byte that follows (R121). -/
theorem decode_encode (hw : i.wf p = true) (hr : i.readIn ph = true)
    (hs : i = .startPass → ∃ b r, rest = b :: r ∧ b.toNat ≤ 17) :
    decode p ph (encode p i ++ rest) = .ok i rest := by
  cases i with
  | startPass =>
    obtain ⟨b, r, rfl, hb⟩ := hs rfl
    obtain rfl := eq_of_beq hr
    exact if_neg (by unfold startBias; omega)
  | startTrail nn => obtain rfl := eq_of_beq hr; exact decodeStart_startTrail hw
  | startLit nn => obtain rfl := eq_of_beq hr; exact decodeStart_startLit hw
  | lit len => obtain rfl := eq_of_beq hr; exact decode_encode_lit hw
  | m1 d s h =>
    obtain rfl := eq_of_beq hr
    obtain ⟨hd, hs⟩ := m1Byte_fields d s
    simp only [encode, List.cons_append, List.nil_append]
    rw [decode_dispatch_low (m1Byte_lt d s), decodeM1, hd, hs]
  | m1b d s h =>
    obtain rfl := eq_of_beq hr
    obtain ⟨hd, hs⟩ := m1Byte_fields d s
    simp only [encode, List.cons_append, List.nil_append]
    rw [decode_dispatch_low (m1Byte_lt d s), decodeM1, hd, hs]
  | m2 l d s h => exact decode_encode_m2 hr (of_decide_eq_true hw) d s h
  | m3 len d s h => exact decode_encode_m3 hr hw d s h
  | m4 hb len d s h => exact decode_encode_m4 hr hw
  | eos len s => exact decode_encode_eos hr hw s
  | trail n => obtain rfl := eq_of_beq hr; rfl

end Sys2Proof
end

section
/-! SUPPORT. What a decoded instruction says of the bytes and the phase: its row, the byte START_PASS looks
at, and that bytes after a header do not change its reading (30_encoding R81, R103, R121). -/

namespace Sys2Proof

variable {p : Profile} {ph : Phase} {b : Byte} {bs rest : List Byte} {i : Instr}

/-- START_PASS is decoded in START, at a byte 0 to 17 that stays unread (R121). -/
theorem decode_startPass (h : decode p ph bs = .ok .startPass rest) :
    rest = bs ∧ ∃ b r, rest = b :: r ∧ b.toNat ≤ 17 := by
  have hph : ∀ n, ph ≠ .trail n := by rintro n rfl; cases h
  obtain ⟨hbytes, -, hr⟩ := decode_readAs (fun n hn => absurd hn (hph n)) h
  refine ⟨hbytes, ?_⟩
  obtain rfl := eq_of_beq hr
  obtain rfl : rest = bs := hbytes
  simp only [decode] at h
  unfold decodeStart at h
  split at h
  · cases h
  · next b r =>
    refine ⟨b, r, rfl, ?_⟩
    by_contra hlt
    rw [if_pos (show startBias < b.toNat from not_le.1 hlt)] at h
    split at h <;> cases h

/-- An instruction other than START_PASS is in the row of its header's first byte (R81). -/
theorem ReadAs.rowSelected (h : ReadAs p ph (b :: bs) i rest) (hi : i ≠ .startPass) :
    Machine.rowSelected ph b i := by
  obtain ⟨hbytes, hw, hr⟩ := h
  cases i with
  | startPass => exact absurd rfl hi
  | startTrail nn =>
    obtain ⟨rfl, -⟩ := List.cons.inj hbytes
    simp only [Instr.wf, Bool.and_eq_true, decide_eq_true_eq] at hw
    exact ⟨eq_of_beq hr, rfl, hw⟩
  | startLit nn =>
    obtain ⟨rfl, -⟩ := List.cons.inj hbytes
    exact ⟨eq_of_beq hr, rfl, of_decide_eq_true hw⟩
  | lit len =>
    obtain ⟨rfl, -⟩ := List.cons.inj hbytes
    exact ⟨eq_of_beq hr, Nat.le_of_lt_succ (litByte_lt _)⟩
  | m1 d s h =>
    obtain ⟨rfl, -⟩ := List.cons.inj hbytes
    exact ⟨eq_of_beq hr, Nat.le_of_lt_succ (m1Byte_lt d s)⟩
  | m1b d s h =>
    obtain ⟨rfl, -⟩ := List.cons.inj hbytes
    exact ⟨eq_of_beq hr, Nat.le_of_lt_succ (m1Byte_lt d s)⟩
  | m2 l d s h =>
    obtain ⟨rfl, -⟩ := List.cons.inj hbytes
    exact ⟨readsMatches_iff.1 hr, le_m2Byte d s (of_decide_eq_true hw)⟩
  | m3 len d s h =>
    obtain ⟨rfl, -⟩ := List.cons.inj hbytes
    obtain ⟨hlo, hhi⟩ := m3Byte_range len.bits
    exact ⟨readsMatches_iff.1 hr, hlo, Nat.le_of_lt_succ hhi⟩
  | m4 hb len d s h =>
    obtain ⟨rfl, -⟩ := List.cons.inj hbytes
    obtain ⟨hlo, hhi⟩ := m4Byte_range hb len.bits
    exact ⟨readsMatches_iff.1 hr, hlo, Nat.le_of_lt_succ hhi⟩
  | eos len s =>
    obtain ⟨rfl, -⟩ := List.cons.inj hbytes
    exact ⟨readsMatches_iff.1 hr, (m4Byte_range 0#1 len.bits).1, Nat.le_of_lt_succ (eosByte_lt _)⟩
  | trail n => exact eq_of_beq hr

/-- A decoded instruction belongs to the row its phase and first byte select (R81). -/
theorem decode_rowSelected (h : decode p ph (b :: bs) = .ok i rest) : Machine.rowSelected ph b i := by
  by_cases hph : ∃ n, ph = .trail n
  · obtain ⟨n, rfl⟩ := hph
    cases h
    rfl
  · have hread := decode_readAs (fun n hn => absurd ⟨n, hn⟩ hph) h
    by_cases hi : i = .startPass
    · subst hi
      obtain ⟨rfl, b', r, hbr, hb⟩ := decode_startPass h
      obtain ⟨rfl, -⟩ := List.cons.inj hbr
      exact ⟨eq_of_beq hread.readIn, hb⟩
    · exact hread.rowSelected hi

/-- More bytes after a header do not change its reading. -/
theorem decode_append (hph : ∀ n, ph = .trail n → n ≠ 0) (h : decode p ph bs = .ok i rest)
    (more : List Byte) : decode p ph (bs ++ more) = .ok i (rest ++ more) := by
  obtain ⟨hbytes, hw, hr⟩ := decode_readAs hph h
  rw [← hbytes, List.append_assoc]
  refine decode_encode hw hr ?_
  rintro rfl
  obtain ⟨-, b, r, rfl, hb⟩ := decode_startPass h
  exact ⟨b, r ++ more, rfl, hb⟩

/-- The phase of a well-formed instruction's row is a running one, with a carry that is not 0. -/
theorem running_of_readIn (hw : i.wf p = true) (hr : i.readIn ph = true) :
    Machine.Running ph ∧ ∀ n, ph = .trail n → n ≠ 0 := by
  cases ph with
  | trail n =>
    refine ⟨⟨nofun, nofun⟩, ?_⟩
    rintro _ ⟨⟩
    cases i with
    | trail k => obtain ⟨rfl⟩ := eq_of_beq hr; simpa [Instr.wf] using hw
    | _ => cases hr
  | done => cases i <;> cases hr
  | fault f => cases i <;> cases hr
  | _ => exact ⟨⟨nofun, nofun⟩, nofun⟩

/-- A header cut short is an underrun (R103): an answer on it would leave a byte over on the whole header,
which leaves none. -/
theorem decode_take_encode {n : Nat} (hw : i.wf p = true) (hr : i.readIn ph = true)
    (hn : n < (encode p i).length) : decode p ph ((encode p i).take n) = .underrun := by
  obtain ⟨hrun, htrail⟩ := running_of_readIn hw hr
  cases hd : decode p ph ((encode p i).take n) with
  | underrun => rfl
  | noToken => exact absurd hd (decode_ne_noToken hrun)
  | ok j left =>
    have hcut := decode_append htrail hd ((encode p i).drop n)
    have hwhole : decode p ph (encode p i ++ []) = .ok i [] :=
      decode_encode hw hr (by rintro rfl; cases hn)
    rw [List.take_append_drop, ← List.append_nil (encode p i), hwhole] at hcut
    injection hcut with _ hleft
    have hnil : (encode p i).drop n = [] := by simpa using (List.append_eq_nil_iff.1 hleft.symm).2
    exact absurd (List.drop_eq_nil_iff.1 hnil) (by omega)

/-- The byte 1 is not EXT_CONT, so it ends an extension at once: of three of them a length field leaves at
least two (R90). -/
theorem readLen_ones {w : Nat} (p : Profile) (l : BitVec w) :
    ∃ len lo hi r, readLen p l [1#8, 1#8, 1#8] = some (len, lo :: hi :: r) := by
  have h1 : (1#8 : Byte) ≠ p.extCont.byte := by cases p.extCont <;> decide
  by_cases hl : l = 0
  · exact ⟨.ext 0 1#8, 1#8, 1#8, [], by rw [readLen, if_pos hl, readExt, if_neg h1]; rfl⟩
  · exact ⟨.inline l, 1#8, 1#8, [1#8], by rw [readLen, if_neg hl]⟩

theorem decodeFar_ones (p : Profile) (b : Byte) :
    ∃ i r, decodeFar p b [1#8, 1#8, 1#8] = .ok i r := by
  unfold decodeFar
  split
  · exact ⟨_, _, rfl⟩
  · split
    · obtain ⟨len, lo, hi, r, h⟩ := readLen_ones p (b.extractLsb' 0 5)
      exact ⟨_, _, by rw [decodeM3, h]⟩
    · obtain ⟨len, lo, hi, r, h⟩ := readLen_ones p (b.extractLsb' 0 3)
      rw [decodeM4, h]
      dsimp only
      split
      · exact ⟨_, _, rfl⟩
      · exact ⟨_, _, rfl⟩

theorem decodeLit_ones (p : Profile) (b : Byte) :
    ∃ i r, decodeLit p b [1#8, 1#8, 1#8] = .ok i r := by
  obtain ⟨len, lo, hi, r, h⟩ := readLen_ones p (b.extractLsb' 0 4)
  exact ⟨_, _, by rw [decodeLit, h]⟩

theorem decodeStart_cons (b : Byte) (bs : List Byte) : ∃ i r, decodeStart (b :: bs) = .ok i r := by
  unfold decodeStart
  dsimp only
  split
  · split
    · exact ⟨_, _, rfl⟩
    · exact ⟨_, _, rfl⟩
  · exact ⟨_, _, rfl⟩

/-- No first byte is illegal: with three bytes 1 after it every byte has an instruction (R99, R100). -/
theorem decode_ones (p : Profile) (b : Byte) (hph : Machine.Running ph) :
    ∃ i r, decode p ph [b, 1#8, 1#8, 1#8] = .ok i r := by
  unfold decode
  split
  · exact decodeStart_cons b _
  · dsimp only
    split
    · exact decodeLit_ones p b
    · exact decodeFar_ones p b
  · next c =>
    dsimp only
    split
    · cases c
      · exact ⟨_, _, rfl⟩
      · exact ⟨_, _, rfl⟩
    · exact decodeFar_ones p b
  · exact ⟨_, _, rfl⟩
  · exact absurd rfl hph.1
  · next f => exact absurd rfl (hph.2 f)

end Sys2Proof
end

section
/-! SUPPORT. A class's distance is a base plus the number its distance fields write, so that every number in
range is written exactly once (30_encoding R92 to R96). -/

namespace Sys2Proof.Machine

/-- A number below `2 ^ w * 256` is `D + 2 ^ w H` for exactly one pair of fields. -/
theorem existsUnique_fields {w y : Nat} (hy : y < 2 ^ w * 256) :
    ∃! q : BitVec w × Byte, q.1.toNat + 2 ^ w * q.2.toNat = y := by
  have hpos : 0 < 2 ^ w := Nat.two_pow_pos w
  refine ⟨(BitVec.ofNat w (y % 2 ^ w), BitVec.ofNat 8 (y / 2 ^ w)), ?_, ?_⟩
  · have hq : y / 2 ^ w < 2 ^ 8 := Nat.div_lt_of_lt_mul hy
    simp only [BitVec.toNat_ofNat, Nat.mod_mod, Nat.mod_eq_of_lt hq, Nat.mod_add_div]
  · rintro ⟨d, h⟩ rfl
    simp only [Prod.mk.injEq]
    constructor
    · apply BitVec.eq_of_toNat_eq
      simp [Nat.mod_eq_of_lt d.isLt]
    · apply BitVec.eq_of_toNat_eq
      simp [Nat.add_mul_div_left _ _ hpos, Nat.div_eq_of_lt d.isLt]

theorem sub_eq_sub_iff {n0 x y : Nat} : (n0 : Int) - x = n0 - y ↔ x = y := by omega

/-- A class with two distance fields above a base encodes the distances `base` to `top`, each once. -/
theorem twoFields_exact {w base top n0 : Nat} {pos : BitVec w → Byte → Int}
    (htop : top + 1 = base + 2 ^ w * 256)
    (hpos : ∀ d h, pos d h = (n0 : Int) - (base + (d.toNat + 2 ^ w * h.toNat) : Nat)) :
    (∀ d h, ∃ x : Nat, base ≤ x ∧ x ≤ top ∧ pos d h = (n0 : Int) - x) ∧
      ∀ x : Nat, base ≤ x → x ≤ top →
        ∃! q : BitVec w × Byte, pos q.1 q.2 = (n0 : Int) - x := by
  constructor
  · intro d h
    refine ⟨_, Nat.le_add_right _ _, ?_, hpos d h⟩
    have hh : 2 ^ w * h.toNat + 2 ^ w ≤ 2 ^ w * 256 := by
      rw [← Nat.mul_succ]
      exact Nat.mul_le_mul_left _ h.isLt
    have hd := d.isLt
    omega
  · intro x hlo hhi
    have hiff : ∀ q : BitVec w × Byte,
        pos q.1 q.2 = (n0 : Int) - x ↔ q.1.toNat + 2 ^ w * q.2.toNat = x - base := by
      intro q
      rw [hpos, sub_eq_sub_iff]
      omega
    rw [existsUnique_congr hiff]
    exact existsUnique_fields (by omega)

theorem posM1_eq (n0 : Nat) (d : BitVec 2) (h : Byte) :
    posM1 n0 d h = (n0 : Int) - (1 + (d.toNat + 2 ^ 2 * h.toNat) : Nat) := by
  simp only [posM1, Nat.shiftLeft_eq]; omega

theorem posM1b_eq (n0 : Nat) (d : BitVec 2) (h : Byte) :
    posM1b n0 d h = (n0 : Int) - (2049 + (d.toNat + 2 ^ 2 * h.toNat) : Nat) := by
  simp only [posM1b, m2MaxOffset, Nat.shiftLeft_eq]; omega

theorem posM2_eq (n0 : Nat) (d : BitVec 3) (h : Byte) :
    posM2 n0 d h = (n0 : Int) - (1 + (d.toNat + 2 ^ 3 * h.toNat) : Nat) := by
  simp only [posM2, Nat.shiftLeft_eq]; omega

theorem posM3_eq (n0 : Nat) (d : BitVec 6) (s : BitVec 2) (h : Byte) :
    posM3 n0 d s h = (n0 : Int) - (1 + (d.toNat + 2 ^ 6 * h.toNat) : Nat) := by
  simp only [posM3, distField_eq]; omega

theorem posM4_eq (n0 : Nat) (hb : BitVec 1) (d : BitVec 6) (s : BitVec 2) (h : Byte) :
    posM4 n0 hb d s h =
      (n0 : Int) - (16384 + 16384 * hb.toNat + (d.toNat + 2 ^ 6 * h.toNat) : Nat) := by
  simp only [posM4, distField_eq, m4Bias]; omega

theorem lenM2_range {l : BitVec 3} (hl : 2 ≤ l.toNat) : 3 ≤ lenM2 l ∧ lenM2 l ≤ 8 := by
  have := l.isLt
  unfold lenM2
  omega

/-- The distance of an M4 token is 16385 to 49151: distance 16384 would be the end marker (R96). -/
theorem posM4_range (n0 : Nat) {hb : BitVec 1} {d : BitVec 6} (s : BitVec 2) {h : Byte}
    (hne : ¬ (hb = 0#1 ∧ d = 0#6 ∧ h = 0#8)) :
    ∃ x : Nat, 16385 ≤ x ∧ x ≤ 49151 ∧ posM4 n0 hb d s h = (n0 : Int) - x := by
  have hlt := hb.isLt
  have hd := d.isLt
  have hh := h.isLt
  refine ⟨_, ?_, ?_, posM4_eq n0 hb d s h⟩
  · by_contra hlow
    exact hne ⟨BitVec.eq_of_toNat_eq (by simp; omega), BitVec.eq_of_toNat_eq (by simp; omega),
      BitVec.eq_of_toNat_eq (by simp; omega)⟩
  · omega

/-- H' is which half of the range a distance is in, and D and H its place there (R96). -/
theorem posM4_existsUnique (n0 : Nat) (s : BitVec 2) {x : Nat} (hlo : 16385 ≤ x) (hhi : x ≤ 49151) :
    ∃! q : BitVec 1 × BitVec 6 × Byte, posM4 n0 q.1 q.2.1 s q.2.2 = (n0 : Int) - x := by
  obtain ⟨⟨d, h⟩, hdh, huniq⟩ :=
    existsUnique_fields (w := 6) (y := x % 16384) (Nat.mod_lt x (by decide))
  refine ⟨(BitVec.ofNat 1 (x / 16384 - 1), d, h), ?_, ?_⟩
  · dsimp only at hdh ⊢
    rw [posM4_eq, sub_eq_sub_iff, hdh, BitVec.toNat_ofNat]
    omega
  · rintro ⟨hb', d', h'⟩ hx
    dsimp only at hx
    rw [posM4_eq, sub_eq_sub_iff] at hx
    have hlt := hb'.isLt
    have hd := d'.isLt
    have hh := h'.isLt
    have hdh' : (d', h') = (d, h) := huniq (d', h') (by dsimp only; omega)
    have hhb : hb' = BitVec.ofNat 1 (x / 16384 - 1) :=
      BitVec.eq_of_toNat_eq (by rw [BitVec.toNat_ofNat]; omega)
    rw [hhb, hdh']

end Sys2Proof.Machine
end

section
/-! The statements of family 30_encoding. -/

namespace Sys2Proof.Machine

/-- Settles O4: each row's header takes its own branch of the decoder, which reads the fields back. -/
theorem decodeOfEncode : Obligations.DecodeOfEncode := fun _ _ _ _ hw hr hs => decode_encode hw hr hs

/-- Settles O3: the row by the header's first byte, and an answer for every byte by the branch it takes. -/
theorem everyByteSelectsItsRow : Obligations.EveryByteSelectsItsRow :=
  ⟨fun _ _ _ _ _ _ h => decode_rowSelected h, fun p _ b hph => decode_ones p b hph,
    fun _ _ => ⟨rfl, fun _ => rfl⟩⟩

/-- Settles O5: every branch of the decoder answers fields whose encoding is the bytes it read. -/
theorem encodeOfDecode : Obligations.EncodeOfDecode := by
  intro p ph bs i rest hph h
  obtain ⟨hbytes, hw, hr⟩ := decode_readAs hph h
  exact ⟨hbytes, hw, hr⟩

/-- Settles O6: an answer on a cut header would stand on the whole header too, with a byte left over. -/
theorem cutHeaderIsUnderrun : Obligations.CutHeaderIsUnderrun :=
  ⟨fun _ _ _ _ hw hr hn => decode_take_encode hw hr hn, fun _ => ⟨rfl, rfl, fun _ => rfl⟩⟩

/-- Settles O8: a distance less its class's base is a number, written by one choice of the fields. -/
theorem distanceRangesAreExact : Obligations.DistanceRangesAreExact := by
  intro n0
  obtain ⟨hm1, hm1'⟩ := twoFields_exact (top := 1024) (by norm_num) (posM1_eq n0)
  obtain ⟨hm1b, hm1b'⟩ := twoFields_exact (top := 3072) (by norm_num) (posM1b_eq n0)
  obtain ⟨hm2, hm2'⟩ := twoFields_exact (top := 2048) (by norm_num) (posM2_eq n0)
  have hm3 := fun c => twoFields_exact (top := 16384) (by norm_num) fun d h => posM3_eq n0 d c h
  exact ⟨hm1, hm1', hm1b, hm1b', hm2, hm2', fun _ => lenM2_range, fun d c h => (hm3 c).1 d h,
    fun c => (hm3 c).2, fun _ _ c _ hne => posM4_range n0 c hne,
    fun c _ hlo hhi => posM4_existsUnique n0 c hlo hhi⟩

/-- Settles O2: the decoder evaluated on each word, the bytes after it left as they are. -/
theorem wordsDecodeAsTheSpecSays : Obligations.WordsDecodeAsTheSpecSays := by
  intro rest
  refine ⟨?_, ?_, ?_, ?_, ?_, ?_, ?_, ?_, ?_, ?_, ?_, ?_, ?_, ?_, ?_⟩
  all_goals rfl

end Sys2Proof.Machine
end

section
/-! SUPPORT. An extension that never ends, and the readings of the first byte in phase START (30_encoding R82,
R90). -/

namespace Sys2Proof

variable {p : Profile} {b : Byte} {r : List Byte}

/-- Continuing bytes alone end no extension (R90). -/
theorem readExt_continuing (p : Profile) (k : Nat) :
    readExt p (List.replicate k p.extCont.byte) = none := by
  induction k with
  | zero => rfl
  | succ k ih => simp [List.replicate_succ, readExt, ih]

/-- A first byte 0 to 17 stays unread (40_decoder_control R121). -/
theorem decode_start_low (hb : b.toNat ≤ 17) : decode p .start (b :: r) = .ok .startPass (b :: r) :=
  decode_encode (i := .startPass) rfl rfl fun _ => ⟨b, r, rfl, hb⟩

end Sys2Proof
end

section
/-! SUPPORT. The decoder's turn on a decoded instruction, and a literal run by the addresses it reads
(40_decoder_control R120, R126). -/

namespace Sys2Proof.Machine

variable {s t : State} {i : Instr} {rest : List Byte}

/-- RunCtx() in the words of R127. -/
theorem State.runCtx_eq (s : State) :
    s.runCtx = if s.profile.biasScope = .everyRun ∨ s.seenMatch = false then .biased else .plain := by
  unfold State.runCtx Machine.runCtx
  cases s.profile.biasScope <;> cases s.seenMatch <;> rfl

/-- What a literal run reads after its header is IN from that address on, as far as L (R51, R54). -/
theorem State.drop_inputLeft_take {hdr n : Nat} (h : s.ip + hdr + n ≤ s.limit) :
    (s.inputLeft.drop hdr).take n = (s.src.bytes.drop (s.ip + hdr)).take n := by
  rw [State.inputLeft, List.drop_drop, List.drop_take, List.take_take, min_eq_left (by omega)]

/-- A literal run whose bytes are below the read limit copies them (R126). -/
theorem literalRun_copies {hdr n : Nat} {next : Phase} (hw : s.src.wf)
    (h : s.ip + hdr + n ≤ s.limit) :
    literalRun hdr n next s =
      .next { s with
        ip := s.ip + hdr + n
        out := s.out.appendAll ((s.src.bytes.drop (s.ip + hdr)).take n)
        phase := next } := by
  have hn : n ≤ (s.inputLeft.drop hdr).length := by
    rw [List.length_drop, s.length_inputLeft]
    omega
  rw [literalRun_eq _ _ _ _ hw, if_pos hn, State.drop_inputLeft_take h]
  simp only [State.setPhase, State.produce, Nat.add_assoc]

/-- A literal run that reaches past the read limit faults there (R126, R261). -/
theorem literalRun_underrun {hdr n : Nat} {next : Phase} (hw : s.src.wf) (hh : s.ip + hdr ≤ s.limit)
    (h : s.limit < s.ip + hdr + n) :
    ∃ t, literalRun hdr n next s = .next t ∧ s.FaultFrom .inputUnderrun s.limit t := by
  have hlen : (s.inputLeft.drop hdr).length = s.limit - s.ip - hdr := by
    rw [List.length_drop, s.length_inputLeft]
  have hip : s.ip + (hdr + (s.inputLeft.drop hdr).length) = s.limit := by omega
  rw [literalRun_eq _ _ _ _ hw, if_neg (by omega)]
  exact ⟨_, rfl, hip ▸ s.faultFrom_produce _ _ _⟩

/-- DEC's step on a decoded instruction is its meaning (R120). -/
theorem State.decStep_ok (h : decode s.profile s.phase s.inputLeft = .ok i rest) :
    s.decStep = exec i s := by
  simp only [State.decStep, h]

theorem State.decTurn_ok (hs : s.starved = false)
    (h : decode s.profile s.phase s.inputLeft = .ok i rest) : s.decTurn = exec i s :=
  (s.decTurn_closed hs).trans (State.decStep_ok h)

/-- An idle entry of the host's list is a turn of DEC on the state without that entry (log 10). -/
theorem step_dec_idle {r : List (Option HostOp)} (hp : s.pending = none :: r) (hb : s.status = .busy)
    (hr : s.run = some .dec) : step s = ({ s with pending := r } : State).decTurn := by
  simp only [step, State.turn, hp, State.blockStep, hb, hr]

end Sys2Proof.Machine
end

section
/-! SUPPORT. What a DEC run keeps beside the invariant: every instruction has a next state, and the only
faults are the decoder's two (60_exceptions R260, R264). -/

namespace Sys2Proof.Machine

variable {s t : State} {i : Instr}

/-! ## Every instruction has a next state -/

theorem matchToken_total {hdr len : Nat} {m : Int} {c : BitVec 2} (hw : s.out.wf)
    (hm : m < s.out.size) : ∃ t, matchToken hdr m len c s = .next t := by
  rw [matchToken_eq _ _ _ _ _ hw hm]
  split
  · exact ⟨_, rfl⟩
  · exact ⟨_, rfl⟩

/-- No instruction stops while OUT is in canonical form (R264): every match points below |OUT|. -/
theorem exec_total (i : Instr) (hw : s.out.wf) : ∃ t, exec i s = .next t := by
  obtain ⟨hm1, hm1b, hm2, hm3, hm4⟩ := pos_lt s.out.size
  cases i with
  | startPass => exact ⟨_, rfl⟩
  | startTrail nn => exact ⟨_, rfl⟩
  | startLit nn => exact literalRun_cases _ _ _ s
  | lit len => exact literalRun_cases _ _ _ s
  | trail n => exact literalRun_cases _ _ _ s
  | m1 d c h => exact matchToken_total hw (hm1 d h)
  | m1b d c h => exact matchToken_total hw (hm1b d h)
  | m2 l d c h => exact matchToken_total hw (hm2 d h)
  | m3 len d c h => exact matchToken_total hw (hm3 d c h)
  | m4 hb len d c h => exact matchToken_total hw (hm4 hb d c h)
  | eos len c => exact ⟨_, rfl⟩

theorem State.decStep_total (hw : s.out.wf) : ∃ t, s.decStep = .next t := by
  unfold State.decStep
  split
  · exact exec_total _ hw
  · exact ⟨_, rfl⟩
  · exact ⟨_, rfl⟩

/-! ## The faults of a DEC run -/

/-- ERR is not the code of the leveled encoder's fault. -/
def State.NoLevelFault (s : State) : Prop := s.err ≠ some .invalidLevel

theorem literalRun_noLevelFault {hdr n : Nat} {ph : Phase} (hs : s.NoLevelFault)
    (h : literalRun hdr n ph s = .next t) : t.NoLevelFault := by
  rcases literalRun_next _ _ _ _ _ h with ⟨k, bs, rfl⟩ | ⟨k, bs, rfl⟩
  · exact hs
  · exact nofun

theorem matchToken_noLevelFault {hdr len : Nat} {m : Int} {c : BitVec 2} (hs : s.NoLevelFault)
    (h : matchToken hdr m len c s = .next t) : t.NoLevelFault := by
  rcases matchToken_next _ _ _ _ _ _ h with ⟨bs, rfl⟩ | rfl
  · exact hs
  · exact nofun

theorem exec_noLevelFault (hs : s.NoLevelFault) (h : exec i s = .next t) : t.NoLevelFault := by
  cases i with
  | startPass => cases h; exact hs
  | startTrail nn => cases h; exact hs
  | startLit nn => exact literalRun_noLevelFault hs h
  | lit len => exact literalRun_noLevelFault hs h
  | trail n => exact literalRun_noLevelFault hs h
  | eos len c => cases h; exact hs
  | _ => exact matchToken_noLevelFault hs h

theorem State.decStep_noLevelFault (hs : s.NoLevelFault) (h : s.decStep = .next t) :
    t.NoLevelFault := by
  rcases State.decStep_next h with ⟨i, rest, -, hx⟩ | ⟨-, rfl⟩ | ⟨-, rfl⟩
  · exact exec_noLevelFault hs hx
  · exact nofun
  · exact hs

/-! ## A run of DEC -/

/-- A step of DEC leaves its run in progress, in DONE or in FAULT. -/
theorem DecAnswer.not_idle {n : Nat} (h : DecAnswer s n t) (hb : s.status = .busy) :
    t.status ≠ .idle := by
  cases h with
  | goOn => simp [hb]
  | fault => exact nofun
  | finish => exact nofun

/-- A DEC run on a closed source that the host leaves alone, in progress or ended. -/
structure DecRun (s : State) : Prop extends ClosedDec s where
  inv : s.Inv
  notIdle : s.status ≠ .idle
  noLevelFault : s.NoLevelFault

/-- A launched DEC run (70_reset_and_hazards R292). -/
theorem DecRun.launch (hp : s.pending = []) (ho : s.srcOpen = false) (hw : s.src.wf) :
    DecRun (s.launch .dec) :=
  ⟨⟨hp, ho, rfl⟩, State.launch_inv hw nofun, nofun, nofun⟩

/-- A DEC run has a next step while it is in progress, and is one after it. -/
theorem DecRun.step_busy (h : DecRun s) (hb : s.status = .busy) :
    ∃ t, step s = .next t ∧ s.decStep = .next t ∧ DecRun t := by
  obtain ⟨t, ht⟩ := State.decStep_total h.inv.outWf
  obtain ⟨n, ha, hn, -⟩ := h.inv.decStep_answer hb h.run ht
  have hs := State.decStep_sameHostSide ht
  exact ⟨t, (h.toClosedDec.step_busy hb).trans ht, ht,
    ⟨hs.pending ▸ h.pending, hs.srcOpen ▸ h.srcOpen, hs.run ▸ h.run⟩,
    h.inv.decAnswer hb h.run ha hn, ha.not_idle hb, State.decStep_noLevelFault h.noLevelFault ht⟩

/-- A DEC run that returns bytes has ended in DONE. -/
theorem DecRun.phase_of_ok {D : List Byte} (h : DecRun s) (hD : s.txResult = some (.ok D)) :
    s.phase = .done := by
  unfold State.txResult at hD
  split at hD
  · next hst => exact (h.inv.decDone hst h.run).1
  · cases he : s.err <;> rw [he] at hD <;> cases hD
  · cases hD
  · cases hD

/-- A DEC run that has ended returns its bytes or one of DEC's two faults (10_state R44, 60_exceptions
R260). -/
theorem DecRun.txResult_ended (h : DecRun s) (he : s.status ≠ .busy) :
    (∃ D, s.txResult = some (.ok D)) ∨ s.txResult = some (.err .inputUnderrun) ∨
      s.txResult = some (.err .lookbehindUnderrun) := by
  unfold State.txResult
  cases hst : s.status with
  | idle => exact absurd hst h.notIdle
  | busy => exact absurd hst he
  | done => exact .inl ⟨_, rfl⟩
  | fault =>
    obtain ⟨f, hf, -⟩ := h.inv.faulted hst
    have hne := h.noLevelFault
    cases f with
    | inputUnderrun => exact .inr (.inl (by simp [hf]))
    | lookbehindUnderrun => exact .inr (.inr (by simp [hf]))
    | invalidLevel => exact absurd hf hne

end Sys2Proof.Machine
end

section
/-! SUPPORT. How many steps a DEC run still takes (40_decoder_control R134): a step in phase LOOP uses two
bytes, any other step but START_PASS one, and START_PASS goes to LOOP with a byte left. -/

namespace Sys2Proof.Machine

variable {s t : State} {i : Instr} {rest : List Byte}

/-- The most steps a DEC run in progress still takes. -/
def State.stepsLeft (s : State) : Nat :=
  if s.phase = .loop then max 1 (s.limit - s.ip) else s.limit - s.ip + 1

theorem State.stepsLeft_loop (h : s.phase = .loop) : s.stepsLeft = max 1 (s.limit - s.ip) := if_pos h

theorem State.stepsLeft_not_loop (h : s.phase ≠ .loop) : s.stepsLeft = s.limit - s.ip + 1 := if_neg h

theorem State.stepsLeft_pos (s : State) : 1 ≤ s.stepsLeft := by
  unfold State.stepsLeft
  split <;> omega

theorem State.stepsLeft_le (s : State) : s.stepsLeft ≤ s.limit - s.ip + 1 := by
  unfold State.stepsLeft
  split <;> omega

/-- The header of a decoded instruction is there to be read. -/
theorem State.headerLen_le (h : ReadAs s.profile s.phase s.inputLeft i rest) :
    headerLen i ≤ s.inputLeft.length := by
  rw [← h.bytes, ← length_encode s.profile, List.length_append]
  exact Nat.le_add_right _ _

/-- An instruction of phase LOOP uses at least two bytes: a LIT copies three literals or more, and the others
have headers of two bytes or more (30_encoding R83, R103). -/
theorem exec_used_loop (hw : s.src.wf) (hr : i.readIn .loop = true)
    (hh : headerLen i ≤ s.inputLeft.length) (h : exec i s = .next t) : Used s 2 t := by
  cases i with
  | lit len =>
    refine (literalRun_used hw hh (by simp [Running]) (by simp) h).weaken ?_
    simp only [litRun, litBias]
    omega
  | m2 l d c hb => exact matchToken_used hh h
  | m3 len d c hb => exact (matchToken_used (hdr := 3 + extCount len) hh h).weaken (by omega)
  | m4 hb len d c hb' => exact (matchToken_used (hdr := 3 + extCount len) hh h).weaken (by omega)
  | eos len c => cases h; exact ⟨_, .finish, hh, .inl (by omega)⟩
  | _ => cases hr

/-- A step that uses `lo` bytes or faults brings the end nearer, if `lo` is what its phase asks. -/
theorem Used.stepsLeft_lt {lo : Nat} (h : Used s lo t) (h1 : 1 ≤ lo) (h2 : s.phase = .loop → 2 ≤ lo) :
    t.status ≠ .busy ∨ t.stepsLeft < s.stepsLeft := by
  obtain ⟨n, ha, hn, hlo | hf⟩ := h
  · rw [s.length_inputLeft] at hn
    have ht := t.stepsLeft_le
    rw [ha.limit_eq, ha.ip_eq] at ht
    right
    by_cases hl : s.phase = .loop
    · have := h2 hl
      rw [State.stepsLeft_loop hl]
      omega
    · rw [State.stepsLeft_not_loop hl]
      omega
  · exact .inl (by simp [hf])

/-- START_PASS goes to LOOP in front of a byte, which makes up for the byte it leaves unread. -/
theorem startPass_stepsLeft_lt (hp : s.phase = .start)
    (hd : decode s.profile s.phase s.inputLeft = .ok .startPass rest) :
    (s.setPhase .loop).stepsLeft < s.stepsLeft := by
  obtain ⟨rfl, b, r, hbr, -⟩ := decode_startPass hd
  have hlen := s.length_inputLeft
  rw [hbr, List.length_cons] at hlen
  rw [State.stepsLeft_loop rfl, State.stepsLeft_not_loop (by simp [hp])]
  simp only [State.setPhase_ip]
  have : (s.setPhase .loop).limit = s.limit := rfl
  omega

/-- A step of a DEC run ends it or brings its end nearer. -/
theorem DecRun.decStep_stepsLeft_lt (h : DecRun s) (hb : s.status = .busy) (ht : s.decStep = .next t) :
    t.status ≠ .busy ∨ t.stepsLeft < s.stepsLeft := by
  rcases State.decStep_next ht with ⟨i, rest, hd, hx⟩ | ⟨-, rfl⟩ | ⟨hd, -⟩
  · have hread := decode_readAs h.inv.trailPos hd
    have hhdr := State.headerLen_le hread
    by_cases hi : i = .startPass
    · subst hi
      cases hx
      exact .inr (startPass_stepsLeft_lt (eq_of_beq hread.readIn) hd)
    · by_cases hl : s.phase = .loop
      · exact (exec_used_loop h.inv.srcWf (hl ▸ hread.readIn) hhdr hx).stepsLeft_lt (by decide)
          fun _ => le_rfl
      · have hu := exec_used h.inv.srcWf hread.wf hhdr hx
        rw [if_neg hi] at hu
        exact hu.stepsLeft_lt le_rfl fun hl' => absurd hl' hl
  · exact .inl nofun
  · exact absurd hd (decode_ne_noToken (h.inv.decBusy hb h.run))

/-- A run that has ended stays as it is. -/
theorem runSteps_of_not_busy (hp : s.pending = []) (he : s.status ≠ .busy) (n : Nat) :
    runSteps n s = s := by
  induction n with
  | zero => rfl
  | succ n ih => rw [runSteps, step_of_not_busy hp he]; exact ih

/-- A DEC run has ended after as many steps as it had left (R134). -/
theorem DecRun.runSteps_ends (h : DecRun s) {n : Nat} (hn : s.stepsLeft ≤ n) :
    DecRun (runSteps n s) ∧ (runSteps n s).status ≠ .busy := by
  induction n generalizing s with
  | zero => exact absurd hn (Nat.not_le_of_lt s.stepsLeft_pos)
  | succ n ih =>
    by_cases hb : s.status = .busy
    · obtain ⟨t, hs, hd, ht⟩ := h.step_busy hb
      have hrun : runSteps (n + 1) s = runSteps n t := by rw [runSteps, hs]
      rw [hrun]
      rcases h.decStep_stepsLeft_lt hb hd with he | hlt
      · rw [runSteps_of_not_busy ht.pending he]
        exact ⟨ht, he⟩
      · exact ih ht (by omega)
    · rw [runSteps_of_not_busy h.pending hb]
      exact ⟨h, hb⟩

/-- decompress's run, from its launch to its end (10_state R44). -/
theorem decRun_ends (p : Profile) (bs : List Byte) (inLen hint : Nat) :
    DecRun (decRun p bs inLen hint) ∧ (decRun p bs inLen hint).status ≠ .busy := by
  refine (DecRun.launch rfl rfl (Memory.wf_ofBytes bs)).runSteps_ends ?_
  refine (State.stepsLeft_le _).trans (Nat.succ_le_succ ?_)
  simp [State.limit, callState]

end Sys2Proof.Machine
end

section
/-! SUPPORT. A DEC run on a stream with more bytes after it: it goes as the run on the stream itself, until
that one runs out of bytes (40_decoder_control R133, 60_exceptions R261). -/

namespace Sys2Proof.Machine

variable {s t : State} {i : Instr} {m : Memory} {len pulled : Nat} {more : List Byte}

/-- The state with another source of another declared length. The count of bytes pulled at the end of a run
depends on them, so it is another too (20_memory R58). -/
def State.onInput (m : Memory) (len pulled : Nat) (s : State) : State :=
  { s with src := m, inLen := len, runInLen := len, pulled := pulled }

/-- What a transaction returns does not look at the input. -/
theorem State.txResult_onInput (m : Memory) (len pulled : Nat) (s : State) :
    (s.onInput m len pulled).txResult = s.txResult := rfl

/-- An outcome on the other input: the same next state, on that input. -/
def NextOnInput (m : Memory) (len : Nat) (t : State) (o : Host.Outcome State Fault Refusal) : Prop :=
  ∃ pulled, o = .next (t.onInput m len pulled)

/-- A literal run that finds its bytes finds them with more bytes after them. -/
theorem literalRun_onInput {hdr n : Nat} {ph : Phase} (hw : s.src.wf) (hm : m.wf)
    (hin : (s.onInput m len pulled).inputLeft = s.inputLeft ++ more)
    (h : literalRun hdr n ph s = .next t) (ht : t.phase ≠ .fault .inputUnderrun) :
    NextOnInput m len t (literalRun hdr n ph (s.onInput m len pulled)) := by
  rw [literalRun_eq _ _ _ _ hw] at h
  split at h
  · next hn =>
    cases h
    rw [literalRun_eq _ _ _ (s.onInput m len pulled) hm, hin, List.drop_append,
      if_pos (hn.trans (by simp)), List.take_append_of_le_length hn]
    exact ⟨pulled, rfl⟩
  · cases h
    exact absurd rfl ht

/-- A match token does not look at the input. -/
theorem matchToken_onInput {hdr k : Nat} {pos : Int} {c : BitVec 2}
    (h : matchToken hdr pos k c s = .next t) :
    NextOnInput m len t (matchToken hdr pos k c (s.onInput m len pulled)) := by
  unfold matchToken at h ⊢
  simp only at h ⊢
  by_cases hp : pos < 0
  · rw [if_pos hp] at h ⊢
    cases h
    exact ⟨_, rfl⟩
  · rw [if_neg hp] at h ⊢
    have hout : ((s.onInput m len pulled).advance hdr).out = (s.advance hdr).out := rfl
    rw [hout]
    cases ho : copyMatch pos.toNat k (s.advance hdr).out with
    | none => rw [ho] at h; cases h
    | some o => rw [ho] at h; cases h; exact ⟨pulled, rfl⟩

/-- An instruction that does not run out of bytes does the same with more bytes after them. -/
theorem exec_onInput (hw : s.src.wf) (hm : m.wf)
    (hin : (s.onInput m len pulled).inputLeft = s.inputLeft ++ more)
    (h : exec i s = .next t) (ht : t.phase ≠ .fault .inputUnderrun) :
    NextOnInput m len t (exec i (s.onInput m len pulled)) := by
  cases i with
  | startPass => cases h; exact ⟨pulled, rfl⟩
  | startTrail nn => cases h; exact ⟨pulled, rfl⟩
  | startLit nn => exact literalRun_onInput hw hm hin h ht
  | lit len => exact literalRun_onInput hw hm hin h ht
  | trail n => exact literalRun_onInput hw hm hin h ht
  | eos len c => cases h; exact ⟨_, rfl⟩
  | _ => exact matchToken_onInput h

/-- The bytes left are those left of the shorter input, and then those it lacks. -/
theorem State.inputLeft_onInput (hip : s.ip ≤ s.limit) (hd : s.data <+: m.bytes.take len) (pulled : Nat) :
    ∃ more, (s.onInput m len pulled).inputLeft = s.inputLeft ++ more := by
  obtain ⟨more, hmore⟩ := hd
  rw [State.limit_eq_length_data] at hip
  refine ⟨more, ?_⟩
  rw [State.inputLeft_eq_drop_data, State.inputLeft_eq_drop_data,
    ← List.drop_append_of_le_length hip, hmore]
  rfl

/-- DEC's step on the longer input. -/
theorem DecRun.decStep_onInput (h : DecRun s) (hb : s.status = .busy) (hm : m.wf)
    (hd : s.data <+: m.bytes.take len) (hs : s.decStep = .next t)
    (ht : t.phase ≠ .fault .inputUnderrun) :
    NextOnInput m len t (s.onInput m len pulled).decStep := by
  obtain ⟨more, hin⟩ := State.inputLeft_onInput (h.inv.ipBound hb h.run) hd pulled
  rcases State.decStep_next hs with ⟨i, rest, hdec, hx⟩ | ⟨-, rfl⟩ | ⟨hdec, -⟩
  · have hdec' : decode s.profile s.phase (s.onInput m len pulled).inputLeft = .ok i (rest ++ more) := by
      rw [hin]
      exact decode_append h.inv.trailPos hdec more
    rw [State.decStep_ok (s := s.onInput m len pulled) hdec']
    exact exec_onInput h.inv.srcWf hm hin hx ht
  · exact absurd rfl ht
  · exact absurd hdec (decode_ne_noToken (h.inv.decBusy hb h.run))

/-- A step on the longer input, where the step on the input itself does not run out of bytes. -/
theorem DecRun.step_onInput (h : DecRun s) (hb : s.status = .busy) (hm : m.wf)
    (hd : s.data <+: m.bytes.take len) (hs : s.decStep = .next t)
    (ht : t.phase ≠ .fault .inputUnderrun) :
    NextOnInput m len t (step (s.onInput m len pulled)) := by
  have hc : ClosedDec (s.onInput m len pulled) := ⟨h.pending, h.srcOpen, h.run⟩
  rw [hc.step_busy hb]
  exact h.decStep_onInput hb hm hd hs ht

/-- A DEC run in a fault stays there (60_exceptions R269). -/
theorem DecRun.runSteps_faulted (h : DecRun s) {f : FaultCode} (hf : s.phase = .fault f) (n : Nat) :
    runSteps n s = s :=
  runSteps_of_not_busy h.pending (fun hb => (h.inv.decBusy hb h.run).2 f hf) n

theorem DecRun.runSteps_onInput_ended (h : DecRun s) (he : s.status ≠ .busy) (k pulled : Nat) :
    runSteps k (s.onInput m len pulled) = s.onInput m len pulled :=
  runSteps_of_not_busy (s := s.onInput m len pulled) h.pending he k

/-- A run that ends without running out of bytes goes the same way on the longer input, however many more
steps it is given there. -/
theorem DecRun.runSteps_onInput (h : DecRun s) (hm : m.wf) (hd : s.data <+: m.bytes.take len)
    {n k : Nat} (he : (runSteps n s).status ≠ .busy)
    (hp : (runSteps n s).phase ≠ .fault .inputUnderrun) (hk : n ≤ k) (pulled : Nat) :
    ∃ pulled', runSteps k (s.onInput m len pulled) = (runSteps n s).onInput m len pulled' := by
  induction n generalizing s k pulled with
  | zero => exact ⟨pulled, h.runSteps_onInput_ended he k pulled⟩
  | succ n ih =>
    by_cases hb : s.status = .busy
    · obtain ⟨k, rfl⟩ := Nat.exists_eq_add_one_of_ne_zero (Nat.ne_zero_of_lt hk)
      obtain ⟨t, hs, hdec, ht⟩ := h.step_busy hb
      have hrun : runSteps (n + 1) s = runSteps n t := by rw [runSteps, hs]
      rw [hrun] at he hp ⊢
      have htp : t.phase ≠ .fault .inputUnderrun := fun hf => hp (by rwa [ht.runSteps_faulted hf])
      obtain ⟨pulled', hlong⟩ := h.step_onInput hb hm hd hdec htp
      have hsame := State.decStep_sameHostSide hdec
      have hdata : t.data = s.data := by rw [State.data, State.data, hsame.src, hsame.runInLen]
      rw [runSteps, hlong]
      exact ih ht (hdata ▸ hd) he hp (Nat.le_of_succ_le_succ hk) pulled'
    · rw [runSteps_of_not_busy h.pending hb (n + 1)]
      exact ⟨pulled, h.runSteps_onInput_ended hb k pulled⟩

/-- decompress on a stream and on the same stream with more bytes: unless the first runs out of bytes, they
end alike. -/
theorem decRun_append (p : Profile) (bs extra : List Byte) (hint : Nat)
    (hp : (decRun p bs bs.length hint).phase ≠ .fault .inputUnderrun) :
    ∃ pulled, decRun p (bs ++ extra) (bs ++ extra).length hint =
      (decRun p bs bs.length hint).onInput (Memory.ofBytes (bs ++ extra)) (bs ++ extra).length pulled := by
  have hrun : DecRun ((callState p .reference bs bs.length hint 0).start .dec) :=
    DecRun.launch rfl rfl (Memory.wf_ofBytes bs)
  refine hrun.runSteps_onInput (len := (bs ++ extra).length) (Memory.wf_ofBytes _) ?_
    (decRun_ends p bs bs.length hint).2 hp ?_ 0
  · rw [Memory.bytes_ofBytes, List.take_length]
    exact ⟨extra, by simp [State.data, State.start, State.launch, callState]⟩
  · simp

end Sys2Proof.Machine
end

section
/-! The statements of family 40_decoder_control. -/

namespace Sys2Proof.Machine

/-- Settles O7: induction on the continuing bytes, on the way to a terminator and without one. -/
theorem extensionReadsItsValue : Obligations.ExtensionReadsItsValue := fun p k _ rest =>
  ⟨readExt_continuing p k, fun hv => ⟨readExt_replicate hv k rest, fun _ _ => rfl⟩⟩

/-- Settles O11: a literal run after one header byte. -/
theorem startLitCopiesItsRun : Obligations.StartLitCopiesItsRun := by
  intro s nn hw _ h
  rw [← s.runCtx_eq]
  exact literalRun_copies hw h

/-- Settles O12: a literal run after the token byte and its extension. -/
theorem litCopiesItsRun : Obligations.LitCopiesItsRun := by
  intro s len hw h
  rw [← s.runCtx_eq]
  exact literalRun_copies hw h

/-- Settles O13: a literal run with no header. -/
theorem trailCopiesItsBytes : Obligations.TrailCopiesItsBytes := fun _ _ hw h =>
  literalRun_copies (hdr := 0) hw h

/-- Settles O21: each of the three tokens is a literal run that reaches past the read limit. -/
theorem shortLiteralRunRaisesUnderrun : Obligations.ShortLiteralRunRaisesUnderrun := fun _ hw =>
  ⟨fun _ hh h => literalRun_underrun hw hh h, fun _ hh h => literalRun_underrun hw hh h,
    fun _ hh h => literalRun_underrun (hdr := 0) hw hh h⟩

/-- Settles O41: the run has ended after L + 1 steps, and an ended run has one of the three results. -/
theorem decompressAlwaysEnds : Obligations.DecompressAlwaysEnds := by
  intro p bs inLen hint
  obtain ⟨hrun, hend⟩ := decRun_ends p bs inLen hint
  exact hrun.txResult_ended hend

/-- Settles O45: a run that decodes never runs out of bytes, so more of them change nothing. -/
theorem bytesAfterEndMarkerIgnored : Obligations.BytesAfterEndMarkerIgnored := by
  intro p bs extra D hint h
  have hphase := (decRun_ends p bs bs.length hint).1.phase_of_ok h
  obtain ⟨pulled, hlong⟩ := decRun_append p bs extra hint (by simp [hphase])
  unfold decompress
  rw [hlong]
  exact ⟨(State.txResult_onInput _ _ _ _).trans h, rfl⟩

/-- Settles O1: the turn is DEC's, and DEC's step is the decoded instruction's meaning. -/
theorem stepRunsDecodedInstruction : Obligations.StepRunsDecodedInstruction := by
  intro s i rest hb hr hd
  refine ⟨fun hs hp => (step_dec s hp hb hr).trans (State.decTurn_ok hs hd),
    fun r hs hp => (step_dec_idle hp hb hr).trans (State.decTurn_ok hs hd), fun hs hp => ?_⟩
  rw [← State.decStep_ok hd]
  exact (step_dec s hp hb hr).trans (if_pos hs)

/-- Settles O9: START_PASS is decoded, and its meaning is the change of phase. -/
theorem startPassGoesToLoop : Obligations.StartPassGoesToLoop := by
  intro s b r hb hr hs hp hph hin hle
  have hd : decode s.profile s.phase s.inputLeft = .ok .startPass (b :: r) := by
    rw [hph, hin]
    exact decode_start_low hle
  exact ⟨rfl, (step_dec s hp hb hr).trans (State.decTurn_ok hs hd)⟩

/-- Settles O10: 1 to 3 fits in the two bits of the carry state. -/
theorem startTrailGoesToTrail : Obligations.StartTrailGoesToTrail := by
  intro s nn h h'
  refine ⟨BitVec.ofNat 2 (startRun nn), ?_, startRun_ne_zero h h', rfl⟩
  rw [BitVec.toNat_ofNat]
  exact Nat.mod_eq_of_lt (by simp only [startRun, startBias]; omega)

end Sys2Proof.Machine
end

section
/-! The two ways a match token of distance `dist` ends (41_decoder_matches R151, R164): the copy, where `dist`
does not exceed |OUT|, and the lookbehind fault, where it does. -/

namespace Sys2Proof.Machine

variable {s : State} {hdr len dist : Nat} {mPos : Int} {carry : BitVec 2}

/-- A match token whose distance lies inside OUT completes (R170, R132). -/
theorem matchToken_copies (hw : s.out.wf) (hm : mPos = s.out.size - dist) (hpos : 0 < dist)
    (hle : dist ≤ s.out.size) :
    matchToken hdr mPos len carry s =
      .next { s with
        ip := s.ip + hdr
        out := s.out.appendAll (periodic s.out.bytes (s.out.size - dist) len)
        seenMatch := true
        phase := if carry = 0 then .loop else .trail carry } := by
  have hnat : mPos.toNat = s.out.size - dist := by omega
  rw [matchToken_eq _ _ _ _ _ hw (by omega), if_neg (by omega), hnat]
  rfl

/-- A match token whose distance exceeds |OUT| raises LookbehindUnderrun (R164), whatever OUT holds. -/
theorem matchToken_far (hm : mPos = s.out.size - dist) (hlt : s.out.size < dist) :
    ∃ t, matchToken hdr mPos len carry s = .next t ∧
      s.FaultFrom .lookbehindUnderrun (s.ip + hdr) t :=
  ⟨_, if_pos (by omega), s.faultFrom_advance hdr _⟩

end Sys2Proof.Machine
end

section
/-! The statements of family 41_decoder_matches. In each class the token's distance is the sum that its
`posM…_eq` lemma takes from |OUT|. -/

namespace Sys2Proof.Machine

/-- Settles O14: a match token with a 2-byte header and length 2. -/
theorem m1CopiesTwoBytes : Obligations.M1CopiesTwoBytes := fun _ _ _ _ hw hle =>
  matchToken_copies hw (by rw [posM1_eq]; omega) (by omega) hle

/-- Settles O15: a match token with a 2-byte header and length 3. -/
theorem m1bCopiesThreeBytes : Obligations.M1bCopiesThreeBytes := fun _ _ _ _ hw hle =>
  matchToken_copies hw (by rw [posM1b_eq]; omega) (by omega) hle

/-- Settles O16: a match token with a 2-byte header. -/
theorem m2CopiesItsLength : Obligations.M2CopiesItsLength := fun _ _ _ _ _ hw hle =>
  matchToken_copies hw (by rw [posM2_eq]; omega) (by omega) hle

/-- Settles O17: a match token with a 3-byte header and the bytes of its extension. -/
theorem m3CopiesItsLength : Obligations.M3CopiesItsLength := fun _ _ _ _ _ hw hle =>
  matchToken_copies hw (by rw [posM3_eq]; omega) (by omega) hle

/-- Settles O18: a match token with a 3-byte header and the bytes of its extension. -/
theorem m4CopiesItsLength : Obligations.M4CopiesItsLength := fun _ _ _ _ _ _ hw hle =>
  matchToken_copies hw (by rw [posM4_eq]; omega) (by omega) hle

/-- Settles O20: in each of the five classes the token's distance exceeds |OUT|. -/
theorem farMatchRaisesLookbehind : Obligations.FarMatchRaisesLookbehind := by
  intro s
  refine ⟨fun d c h hlt => ?m1, fun d c h hlt => ?m1b, fun l d c h hlt => ?m2,
    fun len d c h hlt => ?m3, fun hb len d c h hlt => ?m4⟩
  case m1 => exact matchToken_far (by rw [posM1_eq]; omega) hlt
  case m1b => exact matchToken_far (by rw [posM1b_eq]; omega) hlt
  case m2 => exact matchToken_far (by rw [posM2_eq]; omega) hlt
  case m3 => exact matchToken_far (by rw [posM3_eq]; omega) hlt
  case m4 => exact matchToken_far (by rw [posM4_eq]; omega) hlt

/-- Settles O19: the marker's meaning is to move past its header and to end the run (R133, R294); the pulled
count and the draw counter are those of State.drawPulled. -/
theorem eosEndsTheRun : Obligations.EosEndsTheRun := fun _ _ _ => ⟨_, _, rfl⟩

end Sys2Proof.Machine
end

section
/-! SUPPORT. The length fields the emit side writes (42_token_emit R181, R183, R185): the value inline where
it fits, else EmitExt's bytes, which are one extension of the decoder (30_encoding R90). -/

namespace Sys2Proof.Machine

variable {p : Profile} {w : Nat}

/-- The extension EmitExt(r) writes, in the decoder's terms: how many continuing bytes, and the terminator
(R181, 30_encoding R90). -/
def extParts (p : Profile) (r : Nat) : Nat × Byte :=
  match p.extCont with
  | .c255 => (r / 255, byteOf (r % 255))
  | .c0 => ((r - 1) / 255, byteOf ((r - 1) % 255 + 1))

theorem extBytes_eq (p : Profile) (r : Nat) :
    extBytes p r = List.replicate (extParts p r).1 p.extCont.byte ++ [(extParts p r).2] := by
  unfold extBytes extParts
  cases p.extCont <;> rfl

theorem extParts_terminator (p : Profile) (r : Nat) : (extParts p r).2 ≠ p.extCont.byte := by
  unfold extParts
  cases p.extCont
  all_goals
    simp only [ExtCont.byte, byteOf, ne_eq, ← BitVec.toNat_inj, BitVec.toNat_ofNat]
    omega

theorem extParts_value {r : Nat} (hr : 1 ≤ r) :
    255 * (extParts p r).1 + (extParts p r).2.toNat = r := by
  unfold extParts
  cases p.extCont
  all_goals
    simp only [byteOf, BitVec.toNat_ofNat]
    omega

/-- ExtLen(r) is the number of bytes EmitExt(r) writes (R181). -/
theorem length_extBytes {r : Nat} (hr : 1 ≤ r) : (extBytes p r).length = extLen p r := by
  unfold extBytes extLen
  cases p.extCont
  case c255 => simp
  case c0 =>
    simp only [List.length_append, List.length_replicate, List.length_singleton]
    omega

/-- The length field written for the value `t`, `base` being the largest inline value (R83, R87, R88). -/
def lenField (p : Profile) (base t : Nat) : LenField w :=
  if t ≤ base then .inline (BitVec.ofNat w t)
  else .ext (extParts p (t - base)).1 (extParts p (t - base)).2

theorem lenField_inline {base t : Nat} (h : t ≤ base) :
    (lenField p base t : LenField w) = .inline (BitVec.ofNat w t) := if_pos h

theorem lenField_ext {base t : Nat} (h : ¬ t ≤ base) :
    (lenField p base t : LenField w) =
      .ext (extParts p (t - base)).1 (extParts p (t - base)).2 := if_neg h

theorem lenField_wf {base t : Nat} (hb : base < 2 ^ w) (ht : 1 ≤ t) :
    (lenField p base t : LenField w).wf p = true := by
  by_cases h : t ≤ base
  · rw [lenField_inline h]
    simp only [LenField.wf, bne_iff_ne, ne_eq, ← BitVec.toNat_inj, BitVec.toNat_ofNat,
      Nat.mod_eq_of_lt (h.trans_lt hb), BitVec.ofNat_eq_ofNat, Nat.zero_mod]
    omega
  · rw [lenField_ext h]
    exact bne_iff_ne.2 (extParts_terminator p _)

theorem lenValue_lenField {base t : Nat} (hb : base < 2 ^ w) :
    lenValue base (lenField p base t : LenField w) = t := by
  by_cases h : t ≤ base
  · rw [lenField_inline h, lenValue, BitVec.toNat_ofNat, Nat.mod_eq_of_lt (h.trans_lt hb)]
  · rw [lenField_ext h, lenValue, extParts_value (by omega)]
    omega

/-- The extension of a value that does not fit inline is what EmitExt writes. -/
theorem extBytes_lenField {base t : Nat} (h : ¬ t ≤ base) :
    (lenField p base t : LenField w).extBytes p = extBytes p (t - base) := by
  rw [lenField_ext h, LenField.extBytes, extBytes_eq]

/-- A token's first byte with its length field, and the extension after it: `pic` is the byte's bit picture,
`inl` the byte written for an inline value, `b` the one before an extension (R183, R185). -/
theorem lenHead_eq {base t : Nat} {inl : Nat → Byte} {b : Byte} {pic : BitVec w → Byte}
    (hin : ∀ t ≤ base, inl t = pic (BitVec.ofNat w t)) (hext : b = pic 0) :
    (if t ≤ base then [inl t] else b :: extBytes p (t - base)) =
      pic (lenField p base t).bits :: (lenField p base t : LenField w).extBytes p := by
  by_cases h : t ≤ base
  · rw [if_pos h, hin t h, lenField_inline h]
    rfl
  · rw [if_neg h, extBytes_lenField h, hext, lenField_ext h]
    rfl

end Sys2Proof.Machine
end

section
/-! SUPPORT. The token EmitMatch writes (42_token_emit R185): its instruction, whose encoding under any carry
is the bytes written, the carry bits put in. -/

namespace Sys2Proof.Machine

variable {p : Profile} {cls : MatchClass} {dist len : Nat} {ctx : EmitCtx}

/-- The six bits above the carry bits (R84 to R88). -/
def carryHigh (cls : MatchClass) (dist len : Nat) : BitVec 6 :=
  match cls with
  | .m1 => 0#4 ++ BitVec.ofNat 2 (dist - 1)
  | .m1b => 0#4 ++ BitVec.ofNat 2 (dist - 2049)
  | .m2 => BitVec.ofNat 3 (len - 1) ++ BitVec.ofNat 3 (dist - 1)
  | .m3 => BitVec.ofNat 6 (dist - 1)
  | .m4 => BitVec.ofNat 6 (dist - 16384)

/-- The last byte of a match token. -/
def lastByte (cls : MatchClass) (dist : Nat) : Byte :=
  match cls with
  | .m1 => byteOf ((dist - 1) >>> 2)
  | .m1b => byteOf ((dist - 2049) >>> 2)
  | .m2 => byteOf ((dist - 1) >>> 3)
  | .m3 => byteOf ((dist - 1) >>> 6)
  | .m4 => byteOf (((dist - 16384) &&& 0x3FFF) >>> 6)

/-- The bytes of a match token with carry `c` (R184, R185). -/
def matchBytes (p : Profile) (cls : MatchClass) (dist len : Nat) (c : BitVec 2) : List Byte :=
  matchHead p cls dist len ++ [carryHigh cls dist len ++ c, lastByte cls dist]

/-- The token of a match with carry `c`, in the words of R185. -/
def matchInstr (p : Profile) (cls : MatchClass) (dist len : Nat) (c : BitVec 2) : Instr :=
  match cls with
  | .m1 => .m1 (BitVec.ofNat 2 (dist - 1)) c (lastByte .m1 dist)
  | .m1b => .m1b (BitVec.ofNat 2 (dist - 2049)) c (lastByte .m1b dist)
  | .m2 => .m2 (BitVec.ofNat 3 (len - 1)) (BitVec.ofNat 3 (dist - 1)) c (lastByte .m2 dist)
  | .m3 => .m3 (lenField p m3ExtBase (len - 2)) (BitVec.ofNat 6 (dist - 1)) c (lastByte .m3 dist)
  | .m4 =>
    .m4 (BitVec.ofNat 1 ((dist - 16384) >>> 14)) (lenField p m4ExtBase (len - 2))
      (BitVec.ofNat 6 (dist - 16384)) c (lastByte .m4 dist)

/-- Length 2 exists only as M1; every other class holds length 3 or more at distances up to 49151 (R185). -/
theorem representable_cases (h : representable cls dist len ctx = true) :
    (cls = .m1 ∧ len = 2 ∧ ctx = .plain ∧ 1 ≤ dist ∧ dist ≤ 1024) ∨
      (cls ≠ .m1 ∧ 3 ≤ len ∧ 1 ≤ dist ∧ dist ≤ 49151) := by
  cases cls with
  | m1 => obtain ⟨hc, hl, hd⟩ := of_decide_eq_true h; exact .inl ⟨rfl, hl, hc, hd⟩
  | m1b => obtain ⟨-, hl, hd⟩ := of_decide_eq_true h; exact .inr ⟨nofun, by omega⟩
  | m2 => obtain ⟨hl, hl', hd⟩ := of_decide_eq_true h; exact .inr ⟨nofun, by omega⟩
  | m3 => obtain ⟨hl, hd⟩ := of_decide_eq_true h; exact .inr ⟨nofun, by omega⟩
  | m4 => obtain ⟨hl, hd⟩ := of_decide_eq_true h; exact .inr ⟨nofun, by omega⟩

theorem one_le_dist (h : representable cls dist len ctx = true) : 1 ≤ dist := by
  rcases representable_cases h with ⟨-, -, -, hd, -⟩ | ⟨-, -, hd, -⟩
  · exact hd
  · exact hd

/-! ## The bytes written are the bit pictures of 30_encoding -/

theorem byteOf_low2 (x : Nat) : byteOf ((x &&& 3) <<< 2) = (0#4 ++ BitVec.ofNat 2 x ++ 0#2 : Byte) := by
  apply BitVec.eq_of_toNat_eq
  simp only [byteOf, toNat_append, BitVec.toNat_ofNat, Nat.and_two_pow_sub_one_eq_mod x 2,
    Nat.shiftLeft_eq]
  omega

theorem byteOf_m2 (l x : Nat) :
    byteOf ((l <<< 5) ||| ((x &&& 7) <<< 2)) =
      (BitVec.ofNat 3 l ++ BitVec.ofNat 3 x ++ 0#2 : Byte) := by
  have hor : (l <<< 5) ||| ((x &&& 7) <<< 2) = (l <<< 5) + ((x &&& 7) <<< 2) := by
    rw [Nat.shiftLeft_add_eq_or_of_lt]
    rw [Nat.and_two_pow_sub_one_eq_mod x 3, Nat.shiftLeft_eq]
    omega
  apply BitVec.eq_of_toNat_eq
  rw [byteOf, hor]
  simp only [toNat_append, BitVec.toNat_ofNat, Nat.and_two_pow_sub_one_eq_mod x 3, Nat.shiftLeft_eq]
  omega

theorem byteOf_high6 (x : Nat) : byteOf ((x <<< 2) &&& 255) = (BitVec.ofNat 6 x ++ 0#2 : Byte) := by
  apply BitVec.eq_of_toNat_eq
  simp only [byteOf, toNat_append, BitVec.toNat_ofNat, Nat.and_two_pow_sub_one_eq_mod _ 8,
    Nat.shiftLeft_eq]
  omega

theorem byteOf_m3 : ∀ t ≤ 31, byteOf (32 ||| t) = (1#3 ++ BitVec.ofNat 5 t : Byte) := by decide

theorem byteOf_m4 : ∀ h < 2, ∀ t ≤ 7,
    byteOf (16 ||| (h <<< 3) ||| t) = (1#4 ++ BitVec.ofNat 1 h ++ BitVec.ofNat 3 t : Byte) := by
  decide

theorem ofNat_six_and (x : Nat) : BitVec.ofNat 6 (x &&& 0x3FFF) = BitVec.ofNat 6 x := by
  apply BitVec.eq_of_toNat_eq
  simp only [BitVec.toNat_ofNat, Nat.and_two_pow_sub_one_eq_mod x 14]
  omega

/-- EmitMatch writes its last two bytes with carry 0 (R185). -/
theorem matchTail_eq (h : representable cls dist len ctx = true) :
    matchTail cls dist len = [carryHigh cls dist len ++ 0#2, lastByte cls dist] := by
  cases cls with
  | m1 => rw [matchTail, byteOf_low2]; rfl
  | m1b => rw [matchTail, byteOf_low2]; rfl
  | m2 => rw [matchTail, byteOf_m2]; rfl
  | m3 => rw [matchTail, byteOf_high6]; rfl
  | m4 => simp only [matchTail, byteOf_high6, ofNat_six_and]; rfl

/-- The token with carry `c` is encoded as EmitMatch writes it, with `c` in the carry bits. -/
theorem encode_matchInstr (h : representable cls dist len ctx = true) (c : BitVec 2) :
    encode p (matchInstr p cls dist len c) = matchBytes p cls dist len c := by
  unfold matchBytes
  cases cls with
  | m1 => rfl
  | m1b => rfl
  | m2 => rfl
  | m3 =>
    have head := lenHead_eq (p := p) (t := len - 2) (b := byteOf 32)
      (pic := fun l : BitVec 5 => (1#3 ++ l : Byte)) byteOf_m3 rfl
    rw [matchHead, head]
    rfl
  | m4 =>
    obtain ⟨-, -, hd⟩ := of_decide_eq_true h
    have hh : (dist - 16384) >>> 14 < 2 := by rw [Nat.shiftRight_eq_div_pow]; omega
    have hext := byteOf_m4 _ hh 0 (by decide)
    rw [Nat.or_zero] at hext
    have head := lenHead_eq (p := p) (t := len - 2) (byteOf_m4 _ hh) hext
    simp only [matchHead, head]
    rfl

/-! ## The token is read in its context, as the match it was written for -/

theorem matchInstr_wf (h : representable cls dist len ctx = true) (c : BitVec 2) :
    (matchInstr p cls dist len c).wf p = true := by
  cases cls with
  | m1 => rfl
  | m1b => rfl
  | m2 =>
    obtain ⟨hl, hl', -⟩ := of_decide_eq_true h
    simp only [matchInstr, Instr.wf, BitVec.toNat_ofNat, decide_eq_true_eq]
    omega
  | m3 =>
    obtain ⟨hl, -⟩ := of_decide_eq_true h
    exact lenField_wf (by decide) (by omega)
  | m4 =>
    obtain ⟨hl, hd, hd'⟩ := of_decide_eq_true h
    have hlen : (lenField p m4ExtBase (len - 2) : LenField 3).wf p = true :=
      lenField_wf (by decide) (by omega)
    simp only [matchInstr, lastByte, Instr.wf, hlen, Bool.true_and, Bool.or_eq_true, bne_iff_ne, ne_eq,
      ← BitVec.toNat_inj, BitVec.toNat_ofNat, byteOf, Nat.shiftRight_eq_div_pow, BitVec.ofNat_eq_ofNat,
      Nat.and_two_pow_sub_one_eq_mod _ 14]
    omega

theorem matchInstr_readIn (h : representable cls dist len ctx = true) (c : BitVec 2) :
    (matchInstr p cls dist len c).readIn (readPhase ctx) = true := by
  cases cls with
  | m1 => obtain ⟨rfl, -⟩ := of_decide_eq_true h; rfl
  | m1b => obtain ⟨rfl, -⟩ := of_decide_eq_true h; rfl
  | m2 => cases ctx <;> rfl
  | m3 => cases ctx <;> rfl
  | m4 => cases ctx <;> rfl

/-- A low field of `w` bits and the byte of the rest hold the number (R84 to R88). -/
theorem toNat_ofNat_add_byteOf {w x : Nat} (hx : x < 2 ^ w * 256) :
    (BitVec.ofNat w x).toNat + 2 ^ w * (byteOf (x >>> w)).toNat = x := by
  have hq : x / 2 ^ w < 2 ^ 8 := Nat.div_lt_of_lt_mul hx
  rw [byteOf, BitVec.toNat_ofNat, BitVec.toNat_ofNat, Nat.shiftRight_eq_div_pow, Nat.mod_eq_of_lt hq,
    Nat.mod_add_div]

/-- The token stands for the match it was written for (R185). -/
theorem matchOf_matchInstr (h : representable cls dist len ctx = true) (c : BitVec 2) (n0 : Nat) :
    matchOf n0 (matchInstr p cls dist len c) = some ((n0 : Int) - dist, len, c) := by
  cases cls with
  | m1 =>
    obtain ⟨-, rfl, hd, hd'⟩ := of_decide_eq_true h
    have hx : dist - 1 < 2 ^ 2 * 256 := by omega
    simp only [matchInstr, lastByte, matchOf, posM1_eq, toNat_ofNat_add_byteOf hx,
      Nat.add_sub_cancel' hd]
  | m1b =>
    obtain ⟨-, rfl, hd, hd'⟩ := of_decide_eq_true h
    have hx : dist - 2049 < 2 ^ 2 * 256 := by omega
    simp only [matchInstr, lastByte, matchOf, posM1b_eq, toNat_ofNat_add_byteOf hx,
      Nat.add_sub_cancel' hd]
  | m2 =>
    obtain ⟨hl, hl', hd, hd'⟩ := of_decide_eq_true h
    have hx : dist - 1 < 2 ^ 3 * 256 := by omega
    have hlen : lenM2 (BitVec.ofNat 3 (len - 1)) = len := by
      rw [lenM2, BitVec.toNat_ofNat]; omega
    simp only [matchInstr, lastByte, matchOf, posM2_eq, toNat_ofNat_add_byteOf hx,
      Nat.add_sub_cancel' hd, hlen]
  | m3 =>
    obtain ⟨hl, hd, hd'⟩ := of_decide_eq_true h
    have hx : dist - 1 < 2 ^ 6 * 256 := by omega
    have hlen : lenM3 (lenField p m3ExtBase (len - 2)) = len := by
      rw [lenM3, lenValue_lenField (by decide)]; omega
    simp only [matchInstr, lastByte, matchOf, posM3_eq, toNat_ofNat_add_byteOf hx,
      Nat.add_sub_cancel' hd, hlen]
  | m4 =>
    obtain ⟨hl, hd, hd'⟩ := of_decide_eq_true h
    have hlow : (dist - 16384) &&& 0x3FFF = (dist - 16384) % 16384 :=
      Nat.and_two_pow_sub_one_eq_mod _ 14
    have hx : (dist - 16384) % 16384 < 2 ^ 6 * 256 := Nat.mod_lt _ (by decide)
    have hlen : lenM4 (lenField p m4ExtBase (len - 2)) = len := by
      rw [lenM4, lenValue_lenField (by decide)]; omega
    have hhb : 16384 + 16384 * (BitVec.ofNat 1 ((dist - 16384) >>> 14)).toNat +
        (dist - 16384) % 16384 = dist := by
      rw [BitVec.toNat_ofNat, Nat.shiftRight_eq_div_pow]; omega
    rw [matchInstr, lastByte, matchOf, posM4_eq, ← ofNat_six_and, hlow, toNat_ofNat_add_byteOf hx,
      hhb, hlen]

/-- What EmitMatch writes, under any carry, is read back as its token (R185). -/
theorem decode_matchBytes (h : representable cls dist len ctx = true) (c : BitVec 2)
    (rest : List Byte) :
    decode p (readPhase ctx) (matchBytes p cls dist len c ++ rest) =
      .ok (matchInstr p cls dist len c) rest := by
  rw [← encode_matchInstr h]
  refine decode_encode (matchInstr_wf h c) (matchInstr_readIn h c) ?_
  cases cls <;> exact nofun

end Sys2Proof.Machine
end

section
/-! SUPPORT. The cost of a class, and which class Classify returns (42_token_emit R187). -/

namespace Sys2Proof.Machine

variable {p : Profile} {cls cls' : MatchClass} {dist len cost : Nat} {ctx : EmitCtx}

/-- How many bytes EmitMatch writes in a class (R187). -/
def matchCost (p : Profile) (len : Nat) : MatchClass → Nat
  | .m1 => 2
  | .m1b => 2
  | .m2 => 2
  | .m3 => 3 + if len - 2 > 31 then extLen p (len - 2 - 31) else 0
  | .m4 => 3 + if len - 2 > 7 then extLen p (len - 2 - 7) else 0

theorem two_le_matchCost (p : Profile) (len : Nat) (cls : MatchClass) : 2 ≤ matchCost p len cls := by
  cases cls with
  | m3 => exact Nat.le_add_right_of_le (by decide)
  | m4 => exact Nat.le_add_right_of_le (by decide)
  | _ => exact le_rfl

theorem length_head_append_tail (p : Profile) (cls : MatchClass) (dist len : Nat) :
    (matchHead p cls dist len ++ matchTail cls dist len).length = matchCost p len cls := by
  rw [List.length_append]
  cases cls with
  | m3 =>
    simp only [matchHead, matchTail, matchCost, List.length_cons, List.length_nil]
    by_cases h : len - 2 ≤ 31
    · rw [if_pos h, if_neg h.not_gt]; rfl
    · rw [if_neg h, if_pos (not_le.1 h), List.length_cons, length_extBytes (by omega)]; omega
  | m4 =>
    simp only [matchHead, matchTail, matchCost, List.length_cons, List.length_nil]
    by_cases h : len - 2 ≤ 7
    · rw [if_pos h, if_neg h.not_gt]; rfl
    · rw [if_neg h, if_pos (not_le.1 h), List.length_cons, length_extBytes (by omega)]; omega
  | _ => rfl

theorem cost_of_classify {uses : MatchClass → Bool}
    (h : classify p uses dist len ctx = some (cls, cost)) : cost = matchCost p len cls := by
  unfold classify at h
  repeat' split at h
  all_goals cases h
  all_goals simp [matchCost, *]

/-- Classify on a length of 3 or more at a distance in range, with every class in use (R187). -/
theorem classify_of_three_le (hl : 3 ≤ len) (hd : 1 ≤ dist) (hd' : dist ≤ 49151) :
    classify p (fun _ => true) dist len ctx =
      if len = 3 ∧ ctx = .biased ∧ 2049 ≤ dist ∧ dist ≤ 3072 then some (.m1b, 2)
      else if len ≤ 8 ∧ dist ≤ 2048 then some (.m2, 2)
      else if dist ≤ 16384 then some (.m3, matchCost p len .m3)
      else some (.m4, matchCost p len .m4) := by
  rw [classify, if_neg (by omega), if_neg (by unfold m4MaxOffset; omega)]
  simp only [true_and, if_true, matchCost]

/-- Classify returns M3 only where neither of the 2-byte classes of length 3 and more fits. -/
theorem not_short_of_classify_m3 (hl : 3 ≤ len) (hd : 1 ≤ dist) (hd' : dist ≤ 49151)
    (h : classify p (fun _ => true) dist len ctx = some (.m3, cost)) :
    ¬ (len = 3 ∧ ctx = .biased ∧ 2049 ≤ dist ∧ dist ≤ 3072) ∧
      ¬ (len ≤ 8 ∧ dist ≤ 2048) := by
  rw [classify_of_three_le hl hd hd'] at h
  split at h
  · cases h
  · next hm1b =>
    split at h
    · cases h
    · next hm2 => exact ⟨hm1b, hm2⟩

/-- A match that some class can represent has a class. -/
theorem classify_ne_none (h : representable cls dist len ctx = true) :
    classify p (fun _ => true) dist len ctx ≠ none := by
  rcases representable_cases h with ⟨-, hl, hd⟩ | ⟨-, hl, hd, hd'⟩
  · rw [classify, if_pos hl, if_pos ⟨rfl, hd⟩]
    exact nofun
  · rw [classify_of_three_le hl hd hd']
    repeat' split
    all_goals exact nofun

/-- No class that can represent the match costs less than the one Classify returns. -/
theorem matchCost_le_of_classify
    (h : classify p (fun _ => true) dist len ctx = some (cls, cost))
    (h' : representable cls' dist len ctx = true) : matchCost p len cls ≤ matchCost p len cls' := by
  have hr := representable_of_classify _ _ _ _ _ _ _ h
  cases cls with
  | m3 =>
    obtain ⟨hl, hpos, hd⟩ := of_decide_eq_true hr
    obtain ⟨hm1b, hm2⟩ := not_short_of_classify_m3 hl hpos (by omega) h
    cases cls' with
    | m1 => obtain ⟨-, hl', -⟩ := of_decide_eq_true h'; omega
    | m1b => obtain ⟨hc, hl', hd'⟩ := of_decide_eq_true h'; exact absurd ⟨hl', hc, hd'⟩ hm1b
    | m2 => obtain ⟨-, hl', -, hd'⟩ := of_decide_eq_true h'; exact absurd ⟨hl', hd'⟩ hm2
    | m3 => exact le_rfl
    | m4 => obtain ⟨-, hd', -⟩ := of_decide_eq_true h'; omega
  | m4 =>
    obtain ⟨hl, hd, -⟩ := of_decide_eq_true hr
    cases cls' with
    | m1 => obtain ⟨-, hl', -⟩ := of_decide_eq_true h'; omega
    | m1b => obtain ⟨-, -, -, hd'⟩ := of_decide_eq_true h'; omega
    | m2 => obtain ⟨-, -, -, hd'⟩ := of_decide_eq_true h'; omega
    | m3 => obtain ⟨-, -, hd'⟩ := of_decide_eq_true h'; omega
    | m4 => exact le_rfl
  | _ => exact two_le_matchCost p len cls'

end Sys2Proof.Machine
end

section
/-! SUPPORT. What the two emit calls leave in C (42_token_emit R183 to R185). -/

namespace Sys2Proof.Machine

variable {p : Profile} {em : Emitter} {cls : MatchClass} {dist len : Nat} {ctx : EmitCtx}
  {run : List Byte}

/-- The bytes of C after a match (R185). -/
theorem emitMatch_bytes (h : representable cls dist len ctx = true) :
    (emitMatch p cls dist len em).c.bytes =
      em.c.bytes ++ matchHead p cls dist len ++ [carryHigh cls dist len ++ 0#2, lastByte cls dist] := by
  rw [emitMatch, Memory.bytes_appendAll, matchTail_eq h, List.append_assoc]

/-- `carry_idx` names the byte before the last (R184). -/
theorem emitMatch_carryIdx (p : Profile) (cls : MatchClass) (dist len : Nat) (em : Emitter) :
    (emitMatch p cls dist len em).carryIdx =
      some (em.c.bytes ++ matchHead p cls dist len).length := by
  rw [List.length_append, Memory.bytes_length]
  rfl

/-- Carry bits that are 0 take the run's length (R184). -/
theorem carryByte_or : ∀ (x : BitVec 6), ∀ n ≤ 3,
    (x ++ 0#2 : Byte) ||| byteOf n = x ++ BitVec.ofNat 2 n := by decide

theorem carryByte_and : ∀ x : BitVec 6, (x ++ 0#2 : Byte) &&& 3#8 = 0#8 := by decide

theorem modify_at_length (a : List Byte) (v : Byte) (r : List Byte) (f : Byte → Byte) :
    (a ++ v :: r).modify a.length f = a ++ f v :: r := by
  rw [List.modify_eq_set_getElem?]
  simp

/-- A run of 1 to 3 bytes after a match patches the byte `carry_idx` names, and follows (R183, R184). -/
theorem emitLiterals_patch_bytes {pre r : List Byte} {v : Byte} (hw : em.c.wf)
    (hc : em.c.bytes = pre ++ v :: r) (hi : em.carryIdx = some pre.length) (h1 : 1 ≤ run.length)
    (h3 : run.length ≤ 3) :
    (emitLiterals p run em).c.bytes = pre ++ (v ||| byteOf run.length) :: r ++ run := by
  have hne : ¬ (em.c.size = 0 ∧ run.length ≤ 238) := by
    rw [← Memory.bytes_length, hc]
    simp
  rw [emitLiterals, if_neg (by omega), announceRun, if_neg hne, if_pos h3, carryPatch]
  simp only [hi]
  rw [Memory.bytes_appendAll, Memory.bytes_modify _ hw, hc, modify_at_length]

theorem byteOf_lit : ∀ t ≤ 15, byteOf t = (0#4 ++ BitVec.ofNat 4 t : Byte) := by decide

/-- The LIT token that announces a run of `t + 3` bytes (R183). -/
theorem litHead_eq {t : Nat} :
    (if t ≤ 15 then [byteOf t] else byteOf 0 :: extBytes p (t - 15)) =
      encode p (.lit (lenField p litExtBase t)) :=
  lenHead_eq (pic := fun l : BitVec 4 => (0#4 ++ l : Byte)) byteOf_lit rfl

/-- The first run of up to 238 bytes takes the START form (R183). -/
theorem emitLiterals_start_bytes (hc : em.c.bytes = []) (h1 : 1 ≤ run.length) (h : run.length ≤ 238) :
    (emitLiterals p run em).c.bytes = byteOf (17 + run.length) :: run := by
  have hs : em.c.size = 0 := by rw [← Memory.bytes_length, hc]; rfl
  rw [emitLiterals, if_neg (by omega), announceRun, if_pos ⟨hs, h⟩, Memory.bytes_appendAll,
    Memory.bytes_append, hc]
  rfl

/-- Another run of 4 bytes or more takes the LIT form (R183). -/
theorem emitLiterals_lit_bytes (h : em.c.bytes ≠ [] ∨ 238 < run.length) (h4 : 4 ≤ run.length) :
    (emitLiterals p run em).c.bytes =
      em.c.bytes ++ encode p (.lit (lenField p litExtBase (run.length - 3))) ++ run := by
  have hs : ¬ (em.c.size = 0 ∧ run.length ≤ 238) := by
    rintro ⟨hs, hle⟩
    rcases h with hc | hlt
    · exact hc (List.length_eq_zero_iff.1 (by rw [Memory.bytes_length, hs]))
    · omega
  rw [emitLiterals, if_neg (by omega), announceRun, if_neg hs, if_neg (by omega),
    Memory.bytes_appendAll, ← litHead_eq]
  by_cases h18 : run.length ≤ 18
  · rw [if_pos h18, if_pos (by omega), Memory.bytes_append]
  · rw [if_neg h18, if_neg (by omega), Memory.bytes_appendAll, Nat.sub_sub]

end Sys2Proof.Machine
end

section
/-! SUPPORT. A DEC run by its cursor in the stream: the stream is split where the run stands, and each token
moves the split (40_decoder_control R120). -/

namespace Sys2Proof.Machine

/-- What a DEC run has come to: OUT, the phase and `seen_match` (10_state R24, R25, R27). -/
structure DecView where
  out : List Byte
  phase : Phase
  seen : Bool

variable {p : Profile} {hint : Nat} {pre post bs bs' : List Byte} {v v' v'' : DecView} {i : Instr}

/-- decompress's run on the stream `pre ++ post`, standing behind `pre`. -/
def decAt (p : Profile) (hint : Nat) (pre post : List Byte) (v : DecView) : State :=
  { (callState p .reference (pre ++ post) (pre ++ post).length hint 0).start .dec with
    ip := pre.length
    out := Memory.ofBytes v.out
    phase := v.phase
    seenMatch := v.seen }

/-- The run is launched at the start of the stream (70_reset_and_hazards R292, 10_state R46). -/
theorem decAt_launch (p : Profile) (hint : Nat) (bs : List Byte) :
    decAt p hint [] bs ⟨[], .start, false⟩ =
      (callState p .reference bs bs.length hint 0).start .dec := rfl

theorem decAt_inputLeft : (decAt p hint pre post v).inputLeft = post := by
  simp only [State.inputLeft, State.limit, decAt, callState, State.start, State.launch_src,
    State.launch_runInLen, Memory.bytes_ofBytes, Memory.size_ofBytes, min_self, List.take_length,
    List.drop_left]

theorem decAt_srcWf : (decAt p hint pre post v).src.wf := Memory.wf_ofBytes _

theorem decAt_outWf : (decAt p hint pre post v).out.wf := Memory.wf_ofBytes _

theorem decAt_outSize : (decAt p hint pre post v).out.size = v.out.length := Memory.size_ofBytes _

theorem decAt_outBytes : (decAt p hint pre post v).out.bytes = v.out := Memory.bytes_ofBytes _

/-- Bytes used and appended move the cursor over them. -/
theorem decAt_move (bs lits : List Byte) (ph : Phase) (seen : Bool) :
    { (decAt p hint pre (bs ++ post) v).produce bs.length lits with phase := ph, seenMatch := seen } =
      decAt p hint (pre ++ bs) post ⟨v.out ++ lits, ph, seen⟩ := by
  simp [decAt, State.produce, Memory.ofBytes_appendAll, callState]

/-- A step of the run is the meaning of the token its phase reads. -/
theorem step_decAt {rest : List Byte} (h : decode p v.phase post = .ok i rest) :
    step (decAt p hint pre post v) = exec i (decAt p hint pre post v) := by
  have hc : ClosedDec (decAt p hint pre post v) := ⟨rfl, rfl, rfl⟩
  rw [hc.step_busy rfl]
  exact State.decStep_ok (by rw [decAt_inputLeft]; exact h)

/-- A step of the run on an encoded token. -/
theorem step_decAt_encode (hw : i.wf p = true) (hr : i.readIn v.phase = true) (hs : i ≠ .startPass) :
    step (decAt p hint pre (encode p i ++ post) v) = exec i (decAt p hint pre (encode p i ++ post) v) :=
  step_decAt (decode_encode hw hr fun h => absurd h hs)

/-- A first byte 0 to 17 is passed on to LOOP (R121). -/
theorem step_decAt_startPass {b : Byte} {out : List Byte} {seen : Bool} (hb : b.toNat ≤ 17) :
    step (decAt p hint pre (b :: post) ⟨out, .start, seen⟩) =
      .next (decAt p hint pre (b :: post) ⟨out, .loop, seen⟩) :=
  step_decAt (v := ⟨out, .start, seen⟩) (decode_start_low hb)

/-! ## Runs of several steps -/

theorem runSteps_one {s t : State} (h : step s = .next t) : runSteps 1 s = t := by
  simp only [runSteps, h]

/-- A state in which the machine stops is where its runs stay. -/
theorem runSteps_of_stop {s : State} (h : ∀ t, step s ≠ .next t) (n : Nat) : runSteps n s = s := by
  cases n with
  | zero => rfl
  | succ n =>
    unfold runSteps
    split
    · next t ht => exact absurd ht (h t)
    · rfl
    · rfl

theorem runSteps_add (a b : Nat) (s : State) : runSteps (a + b) s = runSteps b (runSteps a s) := by
  induction a generalizing s with
  | zero => rw [Nat.zero_add]; rfl
  | succ a ih =>
    by_cases h : ∃ t, step s = .next t
    · obtain ⟨t, ht⟩ := h
      simp only [Nat.succ_add, runSteps, ht, ih]
    · have hstop := runSteps_of_stop (not_exists.1 h)
      rw [hstop, hstop, hstop]

/-- Wherever `bs` stands in a stream, a DEC run that has come to `v` in front of it comes to `v'` behind
it. -/
def Reads (p : Profile) (v : DecView) (bs : List Byte) (v' : DecView) : Prop :=
  ∀ hint pre post, ∃ k,
    runSteps k (decAt p hint pre (bs ++ post) v) = decAt p hint (pre ++ bs) post v'

theorem Reads.of_step
    (h : ∀ hint pre post,
      step (decAt p hint pre (bs ++ post) v) = .next (decAt p hint (pre ++ bs) post v')) :
    Reads p v bs v' := fun hint pre post => ⟨1, runSteps_one (h hint pre post)⟩

theorem Reads.trans (h : Reads p v bs v') (h' : Reads p v' bs' v'') : Reads p v (bs ++ bs') v'' := by
  intro hint pre post
  obtain ⟨k, hk⟩ := h hint pre (bs' ++ post)
  obtain ⟨k', hk'⟩ := h' hint (pre ++ bs) post
  refine ⟨k + k', ?_⟩
  rw [List.append_assoc, runSteps_add, hk, hk', List.append_assoc]

/-- What is read in LOOP is read in START, if its first byte is 0 to 17 (R121). -/
theorem Reads.of_loop {b : Byte} {out : List Byte} {seen : Bool} (hb : b.toNat ≤ 17)
    (h : Reads p ⟨out, .loop, seen⟩ (b :: bs) v') : Reads p ⟨out, .start, seen⟩ (b :: bs) v' := by
  intro hint pre post
  obtain ⟨k, hk⟩ := h hint pre post
  refine ⟨k + 1, ?_⟩
  rw [List.cons_append] at hk ⊢
  simp only [runSteps, step_decAt_startPass hb]
  exact hk

/-! ## The tokens -/

/-- A token that copies literal bytes, read with its literals after it (R123, R125, R131). -/
theorem Reads.literals {lits : List Byte} {n : Nat} {next : Phase} (hw : i.wf p = true)
    (hr : i.readIn v.phase = true) (hs : i ≠ .startPass) (hn : n = lits.length)
    (hx : ∀ s : State, s.profile = p → s.seenMatch = v.seen →
      exec i s = literalRun (headerLen i) n next s) :
    Reads p v (encode p i ++ lits) ⟨v.out ++ lits, next, v.seen⟩ := by
  subst hn
  refine Reads.of_step fun hint pre post => ?_
  have hdrop : (encode p i ++ (lits ++ post)).drop (headerLen i) = lits ++ post := by
    rw [← length_encode p, List.drop_left]
  rw [List.append_assoc, step_decAt_encode hw hr hs, hx _ rfl rfl, literalRun_eq _ _ _ _ decAt_srcWf,
    decAt_inputLeft, hdrop, if_pos (by simp), List.take_left, ← decAt_move, List.length_append,
    length_encode, List.append_assoc]
  rfl

/-- A match token is what matchOf says of it. -/
theorem exec_of_matchOf {s : State} {m : Int} {len : Nat} {c : BitVec 2}
    (h : matchOf s.out.size i = some (m, len, c)) : exec i s = matchToken (headerLen i) m len c s := by
  cases i <;> cases h <;> rfl

/-- A match at a distance inside OUT, written in a class for its context, under any carry (R185). -/
theorem Reads.copy {cls : MatchClass} {dist len : Nat} {ctx : EmitCtx}
    (h : representable cls dist len ctx = true) (hd : dist ≤ v.out.length)
    (hph : v.phase = readPhase ctx) (c : BitVec 2) :
    Reads p v (matchBytes p cls dist len c)
      ⟨v.out ++ periodic v.out (v.out.length - dist) len, phaseAfter c, true⟩ := by
  refine Reads.of_step fun hint pre post => ?_
  have hm := matchOf_matchInstr (p := p) h c
    (decAt p hint pre (matchBytes p cls dist len c ++ post) v).out.size
  have hlen : headerLen (matchInstr p cls dist len c) = (matchBytes p cls dist len c).length := by
    rw [← length_encode p, encode_matchInstr h]
  rw [step_decAt (by rw [hph]; exact decode_matchBytes h c post), exec_of_matchOf hm,
    matchToken_copies decAt_outWf rfl (one_le_dist h) (by rwa [decAt_outSize]), decAt_outSize,
    decAt_outBytes, hlen, ← decAt_move]
  rfl

end Sys2Proof.Machine
end

section
/-! SUPPORT. How DEC reads the literal runs EmitLiterals writes (42_token_emit R182, R183). -/

namespace Sys2Proof.Machine

variable {p : Profile} {run out : List Byte} {seen : Bool}

theorem readPhase_ctxAfterRun_short {scope : BiasScope} {n : Nat} (h1 : 1 ≤ n) (h3 : n ≤ 3) :
    readPhase (ctxAfterRun scope seen n) = .dispatch .plain := by
  rw [ctxAfterRun, if_neg (by omega), if_pos h3]
  rfl

/-- The emitter's context after a run of 4 bytes or more is the decoder's RunCtx() (R182,
40_decoder_control R127). -/
theorem readPhase_ctxAfterRun_long {scope : BiasScope} {n : Nat} (h4 : 4 ≤ n) :
    readPhase (ctxAfterRun scope seen n) = .dispatch (runCtx scope seen) := by
  rw [ctxAfterRun, if_neg (by omega), if_neg (by omega)]
  cases scope <;> cases seen <;> rfl

theorem ctxAfterRun_ne_loopEntry {scope : BiasScope} {n : Nat} (h1 : 1 ≤ n) :
    ctxAfterRun scope seen n ≠ .loopEntry := by
  unfold ctxAfterRun
  rw [if_neg (by omega)]
  repeat' split
  all_goals exact nofun

theorem ofNat_two_ne_zero {n : Nat} (h1 : 1 ≤ n) (h3 : n ≤ 3) : BitVec.ofNat 2 n ≠ 0 := by
  intro h
  have hn := congrArg BitVec.toNat h
  simp only [BitVec.toNat_ofNat, BitVec.ofNat_eq_ofNat] at hn
  omega

/-- A run of 4 bytes or more in LOOP. -/
theorem Reads.litRun (h4 : 4 ≤ run.length) :
    Reads p ⟨out, .loop, seen⟩
      (encode p (.lit (lenField p litExtBase (run.length - 3))) ++ run)
      ⟨out ++ run, readPhase (ctxAfterRun p.biasScope seen run.length), seen⟩ := by
  have hn : Machine.litRun (lenField p litExtBase (run.length - 3)) = run.length := by
    rw [Machine.litRun, lenValue_lenField (by decide), litBias]; omega
  rw [readPhase_ctxAfterRun_long h4]
  refine Reads.literals (v := ⟨out, .loop, seen⟩) (lenField_wf (by decide) (by omega)) rfl nofun hn ?_
  rintro s rfl rfl
  rfl

/-- A run of 1 to 3 bytes that a carry has announced. -/
theorem Reads.carryRun (h1 : 1 ≤ run.length) (h3 : run.length ≤ 3) :
    Reads p ⟨out, .trail (BitVec.ofNat 2 run.length), seen⟩ run
      ⟨out ++ run, readPhase (ctxAfterRun p.biasScope seen run.length), seen⟩ := by
  have hn : (BitVec.ofNat 2 run.length).toNat = run.length := by
    rw [BitVec.toNat_ofNat]; omega
  rw [readPhase_ctxAfterRun_short h1 h3]
  refine Reads.literals (i := .trail _) (v := ⟨out, .trail (BitVec.ofNat 2 run.length), seen⟩)
    (bne_iff_ne.2 (ofNat_two_ne_zero h1 h3)) (beq_self_eq_true _) nofun hn fun _ _ _ => rfl

/-- The first run in the START form. -/
theorem Reads.startRun (h1 : 1 ≤ run.length) (h : run.length ≤ 238) :
    Reads p ⟨[], .start, seen⟩ (byteOf (17 + run.length) :: run)
      ⟨run, readPhase (ctxAfterRun p.biasScope seen run.length), seen⟩ := by
  have hb : (byteOf (17 + run.length)).toNat = 17 + run.length := by
    rw [byteOf, BitVec.toNat_ofNat]; omega
  have hn : Machine.startRun (byteOf (17 + run.length)) = run.length := by
    rw [Machine.startRun, hb, startBias]; omega
  by_cases h3 : run.length ≤ 3
  · have hw : (Instr.startTrail (byteOf (17 + run.length))).wf p = true := by
      simp only [Instr.wf, hb, Bool.and_eq_true, decide_eq_true_eq]; omega
    refine Reads.trans (bs := [_]) (v' := ⟨[], .trail (BitVec.ofNat 2 run.length), seen⟩)
      (Reads.of_step fun hint pre post => ?_) (Reads.carryRun h1 h3)
    refine (step_decAt_encode (v := ⟨[], .start, seen⟩) hw rfl nofun).trans ?_
    have move := decAt_move (p := p) (hint := hint) (pre := pre) (post := post)
      (v := ⟨[], .start, seen⟩) [byteOf (17 + run.length)] [] (.trail (BitVec.ofNat 2 run.length)) seen
    rw [State.produce_nil] at move
    rw [exec, execStartTrail, hn]
    exact congrArg _ move
  · have hw : (Instr.startLit (byteOf (17 + run.length))).wf p = true := by
      simp only [Instr.wf, hb, decide_eq_true_eq]; omega
    rw [readPhase_ctxAfterRun_long (by omega)]
    refine Reads.literals (i := .startLit (byteOf (17 + run.length))) (v := ⟨[], .start, seen⟩)
      hw rfl nofun hn ?_
    rintro s rfl rfl
    rfl

end Sys2Proof.Machine
end

section
/-! SUPPORT. The emit law (42_token_emit R189): what a sequence of emit calls has written is read as the bytes
it stands for, the last match under every carry, since a run to come may still patch it (R184). -/

namespace Sys2Proof.Machine

variable {p : Profile} {em : Emitter} {D : List Byte}

/-- A DEC run at its launch (10_state R46). -/
abbrev DecView.launch : DecView := ⟨[], .start, false⟩

/-- What C of an emitter that stands for `D` is to DEC: nothing yet; or a stream whose end has the context of
the next match; or one that ends in a match, whose carry bits may still be any. -/
inductive EmitterReads (p : Profile) (em : Emitter) (D : List Byte) : Prop where
  | nothing : em.c.bytes = [] → D = [] → em.ctx = .loopEntry → em.seenMatch = false →
      EmitterReads p em D
  | run : em.ctx ≠ .loopEntry →
      Reads p .launch em.c.bytes ⟨D, readPhase em.ctx, em.seenMatch⟩ → EmitterReads p em D
  | copy (pre : List Byte) (u : BitVec 6) (h : Byte) : em.ctx = .loopEntry → em.seenMatch = true →
      em.c.bytes = pre ++ [u ++ 0#2, h] → em.carryIdx = some pre.length →
      (∀ c : BitVec 2, Reads p .launch (pre ++ [u ++ c, h]) ⟨D, phaseAfter c, true⟩) →
      EmitterReads p em D

/-- Where something is written, DEC reads it to the context of the next match. -/
theorem EmitterReads.reads (h : EmitterReads p em D) :
    (em.c.bytes = [] ∧ D = [] ∧ em.ctx = .loopEntry ∧ em.seenMatch = false) ∨
      Reads p .launch em.c.bytes ⟨D, readPhase em.ctx, em.seenMatch⟩ := by
  cases h with
  | nothing hc hD hx hs => exact .inl ⟨hc, hD, hx, hs⟩
  | run _ hr => exact .inr hr
  | copy pre u h hx hs hc _ hr => exact .inr (by rw [hc, hx, hs]; exact hr 0)

theorem emitLiterals_seenMatch (p : Profile) (run : List Byte) (em : Emitter) :
    (emitLiterals p run em).seenMatch = em.seenMatch := by
  unfold emitLiterals
  split <;> rfl

theorem emitLiterals_nil (hx : em.ctx = .loopEntry) : emitLiterals p [] em = em := by
  rw [emitLiterals, if_pos List.length_nil, ← hx]

/-- A literal run keeps the reading (R183): it is a START token's, a carry's or a LIT token's. -/
theorem EmitterReads.emitLiterals (h : EmitterReads p em D) (hw : em.c.wf) (hx : em.ctx = .loopEntry)
    (run : List Byte) : EmitterReads p (emitLiterals p run em) (D ++ run) := by
  by_cases h0 : run = []
  · subst h0
    rwa [emitLiterals_nil hx, List.append_nil]
  have h1 : 1 ≤ run.length := List.length_pos_iff.2 h0
  refine .run ?_ ?_
  · rw [emitLiterals_ctx]
    exact ctxAfterRun_ne_loopEntry h1
  rw [emitLiterals_ctx, emitLiterals_seenMatch]
  cases h with
  | nothing hc hD _ hs =>
    subst hD
    rw [hs, List.nil_append]
    by_cases h238 : run.length ≤ 238
    · rw [emitLiterals_start_bytes hc h1 h238]
      exact Reads.startRun h1 h238
    · rw [emitLiterals_lit_bytes (.inr (not_le.1 h238)) (by omega), hc]
      exact Reads.of_loop ((litByte_lt _).le.trans (by decide)) (Reads.litRun (by omega))
  | run hne _ => exact absurd hx hne
  | copy pre u b _ hs hc hi hr =>
    rw [hs]
    by_cases h3 : run.length ≤ 3
    · have hne : BitVec.ofNat 2 run.length ≠ 0 := ofNat_two_ne_zero h1 h3
      have hread := hr (BitVec.ofNat 2 run.length)
      rw [phaseAfter, if_neg hne] at hread
      rw [emitLiterals_patch_bytes hw hc hi h1 h3, carryByte_or u _ h3]
      exact hread.trans (Reads.carryRun h1 h3)
    · have hne : em.c.bytes ≠ [] := by simp [hc]
      rw [emitLiterals_lit_bytes (.inl hne) (by omega), hc, List.append_assoc]
      exact (hr 0).trans (Reads.litRun (by omega))

/-- A match keeps the reading, under every carry (R184, R185). -/
theorem EmitterReads.emitMatch (h : EmitterReads p em D) {cls : MatchClass} {dist len : Nat}
    (hr : representable cls dist len em.ctx = true) (hd : dist ≤ D.length) :
    EmitterReads p (emitMatch p cls dist len em) (D ++ periodic D (D.length - dist) len) := by
  have hpos := one_le_dist hr
  obtain ⟨-, rfl, -⟩ | hread := h.reads
  · exact absurd hd (by simp; omega)
  · refine .copy (em.c.bytes ++ matchHead p cls dist len) (carryHigh cls dist len) (lastByte cls dist) rfl
      rfl (emitMatch_bytes hr) (emitMatch_carryIdx ..) fun c => ?_
    rw [List.append_assoc]
    exact hread.trans (Reads.copy hr hd rfl c)

/-- Every sequence of emit calls under their preconditions is read as the bytes it stands for. -/
theorem Emitted.reads (h : Emitted p em D) : em.c.wf ∧ EmitterReads p em D := by
  induction h with
  | fresh => exact ⟨Memory.wf_nil, .nothing rfl rfl rfl rfl⟩
  | literals em bs run _ hx ih => exact ⟨emitLiterals_wf _ _ _ ih.1, ih.2.emitLiterals ih.1 hx run⟩
  | copy em bs cls dist len _ hr hd ih => exact ⟨emitMatch_wf _ _ _ _ _ ih.1, ih.2.emitMatch hr hd⟩

/-! ## The end marker -/

/-- EmitEOS writes an EOS token (R186). -/
theorem emitEos_bytes (p : Profile) (em : Emitter) :
    (emitEos em).c.bytes = em.c.bytes ++ encode p (.eos (.inline 1) 0) := Memory.bytes_appendAll _ _

/-- A DEC run in front of a last end marker, whatever the context, ends with what it has (R186,
40_decoder_control R133). -/
theorem decAt_eos {hint : Nat} {pre : List Byte} {ctx : EmitCtx} {seen : Bool} :
    ∃ t, step (decAt p hint pre (encode p (.eos (.inline 1) 0)) ⟨D, readPhase ctx, seen⟩) = .next t ∧
      t.pending = [] ∧ t.status ≠ .busy ∧ t.txResult = some (.ok D) ∧ t.inPos = pre.length + 3 := by
  have hd : decode p (readPhase ctx) (encode p (.eos (.inline 1) 0)) = .ok (.eos (.inline 1) 0) [] := by
    have hr : (Instr.eos (.inline 1) 0).readIn (readPhase ctx) = true := by cases ctx <;> rfl
    simpa using decode_encode (p := p) (rest := []) rfl hr nofun
  refine ⟨_, step_decAt (v := ⟨D, readPhase ctx, seen⟩) hd, rfl, nofun, ?_, rfl⟩
  exact congrArg (some ∘ TxResult.ok) (Memory.bytes_ofBytes D)

/-- A run that reaches a state in which it has ended is decompress's. -/
theorem decRun_eq {bs : List Byte} {hint k : Nat} {t : State}
    (h : runSteps k (decAt p hint [] bs .launch) = t) (hp : t.pending = []) (hb : t.status ≠ .busy) :
    decRun p bs bs.length hint = t := by
  obtain ⟨hrun, hend⟩ := decRun_ends p bs bs.length hint
  rw [decAt_launch] at h
  calc decRun p bs bs.length hint
      = runSteps k (decRun p bs bs.length hint) := (runSteps_of_not_busy hrun.pending hend k).symm
    _ = runSteps (min bs.length bs.length + 1) t := by
      rw [← h, decRun, ← runSteps_add, ← runSteps_add, Nat.add_comm]
    _ = t := runSteps_of_not_busy hp hb _

/-- DEC stands in front of the end marker with all of `D`, having passed START if nothing was written. -/
theorem EmitterReads.runSteps_eos (h : EmitterReads p em D) (hint : Nat) :
    ∃ k, runSteps k (decAt p hint [] (em.c.bytes ++ encode p (.eos (.inline 1) 0)) .launch) =
      decAt p hint em.c.bytes (encode p (.eos (.inline 1) 0)) ⟨D, readPhase em.ctx, em.seenMatch⟩ := by
  obtain ⟨hc, rfl, hx, hs⟩ | hread := h.reads
  · rw [hc, hx, hs]
    exact ⟨1, runSteps_one (step_decAt_startPass (b := 0x11#8) (by decide))⟩
  · exact hread hint [] _

/-- The end marker makes a stream for `D` of what is read as `D` (R188, R189). -/
theorem streamFor_emitEos (h : EmitterReads p em D) : StreamFor p D (emitEos em).c.bytes := by
  intro hint
  obtain ⟨k, hk⟩ := h.runSteps_eos hint
  obtain ⟨t, ht, hp, hb, hr, hpos⟩ := decAt_eos (p := p) (D := D) (hint := hint) (pre := em.c.bytes)
    (ctx := em.ctx) (seen := em.seenMatch)
  have hrun : runSteps (k + 1) (decAt p hint [] (emitEos em).c.bytes .launch) = t := by
    rw [emitEos_bytes p, runSteps_add, hk]
    exact runSteps_one ht
  rw [decompress, decRun_eq hrun hp hb]
  refine ⟨hr, ?_⟩
  rw [hpos, emitEos_bytes p, List.length_append]
  rfl

end Sys2Proof.Machine
end

section
/-! The statements of family 42_token_emit. -/

namespace Sys2Proof.Machine

/-- Settles O47: EmitExt's bytes are an extension whose terminator is not EXT_CONT. -/
theorem emitExtInvertsExt : Obligations.EmitExtInvertsExt := by
  intro p r rest hr
  refine ⟨length_extBytes hr, (extParts p r).1, (extParts p r).2, ?_, fun _ base =>
    congrArg (· + base) (extParts_value hr)⟩
  rw [extBytes_eq, List.append_assoc]
  exact readExt_replicate (extParts_terminator p r) _ rest

/-- Settles O48: the bytes are the encoding of the token with carry 0. -/
theorem emitMatchInvertsDecode : Obligations.EmitMatchInvertsDecode := by
  intro p cls dist len ctx rest n0 h
  refine ⟨matchInstr p cls dist len 0, ?_, matchOf_matchInstr h 0 n0⟩
  rw [matchTail_eq h]
  exact decode_matchBytes h 0 rest

/-- Settles O49: Classify tries the 2-byte classes first, and at most one longer class fits. -/
theorem classifyIsNarrowest : Obligations.ClassifyIsNarrowest := by
  intro p dist len ctx
  refine ⟨fun cls cost h => ⟨representable_of_classify _ _ _ _ _ _ _ h, ?_, fun cls' h' => ?_⟩,
    fun h cls => ?_⟩
  · rw [length_head_append_tail, cost_of_classify h]
  · rw [length_head_append_tail, cost_of_classify h]
    exact matchCost_le_of_classify h h'
  · exact Bool.eq_false_iff.2 fun hr => classify_ne_none hr h

/-- Settles O50: the byte before the match's last is six bits and a carry of 0. -/
theorem carryPatchTouchesTwoBits : Obligations.CarryPatchTouchesTwoBits := by
  intro p em cls dist len ctx run hw h h1 h3
  have hb := emitMatch_bytes (p := p) (em := em) h
  have hi := emitMatch_carryIdx p cls dist len em
  refine ⟨_, carryHigh cls dist len ++ 0#2, hi, ?_, ?_, carryByte_and _, ?_⟩
  · rw [← Memory.bytes_length, hb]; simp [Nat.add_assoc]
  · simp [hb]
  · rw [emitLiterals_patch_bytes (emitMatch_wf _ _ _ _ _ hw) hb hi h1 h3, hb]
    simp [byteOf]

/-- Settles O58: DEC reads each call's bytes as what the call stands for, and the end marker in any context;
an admissible stream is made by such calls. -/
theorem admissibleStreamsDecode : Obligations.AdmissibleStreamsDecode := by
  refine ⟨fun p em D h => streamFor_emitEos h.reads.2, fun p uses D C h => ?_⟩
  obtain ⟨em, he, rfl⟩ := h.emitted
  exact streamFor_emitEos he.reads.2

end Sys2Proof.Machine
end

section
/-! SUPPORT. The comparison of the input with its own past and the reference search of ENCG: MatchLen is the
largest length of a true match, GreedyBest the best of the distances (43_greedy_encoder R215, R216). -/

namespace Sys2Proof.Machine

variable {D : List Byte} {i dist l : Nat}

/-- A length is within the common prefix when the first list has it and the lists agree below it. -/
theorem le_commonPrefix_iff (l : Nat) (a b : List Byte) :
    l ≤ commonPrefix a b ↔ l ≤ a.length ∧ ∀ k < l, a[k]? = b[k]? := by
  induction a generalizing b l with
  | nil => simp +contextual [commonPrefix]
  | cons x r ih =>
    cases l with
    | zero => simp
    | succ l =>
      rw [Nat.forall_lt_succ_left]
      cases b with
      | nil => simp [commonPrefix]
      | cons y t => by_cases h : x = y <;> simp [commonPrefix, h, ih]

/-- The lengths of the true matches at a distance are those up to MatchLen (R215). -/
theorem trueMatch_iff_le_matchLen (h1 : 1 ≤ dist) (hd : dist ≤ i) (hi : i ≤ D.length) :
    trueMatch D i dist l ↔ l ≤ matchLen D i dist := by
  have hlen : l ≤ (D.drop i).length ↔ i + l ≤ D.length := by rw [List.length_drop]; omega
  have hat (k : Nat) : (D.drop (i - dist))[k]? = D[i + k - dist]? := by
    rw [List.getElem?_drop, Nat.sub_add_comm hd]
  simp only [trueMatch, matchLen, le_commonPrefix_iff, hlen, hat, List.getElem?_drop, h1, hd, true_and]

/-- What the best of the distances 1 to `n` is (R216): none where no distance reaches length 3, else the
greatest length, at the smallest distance among equals. -/
def IsGreedyBest (D : List Byte) (i n : Nat) : Option (Nat × Nat) → Prop
  | none => ∀ d, 1 ≤ d → d ≤ n → matchLen D i d < 3
  | some (dist, l) => 1 ≤ dist ∧ dist ≤ n ∧ l = matchLen D i dist ∧ 3 ≤ l ∧
      ∀ d, 1 ≤ d → d ≤ n → matchLen D i d < l ∨ (matchLen D i d = l ∧ dist ≤ d)

/-- One more distance: it is taken where it is the first to reach 3, or strictly longer than the best. -/
theorem greedyUpTo_isGreedyBest (D : List Byte) (i n : Nat) :
    IsGreedyBest D i n (greedyUpTo D i n) := by
  induction n with
  | zero => exact fun d h1 h0 => absurd h0 (by omega)
  | succ n ih =>
    have upTo {d : Nat} (h : d ≤ n + 1) : d ≤ n ∨ d = n + 1 := Nat.le_succ_iff.1 h
    unfold greedyUpTo
    cases hb : greedyUpTo D i n with
    | none =>
      rw [hb] at ih
      by_cases h3 : 3 ≤ matchLen D i (n + 1)
      · simp only [if_pos h3]
        refine ⟨Nat.le_add_left 1 n, le_rfl, rfl, h3, fun d h1 hd => ?_⟩
        rcases upTo hd with hd | rfl
        · exact .inl ((ih d h1 hd).trans_le h3)
        · exact .inr ⟨rfl, le_rfl⟩
      · simp only [if_neg h3]
        intro d h1 hd
        rcases upTo hd with hd | rfl
        · exact ih d h1 hd
        · exact not_le.1 h3
    | some m =>
      obtain ⟨dist, l⟩ := m
      rw [hb] at ih
      obtain ⟨h1, hn, hl, h3, hbest⟩ := ih
      by_cases hlt : l < matchLen D i (n + 1)
      · simp only [if_pos hlt]
        refine ⟨Nat.le_add_left 1 n, le_rfl, rfl, h3.trans hlt.le, fun d h1' hd => ?_⟩
        rcases upTo hd with hd | rfl
        · have := hbest d h1' hd
          omega
        · exact .inr ⟨rfl, le_rfl⟩
      · simp only [if_neg hlt]
        refine ⟨h1, hn.trans n.le_succ, hl, h3, fun d h1' hd => ?_⟩
        rcases upTo hd with hd | rfl
        · exact hbest d h1' hd
        · omega

theorem greedyBest_isGreedyBest (D : List Byte) (i : Nat) :
    IsGreedyBest D i (min i 49151) (greedyBest D i) := greedyUpTo_isGreedyBest D i _

end Sys2Proof.Machine
end

section
/-! SUPPORT. What an iteration of either encoder takes is admitted by the relation of 43_greedy_encoder R214
and 44_leveled_encoder R236: a true match, in the class Classify returns among the classes in use. -/

namespace Sys2Proof.Machine

variable {p : Profile} {uses : MatchClass → Bool} {D : List Byte} {q : Parse} {m : Pick}

/-- A match the relation admits at the position of a parse (R214 (b) and (c)). -/
def Pick.Admitted (p : Profile) (uses : MatchClass → Bool) (D : List Byte) (q : Parse) (m : Pick) : Prop :=
  trueMatch D q.pos m.dist m.len ∧
    ∃ cost, classify p uses m.dist m.len (pendingCtx p q.em (q.pos - q.litStart)) = some (m.cls, cost)

/-! ## Iterations -/

/-- An iteration goes on with a parse in the relation, if the match it takes is admitted. -/
theorem Built.parseIter {pick : Option Pick} (h : Built p uses D q) (hq : q.pos < D.length)
    (hm : ∀ m ∈ pick, m.Admitted p uses D q) : Built p uses D (parseIter p D pick q) := by
  cases pick with
  | none => exact .literal q h hq
  | some m =>
    obtain ⟨ht, cost, hc⟩ := hm m rfl
    exact .emit q m cost h ht hc

/-- An iteration moves forward (70_reset_and_hazards R294). -/
theorem pos_lt_parseIter {pick : Option Pick} (hm : ∀ m ∈ pick, m.Admitted p uses D q) :
    q.pos < (parseIter p D pick q).pos := by
  cases pick with
  | none => exact Nat.lt_succ_self _
  | some m =>
    obtain ⟨-, cost, hc⟩ := hm m rfl
    have := classify_len _ _ _ _ _ _ hc
    simp only [Machine.parseIter]
    omega

/-! ## ENCG's reference search -/

/-- The class choice of the reference ENCG is Classify among M2, M3 and M4 (R217). -/
theorem classify_greedyUses {dist len : Nat} {ctx : EmitCtx} (hl : 3 ≤ len) (h1 : 1 ≤ dist)
    (hd : dist ≤ 49151) :
    ∃ cost, classify p greedyUses dist len ctx = some (greedyClass dist len, cost) := by
  rw [classify, if_neg (by omega), if_neg (by unfold m4MaxOffset; omega)]
  simp only [greedyUses, greedyClass, Bool.false_eq_true, false_and, true_and, if_false, if_true]
  split
  · exact ⟨_, rfl⟩
  · split <;> exact ⟨_, rfl⟩

theorem greedyPick_admitted (hq : q.pos < D.length) (h : m ∈ greedyPick D q.pos) :
    m.Admitted p greedyUses D q := by
  obtain ⟨⟨dist, l⟩, hb, rfl⟩ := Option.map_eq_some_iff.1 h
  have hbest := greedyBest_isGreedyBest D q.pos
  rw [hb] at hbest
  obtain ⟨h1, hd, hl, h3, -⟩ := hbest
  exact ⟨(trueMatch_iff_le_matchLen h1 (hd.trans (min_le_left _ _)) hq.le).2 hl.le,
    classify_greedyUses h3 h1 (hd.trans (min_le_right _ _))⟩

/-! ## ENCL's reference search -/

theorem mem_candidates {i depth d : Nat} (h : d ∈ candidates D i depth) : 1 ≤ d ∧ d ≤ i := by
  obtain ⟨e, he, rfl⟩ := List.mem_map.1 (List.mem_filter.1 (List.mem_of_mem_take h)).1
  rw [List.mem_range] at he
  omega

/-- A ranked candidate is its distance with MatchLen and the class Classify returns (R240). -/
theorem rankCand_eq_some {i d : Nat} {ctx : EmitCtx} {b : Cand} (h : rankCand p D i ctx d = some b) :
    b.dist = d ∧ b.len = matchLen D i d ∧
      ∃ cost, classify p (fun _ => true) b.dist b.len ctx = some (b.cls, cost) := by
  unfold rankCand at h
  split at h
  · cases h
  · next cls cost hc =>
    simp only at h
    split at h <;> cases h
    exact ⟨rfl, rfl, cost, hc⟩

theorem betterOf_eq_some {best c : Option Cand} {b : Cand} (h : betterOf best c = some b) :
    best = some b ∨ c = some b := by
  unfold betterOf at h
  split at h
  · exact .inl h
  · split at h
    · exact .inr h
    · split at h
      · exact .inr h
      · exact .inl h

/-- What the loop of Best returns it began with or ranked. -/
theorem foldl_betterOf_eq_some {f : Nat → Option Cand} {ds : List Nat} {best : Option Cand} {b : Cand}
    (h : ds.foldl (fun best d => betterOf best (f d)) best = some b) :
    best = some b ∨ ∃ d ∈ ds, f d = some b := by
  induction ds generalizing best with
  | nil => exact .inl h
  | cons d ds ih =>
    rcases ih h with hb | ⟨e, he, hf⟩
    · exact (betterOf_eq_some hb).imp_right fun hf => ⟨d, List.mem_cons_self, hf⟩
    · exact .inr ⟨e, List.mem_cons_of_mem d he, hf⟩

/-- Best returns a ranked candidate (R240). -/
theorem rankCand_of_bestCand {i depth : Nat} {ctx : EmitCtx} {b : Cand}
    (h : bestCand p D i depth ctx = some b) :
    ∃ d ∈ candidates D i depth, rankCand p D i ctx d = some b :=
  (foldl_betterOf_eq_some h).resolve_left nofun

/-- The lookahead drops Best's match or keeps it as it is (R241). -/
theorem leveledPick_eq_some {depth : Nat} {lazyStep : Bool} (h : leveledPick p D depth lazyStep q = some m) :
    ∃ c, bestCand p D q.pos depth (pendingCtx p q.em (q.pos - q.litStart)) = some c ∧
      m = ⟨c.cls, c.dist, c.len⟩ := by
  unfold leveledPick at h
  simp only at h
  split at h
  · cases h
  · next c hc =>
    refine ⟨c, hc, ?_⟩
    split at h
    · cases h; rfl
    · split at h <;> cases h
      rfl

theorem leveledPick_admitted {depth : Nat} {lazyStep : Bool} (hq : q.pos < D.length)
    (h : m ∈ leveledPick p D depth lazyStep q) : m.Admitted p (fun _ => true) D q := by
  obtain ⟨c, hb, rfl⟩ := leveledPick_eq_some h
  obtain ⟨d, hmem, hr⟩ := rankCand_of_bestCand hb
  obtain ⟨h1, hd⟩ := mem_candidates hmem
  obtain ⟨rfl, hl, hc⟩ := rankCand_eq_some hr
  exact ⟨(trueMatch_iff_le_matchLen h1 hd hq.le).2 hl.le, hc⟩

/-! ## The free search -/

/-- A free search's proposal is taken only where the relation admits it (log 7). -/
theorem freePick_admitted {level : Option Nat} (hq : q.pos < D.length)
    (h : m ∈ freePick p uses level D q.pos (pendingCtx p q.em (q.pos - q.litStart))) :
    m.Admitted p uses D q := by
  simp only [freePick, Option.mem_def] at h
  split at h
  · next hc =>
    obtain ⟨h1, hd, hl⟩ := hc
    obtain ⟨⟨cls, cost⟩, hcl, rfl⟩ := Option.map_eq_some_iff.1 h
    exact ⟨(trueMatch_iff_le_matchLen h1 hd hq.le).2 hl, cost, hcl⟩
  · cases h

/-! ## The two encoders -/

theorem State.encgPick_admitted {s : State} (hs : s.search = .reference)
    (hq : s.parse.pos < s.data.length) (h : m ∈ s.encgPick) :
    m.Admitted s.profile greedyUses s.data s.parse := by
  rw [State.encgPick, hs] at h
  exact greedyPick_admitted hq h

theorem State.encgPick_admitted_free {s : State} (hs : s.search = .free)
    (hq : s.parse.pos < s.data.length) (h : m ∈ s.encgPick) :
    m.Admitted s.profile Config.freeUses s.data s.parse := by
  rw [State.encgPick, hs] at h
  exact freePick_admitted hq h

theorem State.enclPick_admitted {s : State} (hq : s.parse.pos < s.data.length) (h : m ∈ s.enclPick) :
    m.Admitted s.profile (fun _ => true) s.data s.parse := by
  unfold State.enclPick at h
  split at h
  · exact leveledPick_admitted hq h
  · exact freePick_admitted hq h

end Sys2Proof.Machine
end

section
/-! SUPPORT. An encode run on a closed source that the host leaves alone: each step is an iteration, so the
parse comes to the end of D in at most as many steps as D has bytes, and the step after that ends it
(43_greedy_encoder R217, 44_leveled_encoder R241, R242). -/

namespace Sys2Proof.Machine

variable {p : Profile} {k : SearchKind} {D : List Byte} {s t : State} {uses : MatchClass → Bool}

/-- The state with another parse in progress. -/
def State.withParse (q : Parse) (s : State) : State := { s with parse := q }

@[simp] theorem State.withParse_parse (q : Parse) (s : State) : (s.withParse q).parse = q := rfl
@[simp] theorem State.withParse_profile (q : Parse) (s : State) : (s.withParse q).profile = s.profile := rfl
@[simp] theorem State.withParse_search (q : Parse) (s : State) : (s.withParse q).search = s.search := rfl
@[simp] theorem State.withParse_data (q : Parse) (s : State) : (s.withParse q).data = s.data := rfl

theorem State.withParse_fresh (h : s.parse = Parse.fresh) : s.withParse Parse.fresh = s := by
  rw [← h]
  rfl

/-- An iteration is a move of the parse. -/
theorem State.withParse_iterate (q : Parse) (pick : Option Pick) (s : State) :
    (s.withParse q).iterate pick = s.withParse (parseIter s.profile s.data pick q) := rfl

/-- The choice of the running encoder. -/
def State.encPick (s : State) : Option Pick :=
  if s.run = some .encg then s.encgPick else s.enclPick

theorem State.encPick_encg (s : State) (h : s.run = some .encg) : s.encPick = s.encgPick := if_pos h

theorem State.encPick_encl (s : State) (h : s.run = some .encl) : s.encPick = s.enclPick :=
  if_neg (by simp [h])

/-- The step of the running encoder at the end of its input. -/
def State.encEnd (s : State) : State :=
  if s.run = some .encg then s.finishEnc (parseEnd s.profile s.data s.parse) else s.endParse

theorem State.encEnd_encg (s : State) (h : s.run = some .encg) :
    s.encEnd = s.finishEnc (parseEnd s.profile s.data s.parse) := if_pos h

theorem State.encEnd_encl (s : State) (h : s.run = some .encl) : s.encEnd = s.endParse := if_neg (by simp [h])

/-- An encode run in progress on a closed source, with no operation of the host listed. -/
structure EncRun (s : State) : Prop where
  pending : s.pending = []
  srcOpen : s.srcOpen = false
  busy : s.status = .busy
  run : s.run = some .encg ∨ s.run = some .encl

theorem EncRun.withParse (h : EncRun s) (q : Parse) : EncRun (s.withParse q) :=
  ⟨h.pending, h.srcOpen, h.busy, h.run⟩

theorem EncRun.starved (h : EncRun s) : s.starved = false := by
  rw [State.starved, h.srcOpen, Bool.false_and]

/-- Before the end of D a step is one iteration. -/
theorem EncRun.step_iterate (h : EncRun s) (hq : s.parse.pos < s.data.length) :
    step s = .next (s.iterate s.encPick) := by
  rcases h.run with hr | hr
  · rw [step_encg s h.pending h.busy hr, s.encTurn_closed _ h.starved, State.encPick_encg s hr,
      State.encgStep, if_pos hq]
  · rw [step_encl s h.pending h.busy hr, s.encTurn_closed _ h.starved, State.encPick_encl s hr,
      State.enclStep, if_pos hq]

/-- At the end of D a step ends the parse. -/
theorem EncRun.step_end (h : EncRun s) (hq : s.data.length ≤ s.parse.pos) :
    step s = .next s.encEnd := by
  rcases h.run with hr | hr
  · rw [step_encg s h.pending h.busy hr, s.encTurn_closed _ h.starved, State.encgStep_end hq,
      State.encEnd_encg s hr]
  · rw [step_encl s h.pending h.busy hr, s.encTurn_closed _ h.starved, State.enclStep_end hq,
      State.encEnd_encl s hr]

/-- Whatever parse the run has come to, what its search chooses is admitted among the classes `uses`. -/
def State.PicksAdmitted (uses : MatchClass → Bool) (s : State) : Prop :=
  ∀ q, q.pos < s.data.length → ∀ m ∈ (s.withParse q).encPick, m.Admitted s.profile uses s.data q

/-- A parse whose every choice is admitted comes to its end within the relation, with at most one step for
each position. -/
theorem EncRun.runSteps_parse (h : EncRun s) (hm : s.PicksAdmitted uses) {q : Parse}
    (hb : Built s.profile uses s.data q) :
    ∃ n q', n + q.pos ≤ s.data.length ∧ Built s.profile uses s.data q' ∧ q'.pos = s.data.length ∧
      runSteps (n + 1) (s.withParse q) = (s.withParse q').encEnd := by
  induction hf : s.data.length - q.pos using Nat.strongRecOn generalizing q with
  | ind f ih =>
    by_cases hq : q.pos < s.data.length
    · have hlt := pos_lt_parseIter (hm q hq)
      have hstep := (h.withParse q).step_iterate hq
      obtain ⟨n, q', hn, hb', hpos, hrun⟩ := ih _ (by omega) (hb.parseIter hq (hm q hq)) rfl
      refine ⟨n + 1, q', by omega, hb', hpos, ?_⟩
      rw [runSteps, hstep, State.withParse_iterate]
      exact hrun
    · obtain ⟨-, -, -, hle⟩ := hb.emitted
      have hge := not_lt.1 hq
      exact ⟨0, q, by omega, hb, hle.antisymm hge, runSteps_one ((h.withParse q).step_end hge)⟩

/-! ## The end of the run -/

/-- A run that has ended has the same end after more steps. -/
theorem runSteps_eq_of_le {a n : Nat} (h : runSteps a s = t) (hp : t.pending = []) (ht : t.status ≠ .busy)
    (hn : a ≤ n) : runSteps n s = t := by
  rw [← Nat.add_sub_cancel' hn, runSteps_add, h, runSteps_of_not_busy hp ht]

/-- Once a run has finished with an emitter, it returns C (70_reset_and_hazards R294). -/
theorem EncRun.txResult_of_finishEnc (h : EncRun t) {a n : Nat} {em : Emitter}
    (hf : runSteps a s = t.finishEnc em) (hn : a ≤ n) :
    (runSteps n s).txResult = some (.ok em.c.bytes) := by
  have hd : t.run ≠ some .dec ∧ t.run ≠ none := by rcases h.run with hr | hr <;> simp [hr]
  rw [runSteps_eq_of_le hf h.pending nofun hn]
  exact congrArg (some ∘ TxResult.ok) (State.result_finishEnc em hd.1 hd.2)

/-- A run whose first parse is its last returns an admissible stream. -/
theorem EncRun.admissible_single (h : EncRun s) (hf : s.parse = Parse.fresh) (hm : s.PicksAdmitted uses)
    (he : ∀ q, (s.withParse q).encEnd = (s.withParse q).finishEnc (parseEnd s.profile s.data q)) {n : Nat}
    (hn : s.data.length + 1 ≤ n) :
    ∃ C, (runSteps n s).txResult = some (.ok C) ∧ Admissible s.profile uses s.data C := by
  obtain ⟨a, q, ha, hb, hpos, hrun⟩ := h.runSteps_parse hm .fresh
  rw [he, State.withParse_fresh hf] at hrun
  exact ⟨_, (h.withParse q).txResult_of_finishEnc hrun (by omega), q, hb, hpos, rfl⟩

/-- At level 1, and for a free search, ENCL's first parse is its last (R242). -/
theorem State.endParse_single (hf : s.firstParse = none) (hl : s.runLevel = 1 ∨ s.search = .free) :
    s.endParse = s.finishEnc (parseEnd s.profile s.data s.parse) := by
  simp only [State.endParse, hf, if_pos hl]

/-! ## What the two encoders choose -/

theorem State.picksAdmitted_reference (hr : s.run = some .encg) (hs : s.search = .reference) :
    s.PicksAdmitted greedyUses := fun q hq _ hm =>
  State.encgPick_admitted (s := s.withParse q) hs hq (State.encPick_encg (s.withParse q) hr ▸ hm)

theorem State.picksAdmitted_free (hr : s.run = some .encg) (hs : s.search = .free) :
    s.PicksAdmitted Config.freeUses := fun q hq _ hm =>
  State.encgPick_admitted_free (s := s.withParse q) hs hq (State.encPick_encg (s.withParse q) hr ▸ hm)

theorem State.picksAdmitted_encl (hr : s.run = some .encl) : s.PicksAdmitted fun _ => true :=
  fun q hq _ hm =>
    State.enclPick_admitted (s := s.withParse q) hq (State.encPick_encl (s.withParse q) hr ▸ hm)

/-! ## The two parses of ENCL -/

/-- At the end of a reference parse A above level 1, A's stream is kept and parse B begins (R242). -/
theorem EncRun.runSteps_parseA (h : EncRun s) (hr : s.run = some .encl) (h1 : s.firstParse = none)
    (hl : s.runLevel ≠ 1) (hs : s.search = .reference) :
    ∃ n a, n ≤ s.data.length ∧ Admissible s.profile (fun _ => true) s.data a.bytes ∧
      runSteps (n + 1) (s.withParse .fresh) =
        ({ s with firstParse := some a } : State).withParse .fresh := by
  obtain ⟨n, q, hn, hb, hpos, hrun⟩ := h.runSteps_parse (State.picksAdmitted_encl hr) .fresh
  refine ⟨n, _, Nat.le_of_add_right_le hn, ⟨q, hb, hpos, rfl⟩, ?_⟩
  rw [hrun, State.encEnd_encl (s.withParse q) hr, State.endParse_again (s := s.withParse q) h1 hl hs]
  rfl

/-- Parse B ends the run with the shorter of its own stream and A's (R242). -/
theorem EncRun.runSteps_parseB (h : EncRun s) (hr : s.run = some .encl) {a : Memory}
    (ha : Admissible s.profile (fun _ => true) s.data a.bytes) :
    ∃ n t em, n ≤ s.data.length ∧ EncRun t ∧
      Admissible s.profile (fun _ => true) s.data em.c.bytes ∧
      runSteps (n + 1) (({ s with firstParse := some a } : State).withParse .fresh) = t.finishEnc em := by
  let sB : State := { s with firstParse := some a }
  have hB : EncRun sB := ⟨h.pending, h.srcOpen, h.busy, h.run⟩
  obtain ⟨n, q, hn, hb, hpos, hrun⟩ := hB.runSteps_parse (State.picksAdmitted_encl hr) .fresh
  rw [State.encEnd_encl (sB.withParse q) hr, State.endParse_second (s := sB.withParse q) rfl] at hrun
  refine ⟨n, _, _, Nat.le_of_add_right_le hn, hB.withParse q, ?_, hrun⟩
  split
  · exact ha
  · exact ⟨q, hb, hpos, rfl⟩

/-- A reference run of ENCL above level 1 returns an admissible stream. -/
theorem EncRun.admissible_double (h : EncRun s) (hf : s.parse = Parse.fresh) (hr : s.run = some .encl)
    (h1 : s.firstParse = none) (hl : s.runLevel ≠ 1) (hs : s.search = .reference) {n : Nat}
    (hn : 2 * (s.data.length + 1) ≤ n) :
    ∃ C, (runSteps n s).txResult = some (.ok C) ∧ Admissible s.profile (fun _ => true) s.data C := by
  obtain ⟨nA, a, hnA, ha, hrunA⟩ := h.runSteps_parseA hr h1 hl hs
  obtain ⟨nB, t, em, hnB, ht, hem, hrunB⟩ := h.runSteps_parseB hr ha
  rw [State.withParse_fresh hf] at hrunA
  have hrun : runSteps (nA + 1 + (nB + 1)) s = t.finishEnc em := by rw [runSteps_add, hrunA, hrunB]
  exact ⟨_, ht.txResult_of_finishEnc hrun (by omega), hem⟩

/-! ## The transactions -/

theorem EncRun.launch {u : RunUnit} (hp : s.pending = []) (ho : s.srcOpen = false)
    (hu : u = .encg ∨ u = .encl) : EncRun (s.launch u) :=
  ⟨hp, ho, rfl, hu.imp (congrArg some) (congrArg some)⟩

theorem launch_callState_data (p : Profile) (k : SearchKind) (D : List Byte) (level : Nat) (u : RunUnit) :
    ((callState p k D D.length 0 level).launch u).data = D := by
  simp [State.data, callState]

/-- compress returns an admissible stream, its search choosing among the classes `uses` (R210, R214). -/
theorem compress_admissible
    (hm : ((callState p k D D.length 0 0).launch .encg).PicksAdmitted uses) :
    ∃ C, compress p k D = some (.ok C) ∧ Admissible p uses D C := by
  have h : EncRun ((callState p k D D.length 0 0).launch .encg) := .launch rfl rfl (.inl rfl)
  have hdata := launch_callState_data p k D 0 .encg
  have hC := h.admissible_single rfl hm (fun q => State.encEnd_encg _ rfl) (n := D.length + 1) (by rw [hdata])
  rwa [hdata] at hC

/-- compress_leveled returns an admissible stream (44_leveled_encoder R230, R236): the first parse's, or the
shorter of two. -/
theorem compressLeveled_admissible {level : Nat} (h1 : 1 ≤ level) (h9 : level ≤ 9) :
    ∃ C, compressLeveled p k D level = some (.ok C) ∧ Admissible p (fun _ => true) D C := by
  have h : EncRun ((callState p k D D.length 0 level).launch .encl) := .launch rfl rfl (.inr rfl)
  have hdata := launch_callState_data p k D level .encl
  have hn : ((callState p k D D.length 0 level).launch .encl).data.length + 1 ≤ 2 * (D.length + 1) := by
    rw [hdata]; omega
  rw [compressLeveled, State.start_encl h1 h9]
  by_cases hs : level = 1 ∨ k = .free
  · have hC := h.admissible_single rfl (State.picksAdmitted_encl rfl)
      (fun q => (State.encEnd_encl _ rfl).trans (State.endParse_single rfl hs)) hn
    rwa [hdata] at hC
  · obtain ⟨hl, hk⟩ := not_or.1 hs
    have href : k = .reference := by cases k with
      | reference => rfl
      | free => exact absurd rfl hk
    have hC := h.admissible_double rfl rfl rfl hl href (n := 2 * (D.length + 1)) (by rw [hdata])
    rwa [hdata] at hC

end Sys2Proof.Machine
end

section
/-! SUPPORT. The stream of a parse that uses no class at all: one literal run and the end marker
(43_greedy_encoder R218). -/

namespace Sys2Proof.Machine

variable {p : Profile} {D C : List Byte} {q : Parse}

theorem classify_noClass (p : Profile) (dist len : Nat) (ctx : EmitCtx) :
    classify p (fun _ => false) dist len ctx = none := by
  simp [classify]

/-- Without a class nothing is emitted before the end. -/
theorem Built.noClass (h : Built p (fun _ => false) D q) : q.em = Emitter.fresh ∧ q.litStart = 0 := by
  induction h with
  | fresh => exact ⟨rfl, rfl⟩
  | literal q _ _ ih => exact ih
  | emit q m cost _ _ hc => rw [classify_noClass] at hc; cases hc

/-- The announcement of a first literal run, and the run (42_token_emit R183). -/
def firstRun (p : Profile) (D : List Byte) : List Byte :=
  if D = [] then []
  else if D.length ≤ 238 then BitVec.ofNat 8 (17 + D.length) :: D
  else 0#8 :: (extBytes p (D.length - 18) ++ D)

theorem emitLiterals_fresh_bytes (p : Profile) (D : List Byte) :
    (emitLiterals p D Emitter.fresh).c.bytes = firstRun p D := by
  unfold firstRun
  split
  · next h => subst h; rfl
  · next h =>
    split
    · next h238 => exact emitLiterals_start_bytes rfl (List.length_pos_iff.2 h) h238
    · next h238 =>
      rw [emitLiterals_lit_bytes (.inr (not_le.1 h238)) (by omega), ← litHead_eq, if_neg (by omega),
        Nat.sub_sub]
      rfl

/-- The one admissible stream without a class (R218). -/
theorem Admissible.noClass (h : Admissible p (fun _ => false) D C) :
    C = firstRun p D ++ [0x11#8, 0x00#8, 0x00#8] := by
  obtain ⟨q, hb, -, rfl⟩ := h
  obtain ⟨hem, hl⟩ := hb.noClass
  have hD : slice D 0 D.length = D := List.take_length
  rw [parseEnd, hem, hl, hD, emitEos_bytes p, emitLiterals_fresh_bytes]
  rfl

/-- Where GreedyBest finds nothing the reference ENCG needs no class. -/
theorem State.picksAdmitted_noClass {s : State} (hr : s.run = some .encg) (hs : s.search = .reference)
    (h : ∀ i < s.data.length, greedyBest s.data i = none) : s.PicksAdmitted fun _ => false := by
  intro q hq m hm
  have hnone : (s.withParse q).encPick = none := by
    rw [State.encPick_encg (s.withParse q) hr, State.encgPick, State.withParse_search, hs]
    exact congrArg (Option.map _) (h q.pos hq)
  rw [hnone] at hm
  cases hm

end Sys2Proof.Machine
end

section
/-! The statements of family 43_greedy_encoder. -/

namespace Sys2Proof.Machine

/-- Settles O51: the comparison goes on exactly while the input repeats at the distance. -/
theorem matchLenIsLargest : Obligations.MatchLenIsLargest := fun _ _ _ _ h1 hd hi =>
  trueMatch_iff_le_matchLen h1 hd hi

/-- Settles O52, by induction on the distances tried. -/
theorem greedyBestIsBest : Obligations.GreedyBestIsBest := fun D i =>
  have h := greedyBest_isGreedyBest D i
  ⟨fun _ _ hb => by rwa [hb] at h, fun hb => by rwa [hb] at h⟩

/-- Settles O56: with no match anywhere ENCG uses no class, and without a class one stream is admissible. -/
theorem allLiteralResult : Obligations.AllLiteralResult := by
  intro p D h
  obtain ⟨C, hC, ha⟩ := compress_admissible (p := p) (k := .reference) (D := D) (uses := fun _ => false)
    (State.picksAdmitted_noClass rfl rfl (by rwa [launch_callState_data]))
  rw [hC, ha.noClass]
  rfl

/-- Settles O57: every iteration of either search takes a literal or a match the relation admits, and the
parse has come to the end of the input before the steps of the transaction have. -/
theorem encodersAreAdmissible : Obligations.EncodersAreAdmissible := fun _ _ =>
  ⟨compress_admissible (State.picksAdmitted_reference rfl rfl),
    compress_admissible (State.picksAdmitted_free rfl rfl),
    fun _ h1 h9 => ⟨compressLeveled_admissible h1 h9, compressLeveled_admissible h1 h9⟩⟩

end Sys2Proof.Machine
end

section
/-! SUPPORT. The examined candidates and the choice of Best (44_leveled_encoder R239, R240): the candidates are
the distances at which the 2-byte prefix repeats, up to DEPTH of them, and the loop of Best keeps a ranked one
with the greatest key. -/

namespace Sys2Proof.Machine

variable {p : Profile} {D : List Byte} {i depth : Nat} {ctx : EmitCtx}

/-! ## The candidates -/

/-- In a filtered range a number that passes stands behind the smaller ones that pass. -/
theorem idxOf_filter_range {P : Nat → Bool} {d n : Nat} (hd : d < n) (hP : P d) :
    ((List.range n).filter P).idxOf d = ((List.range d).filter P).length := by
  induction n with
  | zero => omega
  | succ n ih =>
    rw [List.range_succ, List.filter_append]
    rcases Nat.lt_succ_iff_lt_or_eq.1 hd with hlt | rfl
    · rw [List.idxOf_append_of_mem (List.mem_filter.2 ⟨List.mem_range.2 hlt, hP⟩), ih hlt]
    · have hnot : d ∉ (List.range d).filter P := fun h => by simp at h
      simp [List.idxOf_append_of_notMem hnot, hP]

theorem isCandidate_iff {d : Nat} (h1 : 1 ≤ d) (hd : d ≤ min i 49151) :
    isCandidate D i d = true ↔ prefixRepeats D i d := by
  simp [isCandidate, prefixRepeats, h1, hd.trans (min_le_left _ _), hd.trans (min_le_right _ _), and_assoc]

/-- The candidates by the rule of R239: the distances in order, those at which the prefix repeats, cut at
`depth`. -/
theorem candidates_eq (D : List Byte) (i depth : Nat) :
    candidates D i depth =
      ((List.range (min i 49151 + 1)).filter fun e => decide (prefixRepeats D i e)).take depth := by
  rw [List.range_succ_eq_map, List.filter_cons_of_neg (by simp), candidates]
  refine congrArg (List.take depth) (List.filter_congr fun e he => ?_)
  obtain ⟨k, hk, rfl⟩ := List.mem_map.1 he
  rw [Bool.eq_iff_iff, decide_eq_true_iff]
  exact isCandidate_iff (Nat.le_add_left 1 k) (List.mem_range.1 hk)

theorem mem_candidates_iff (D : List Byte) (i depth d : Nat) :
    d ∈ candidates D i depth ↔ prefixRepeats D i d ∧
      ((List.range d).filter fun e => decide (prefixRepeats D i e)).length < depth := by
  rw [candidates_eq]
  by_cases h : prefixRepeats D i d
  · have hlt : d < min i 49151 + 1 := Nat.lt_succ_of_le h.2.1
    have hmem : d ∈ (List.range (min i 49151 + 1)).filter fun e => decide (prefixRepeats D i e) :=
      List.mem_filter.2 ⟨List.mem_range.2 hlt, decide_eq_true h⟩
    rw [List.mem_take_iff_idxOf_lt hmem, idxOf_filter_range hlt (decide_eq_true h)]
    exact (and_iff_right h).symm
  · refine iff_of_false (fun hd => h ?_) fun hd => h hd.1
    exact of_decide_eq_true (List.mem_filter.1 (List.mem_of_mem_take hd)).2

/-! ## The keys -/

/-- The order of the keys (R240) on candidates. -/
def Cand.KeyLe (a b : Cand) : Prop := keyLe a.gain a.len a.dist b.gain b.len b.dist

theorem Cand.KeyLe.refl (a : Cand) : a.KeyLe a := .inr ⟨rfl, .inr ⟨rfl, le_rfl⟩⟩

theorem Cand.KeyLe.trans {a b c : Cand} (h : a.KeyLe b) (h' : b.KeyLe c) : a.KeyLe c := by
  unfold Cand.KeyLe keyLe at *
  omega

theorem Cand.KeyLe.total (a b : Cand) : a.KeyLe b ∨ b.KeyLe a := by
  unfold Cand.KeyLe keyLe
  omega

/-- A candidate beats another where its key is strictly greater. -/
theorem Cand.beats_iff {a b : Cand} : a.beats b = true ↔ ¬ a.KeyLe b := by
  simp only [Cand.beats, Bool.or_eq_true, Bool.and_eq_true, decide_eq_true_eq]
  unfold Cand.KeyLe keyLe
  omega

/-! ## The loop of Best -/

/-- One turn keeps a candidate whose key is at least that of the best so far and of the new one. -/
theorem betterOf_ge {best c : Option Cand} {x : Cand} (h : best = some x ∨ c = some x) :
    ∃ b, betterOf best c = some b ∧ x.KeyLe b := by
  cases c with
  | none => exact ⟨x, h.resolve_right nofun, .refl x⟩
  | some y =>
    cases best with
    | none => exact ⟨x, h.resolve_left nofun, .refl x⟩
    | some b =>
      by_cases hb : y.beats b = true
      · refine ⟨y, if_pos hb, ?_⟩
        obtain rfl | rfl := h.imp Option.some.inj Option.some.inj
        · exact (Cand.KeyLe.total y b).resolve_left (Cand.beats_iff.1 hb)
        · exact .refl y
      · refine ⟨b, if_neg hb, ?_⟩
        obtain rfl | rfl := h.imp Option.some.inj Option.some.inj
        · exact .refl b
        · exact not_not.1 (mt Cand.beats_iff.2 hb)

/-- What the loop returns has a key at least that of what it began with and of all it ranked. -/
theorem foldl_betterOf_ge {f : Nat → Option Cand} {ds : List Nat} {best : Option Cand} {x : Cand}
    (h : best = some x ∨ ∃ d ∈ ds, f d = some x) :
    ∃ b, ds.foldl (fun best d => betterOf best (f d)) best = some b ∧ x.KeyLe b := by
  induction ds generalizing best x with
  | nil => exact ⟨x, h.resolve_right (by simp), .refl x⟩
  | cons d ds ih =>
    have hcases : (best = some x ∨ f d = some x) ∨ ∃ e ∈ ds, f e = some x := by
      simpa only [List.exists_mem_cons_iff, or_assoc] using h
    rcases hcases with hturn | hrest
    · obtain ⟨y, hy, hxy⟩ := betterOf_ge hturn
      obtain ⟨b, hb, hyb⟩ := ih (.inl hy)
      exact ⟨b, hb, hxy.trans hyb⟩
    · exact ih (.inr hrest)

/-! ## Best -/

/-- The gain rule (R240), with the exception for M1. -/
abbrev Gains (gain : Int) (cls : MatchClass) : Prop := 1 ≤ gain ∨ (gain = 0 ∧ cls = .m1)

/-- A distance is ranked where Classify represents its match and the match gains (R240). -/
theorem rankCand_eq_some_iff {d : Nat} {b : Cand} :
    rankCand p D i ctx d = some b ↔
      ∃ cls cost, classify p (fun _ => true) d (matchLen D i d) ctx = some (cls, cost) ∧
        Gains ((matchLen D i d : Int) - cost) cls ∧
        b = ⟨(matchLen D i d : Int) - cost, matchLen D i d, d, cls⟩ := by
  unfold rankCand
  cases classify p (fun _ => true) d (matchLen D i d) ctx with
  | none => simp
  | some c =>
    obtain ⟨cls, cost⟩ := c
    simp only [Option.ite_none_right_eq_some, Option.some.injEq, Prod.mk.injEq]
    constructor
    · rintro ⟨hg, rfl⟩
      exact ⟨cls, cost, ⟨rfl, rfl⟩, hg, rfl⟩
    · rintro ⟨_, _, ⟨rfl, rfl⟩, hg, rfl⟩
      exact ⟨hg, rfl⟩

/-- Best returns a candidate with a key at least that of every ranked one (R240). -/
theorem bestCand_ge {d : Nat} {x : Cand} (hd : d ∈ candidates D i depth)
    (hx : rankCand p D i ctx d = some x) : ∃ b, bestCand p D i depth ctx = some b ∧ x.KeyLe b :=
  foldl_betterOf_ge (.inr ⟨d, hd, hx⟩)

end Sys2Proof.Machine
end

section
/-! SUPPORT. The level check of ENCL and its reference run (44_leveled_encoder R231, R241, R242): the run's
choices depend on the profile, the input and the level alone, so parse B of any run is the parse of a run at
level 1. -/

namespace Sys2Proof.Machine

variable {p : Profile} {D : List Byte} {s : State} {level : Nat}

/-! ## The level check -/

/-- ENCL with a level out of range is the fault entry on the launched state (R231). -/
theorem State.start_encl_invalid (h : ¬ (1 ≤ s.level ∧ s.level ≤ 9)) :
    s.start .encl = (s.launch .encl).raise .invalidLevel := by
  simp [State.start, levelValid, h]

/-! ## A parse that makes given choices -/

/-- `n` iterations with the choices `pick`, or fewer where the parse comes to the end of D before. -/
def parseBy (p : Profile) (D : List Byte) (pick : Parse → Option Pick) : Nat → Parse → Parse
  | 0, q => q
  | n + 1, q => if q.pos < D.length then parseBy p D pick n (parseIter p D (pick q) q) else q

theorem parseBy_of_end {pick : Parse → Option Pick} {q : Parse} (hq : D.length ≤ q.pos) (n : Nat) :
    parseBy p D pick n q = q := by
  cases n with
  | zero => rfl
  | succ n => exact if_neg hq.not_gt

/-- A run on a closed source takes the iterations of its choices, then ends the parse. -/
theorem EncRun.runSteps_parseBy {uses : MatchClass → Bool} (h : EncRun s) (hm : s.PicksAdmitted uses)
    {pick : Parse → Option Pick} (hpick : ∀ q, (s.withParse q).encPick = pick q) {n : Nat} {q : Parse}
    (hn : s.data.length ≤ n + q.pos) :
    ∃ k ≤ n, runSteps (k + 1) (s.withParse q) =
      (s.withParse (parseBy s.profile s.data pick n q)).encEnd := by
  induction n generalizing q with
  | zero => exact ⟨0, le_rfl, runSteps_one ((h.withParse q).step_end (by simpa using hn))⟩
  | succ n ih =>
    by_cases hq : q.pos < s.data.length
    · have hlt := pos_lt_parseIter (hm q hq)
      have hstep := (h.withParse q).step_iterate hq
      rw [hpick, State.withParse_iterate] at hstep
      rw [hpick] at hlt
      obtain ⟨k, hk, hrun⟩ := ih (q := parseIter s.profile s.data (pick q) q) (by omega)
      refine ⟨k + 1, Nat.succ_le_succ hk, ?_⟩
      rw [runSteps, hstep, parseBy, if_pos hq]
      exact hrun
    · have hge := not_lt.1 hq
      refine ⟨0, Nat.zero_le _, ?_⟩
      rw [parseBy_of_end hge, runSteps_one ((h.withParse q).step_end hge)]

/-! ## The parse of a level -/

/-- The emitter with the stream of the reference parse at a level (R237, R241). -/
def leveledEmitter (p : Profile) (D : List Byte) (level : Nat) : Emitter :=
  parseEnd p D
    (parseBy p D (leveledPick p D (levelDepth level) (levelLazy level)) D.length Parse.fresh)

theorem State.parseLevel_first (h : s.firstParse = none) : s.parseLevel = s.runLevel := by
  simp only [State.parseLevel, h]

/-- The stream a run of two parses returns: the first on a tie (R242). -/
def shorterStream (a b : Memory) : List Byte := if a.size ≤ b.size then a.bytes else b.bytes

theorem bytes_of_shorter (a : Memory) (em : Emitter) :
    (if a.size ≤ em.c.size then { em with c := a } else em).c.bytes = shorterStream a em.c := by
  unfold shorterStream
  split <;> rfl

theorem length_shorterStream_le (a b : Memory) : (shorterStream a b).length ≤ b.bytes.length := by
  unfold shorterStream
  split
  · next hle => simpa only [Memory.bytes_length] using hle
  · exact le_rfl

/-- A reference parse of ENCL comes to its end with the stream of its level in the emitter. -/
theorem EncRun.runSteps_leveled (h : EncRun s) (hr : s.run = some .encl) (hs : s.search = .reference) :
    ∃ k ≤ s.data.length, ∃ q, runSteps (k + 1) (s.withParse .fresh) = (s.withParse q).endParse ∧
      parseEnd s.profile s.data q = leveledEmitter s.profile s.data s.parseLevel := by
  have hpick (q : Parse) : (s.withParse q).encPick =
      leveledPick s.profile s.data (levelDepth s.parseLevel) (levelLazy s.parseLevel) q := by
    rw [State.encPick_encl (s.withParse q) hr, State.enclPick, State.withParse_search, hs]
    rfl
  obtain ⟨k, hk, hrun⟩ := h.runSteps_parseBy (State.picksAdmitted_encl hr) hpick
    (n := s.data.length) (q := Parse.fresh) (Nat.le_add_right _ _)
  exact ⟨k, hk, _, hrun.trans (State.encEnd_encl _ hr), rfl⟩

/-! ## The runs -/

/-- A reference run of ENCL at level 1 returns the stream of level 1 (R242). -/
theorem EncRun.txResult_levelOne (h : EncRun s) (hf : s.parse = Parse.fresh) (hr : s.run = some .encl)
    (h1 : s.firstParse = none) (hl : s.runLevel = 1) (hs : s.search = .reference) {n : Nat}
    (hn : s.data.length + 1 ≤ n) :
    (runSteps n s).txResult = some (.ok (leveledEmitter s.profile s.data 1).c.bytes) := by
  obtain ⟨k, hk, q, hrun, hem⟩ := h.runSteps_leveled hr hs
  rw [State.parseLevel_first h1, hl] at hem
  rw [State.withParse_fresh hf, State.endParse_levelOne (s := s.withParse q) h1 hl] at hrun
  rw [(h.withParse q).txResult_of_finishEnc hrun (by omega)]
  exact congrArg (fun em : Emitter => some (TxResult.ok em.c.bytes)) hem

/-- At another level it returns the stream of the level, or that of level 1 where it is strictly shorter
(R242). -/
theorem EncRun.txResult_above (h : EncRun s) (hf : s.parse = Parse.fresh) (hr : s.run = some .encl)
    (h1 : s.firstParse = none) (hl : s.runLevel ≠ 1) (hs : s.search = .reference) {n : Nat}
    (hn : 2 * (s.data.length + 1) ≤ n) :
    (runSteps n s).txResult = some (.ok (shorterStream (leveledEmitter s.profile s.data s.runLevel).c
      (leveledEmitter s.profile s.data 1).c)) := by
  obtain ⟨kA, hkA, qA, hrunA, hemA⟩ := h.runSteps_leveled hr hs
  rw [State.parseLevel_first h1] at hemA
  rw [State.withParse_fresh hf, State.endParse_again (s := s.withParse qA) h1 hl hs] at hrunA
  let sB : State := { s with firstParse := some (parseEnd s.profile s.data qA).c }
  have hB : EncRun sB := ⟨h.pending, h.srcOpen, h.busy, h.run⟩
  obtain ⟨kB, hkB, qB, hrunB, hemB⟩ : ∃ k ≤ s.data.length, ∃ q,
      runSteps (k + 1) (sB.withParse .fresh) = (sB.withParse q).endParse ∧
        parseEnd s.profile s.data q = leveledEmitter s.profile s.data 1 := hB.runSteps_leveled hr hs
  have hrun : runSteps (kA + 1 + (kB + 1)) s = (sB.withParse qB).endParse := by
    rw [runSteps_add, hrunA]
    exact hrunB
  rw [State.endParse_second (s := sB.withParse qB) rfl] at hrun
  rw [(hB.withParse qB).txResult_of_finishEnc hrun (by omega), bytes_of_shorter, ← hemA, ← hemB]
  rfl

/-! ## The transactions -/

theorem compressLeveled_reference_one (p : Profile) (D : List Byte) :
    compressLeveled p .reference D 1 = some (.ok (leveledEmitter p D 1).c.bytes) := by
  have h : EncRun ((callState p .reference D D.length 0 1).launch .encl) := .launch rfl rfl (.inr rfl)
  have hdata := launch_callState_data p .reference D 1 .encl
  have hC := h.txResult_levelOne rfl rfl rfl rfl rfl (n := 2 * (D.length + 1)) (by rw [hdata]; omega)
  rw [hdata] at hC
  rwa [compressLeveled, State.start_encl le_rfl (Nat.le_add_left 1 8)]

theorem compressLeveled_reference_above (p : Profile) (D : List Byte) (h1 : 1 ≤ level) (h9 : level ≤ 9)
    (hl : level ≠ 1) :
    compressLeveled p .reference D level =
      some (.ok (shorterStream (leveledEmitter p D level).c (leveledEmitter p D 1).c)) := by
  have h : EncRun ((callState p .reference D D.length 0 level).launch .encl) := .launch rfl rfl (.inr rfl)
  have hdata := launch_callState_data p .reference D level .encl
  have hC := h.txResult_above rfl rfl rfl hl rfl (n := 2 * (D.length + 1)) (by rw [hdata])
  rw [hdata] at hC
  rwa [compressLeveled, State.start_encl h1 h9]

end Sys2Proof.Machine
end

section
/-! The statements of family 44_leveled_encoder. -/

namespace Sys2Proof.Machine

/-- Settles O29: the level check follows the launch, and the fault entry discards what the launch made. -/
theorem invalidLevelFaults : Obligations.InvalidLevelFaults := by
  intro s r hp hb hl
  have hstart := State.start_encl_invalid (s := { s with pending := r }) hl
  exact ⟨_, (step_command hp hb).trans (congrArg _ hstart), rfl, rfl, rfl, rfl, rfl, rfl, rfl, rfl, rfl,
    rfl, rfl⟩

/-- Settles O53: the loop of Best keeps the greatest key among the ranked candidates. -/
theorem bestCandidateIsBest : Obligations.BestCandidateIsBest := by
  intro p D i depth ctx
  refine ⟨mem_candidates_iff D i depth, fun b hb => ?_, fun hb d hd cls cost hc hg => ?_⟩
  · obtain ⟨d, hd, hr⟩ := rankCand_of_bestCand hb
    obtain ⟨cls, cost, hc, hg, rfl⟩ := rankCand_eq_some_iff.1 hr
    refine ⟨hd, rfl, ⟨cost, hc, rfl⟩, hg, fun e he cls' cost' hc' hg' => ?_⟩
    obtain ⟨b', hb', hle⟩ := bestCand_ge he (rankCand_eq_some_iff.2 ⟨cls', cost', hc', hg', rfl⟩)
    cases hb.symm.trans hb'
    exact hle
  · obtain ⟨b, hb', -⟩ := bestCand_ge hd (rankCand_eq_some_iff.2 ⟨cls, cost, hc, hg, rfl⟩)
    cases hb.symm.trans hb'

/-- Settles O60: above level 1 the result is the shorter of the level's stream and level 1's. -/
theorem higherLevelIsNeverLarger : Obligations.HigherLevelIsNeverLarger := by
  intro p D level h1 h9
  by_cases hl : level = 1
  · subst hl
    exact ⟨_, _, compressLeveled_reference_one p D, compressLeveled_reference_one p D, le_rfl⟩
  · exact ⟨_, _, compressLeveled_reference_above p D h1 h9 hl, compressLeveled_reference_one p D,
      length_shorterStream_le _ _⟩

end Sys2Proof.Machine
end

section
/-! The statements of family 60_exceptions. -/

namespace Sys2Proof.Machine

/-- Whatever the spaces hold, an instruction answers a next state or the one stop of the model (20_memory
R60, 60_exceptions R264). -/
theorem exec_next_or_absentByte (i : Instr) (s : State) :
    (∃ t, exec i s = .next t) ∨ ∃ a, exec i s = .fault (.absentByte a) := by
  cases i with
  | startPass => exact .inl ⟨_, rfl⟩
  | startTrail nn => exact .inl ⟨_, rfl⟩
  | startLit nn => exact .inl (literalRun_cases _ _ _ s)
  | lit len => exact .inl (literalRun_cases _ _ _ s)
  | trail n => exact .inl (literalRun_cases _ _ _ s)
  | m1 d c h => exact matchToken_cases _ _ _ _ s
  | m1b d c h => exact matchToken_cases _ _ _ _ s
  | m2 l d c h => exact matchToken_cases _ _ _ _ s
  | m3 len d c h => exact matchToken_cases _ _ _ _ s
  | m4 hb len d c h => exact matchToken_cases _ _ _ _ s
  | eos len c => exact .inl ⟨_, rfl⟩

theorem exec_ne_refused (i : Instr) (s : State) (r : Refusal) : exec i s ≠ .refused r := by
  rcases exec_next_or_absentByte i s with ⟨t, ht⟩ | ⟨a, ha⟩
  · simp [ht]
  · simp [ha]

/-- Settles O23: the one stop of the model is a read of an absent byte, which a canonical OUT rules out. -/
theorem noInstructionStops : Obligations.NoInstructionStops :=
  fun i s => ⟨exec_ne_refused i s, exec_total i⟩

end Sys2Proof.Machine
end

section
/-! SUPPORT. A run of DEC does not look at the length hint (10_state R22). -/

namespace Sys2Proof.Machine

variable {s : State}

/-- The state with another length hint, in the host's register and latched. -/
def State.withHint (hint : Nat) (s : State) : State := { s with outHint := hint, runHint := hint }

/-- What a transaction returns does not look at the hint. -/
theorem State.txResult_withHint (hint : Nat) (s : State) :
    (s.withHint hint).txResult = s.txResult := rfl

theorem literalRun_withHint (hint hdr n : Nat) (ph : Phase) (hw : s.src.wf) :
    literalRun hdr n ph (s.withHint hint) =
      mapNext (State.withHint hint) (literalRun hdr n ph s) := by
  have hin : (s.withHint hint).inputLeft = s.inputLeft := rfl
  rw [literalRun_eq _ _ _ _ hw, literalRun_eq _ _ _ (s.withHint hint) hw, hin]
  split
  · rfl
  · rfl

theorem matchToken_withHint (hint hdr : Nat) (pos : Int) (len : Nat) (c : BitVec 2) (s : State) :
    matchToken hdr pos len c (s.withHint hint) =
      mapNext (State.withHint hint) (matchToken hdr pos len c s) := by
  have hout : ((s.withHint hint).advance hdr).out = (s.advance hdr).out := rfl
  unfold matchToken
  simp only [hout]
  split
  · rfl
  · cases copyMatch pos.toNat len (s.advance hdr).out with
    | none => rfl
    | some o => rfl

theorem exec_withHint (hint : Nat) (i : Instr) (hw : s.src.wf) :
    exec i (s.withHint hint) = mapNext (State.withHint hint) (exec i s) := by
  cases i with
  | startPass => rfl
  | startTrail nn => rfl
  | startLit nn => exact literalRun_withHint hint _ _ _ hw
  | lit len => exact literalRun_withHint hint _ _ _ hw
  | trail n => exact literalRun_withHint hint _ _ _ hw
  | eos len c => rfl
  | _ => exact matchToken_withHint hint _ _ _ _ s

theorem State.decStep_withHint (hint : Nat) (hw : s.src.wf) :
    (s.withHint hint).decStep = mapNext (State.withHint hint) s.decStep := by
  have hd : decode (s.withHint hint).profile (s.withHint hint).phase (s.withHint hint).inputLeft =
      decode s.profile s.phase s.inputLeft := rfl
  unfold State.decStep
  rw [hd]
  cases decode s.profile s.phase s.inputLeft with
  | ok i rest => exact exec_withHint hint i hw
  | underrun => rfl
  | noToken => rfl

theorem ClosedDec.step_withHint (h : ClosedDec s) (hint : Nat) (hw : s.src.wf) :
    step (s.withHint hint) = mapNext (State.withHint hint) (step s) := by
  have h' : ClosedDec (s.withHint hint) := ⟨h.pending, h.srcOpen, h.run⟩
  by_cases hb : s.status = .busy
  · rw [h'.step_busy hb, h.step_busy hb, State.decStep_withHint hint hw]
  · rw [step_of_not_busy h'.pending hb, step_of_not_busy h.pending hb]
    rfl

/-- Runs under two hints go alike, step by step. -/
theorem ClosedDec.runSteps_withHint (h : ClosedDec s) (hint : Nat) (hw : s.src.wf) (n : Nat) :
    runSteps n (s.withHint hint) = (runSteps n s).withHint hint := by
  induction n generalizing s with
  | zero => rfl
  | succ n ih =>
    unfold runSteps
    rw [h.step_withHint hint hw]
    cases hs : step s with
    | next t =>
      have hh := h.step_sameHostSide hs
      exact ih ⟨hh.pending ▸ h.pending, hh.srcOpen ▸ h.srcOpen, hh.run ▸ h.run⟩ (hh.src ▸ hw)
    | fault f => rfl
    | refused r => rfl

end Sys2Proof.Machine
end

section
/-! SUPPORT. A DEC run on a stream cut short (70_reset_and_hazards R303): where it runs out of bytes, the run on
the whole stream uses a byte behind the cut. -/

namespace Sys2Proof.Machine

variable {s t u : State} {i : Instr} {m : Memory} {len pulled n : Nat} {bs more rest : List Byte}
  {p : Profile} {ph : Phase}

/-! ## The bytes a token uses -/

/-- How many literal bytes follow a token's header (40_decoder_control R123, R125, R131). -/
def literalLen : Instr → Nat
  | .startLit nn => startRun nn
  | .lit len => litRun len
  | .trail n => n.toNat
  | _ => 0

/-- How many bytes of the stream a token uses: its header and its literals. -/
def tokenLen (i : Instr) : Nat := headerLen i + literalLen i

/-- Every token but START_PASS uses a byte (R134). -/
theorem tokenLen_pos (hi : i.wf p = true) (hp : i ≠ .startPass) : 1 ≤ tokenLen i := by
  by_cases ht : ∃ n, i = .trail n
  · obtain ⟨n, rfl⟩ := ht
    simp only [Instr.wf, bne_iff_ne, ne_eq] at hi
    have hn : n.toNat ≠ 0 := fun h0 => hi (BitVec.eq_of_toNat_eq h0)
    exact (Nat.one_le_iff_ne_zero.2 hn).trans (Nat.le_add_left _ _)
  · exact (headerLen_pos hp fun n hn => ht ⟨n, hn⟩).trans (Nat.le_add_right _ _)

theorem literalRun_uses {hdr k : Nat} (hw : s.src.wf) (h : literalRun hdr k ph s = .next t) :
    t.status = .fault ∨ t.ip = s.ip + (hdr + k) := by
  rw [literalRun_eq _ _ _ _ hw] at h
  split at h
  · cases h; exact .inr rfl
  · cases h; exact .inl rfl

theorem matchToken_uses {hdr k : Nat} {pos : Int} {c : BitVec 2}
    (h : matchToken hdr pos k c s = .next t) : t.status = .fault ∨ t.ip = s.ip + hdr := by
  rcases matchToken_next _ _ _ _ _ _ h with ⟨bs, rfl⟩ | rfl
  · exact .inr rfl
  · exact .inl rfl

/-- A token uses its bytes, or faults. -/
theorem exec_uses (hw : s.src.wf) (h : exec i s = .next t) :
    t.status = .fault ∨ t.ip = s.ip + tokenLen i := by
  cases i with
  | startPass => cases h; exact .inr rfl
  | startTrail nn => cases h; exact .inr rfl
  | startLit nn => exact literalRun_uses hw h
  | lit len => exact literalRun_uses hw h
  | trail n => exact literalRun_uses hw h
  | eos len c => cases h; exact .inr rfl
  | _ => exact matchToken_uses h

theorem literalRun_short {hdr k : Nat} (hw : s.src.wf) (h : literalRun hdr k ph s = .next t)
    (ht : t.phase = .fault .inputUnderrun) (hph : ph ≠ .fault .inputUnderrun) :
    s.inputLeft.length < hdr + k := by
  rw [literalRun_eq _ _ _ _ hw, List.length_drop] at h
  split at h
  · cases h; exact absurd ht hph
  · omega

theorem matchToken_phase_ne_underrun {hdr k : Nat} {pos : Int} {c : BitVec 2}
    (h : matchToken hdr pos k c s = .next t) : t.phase ≠ .fault .inputUnderrun := by
  rcases matchToken_next _ _ _ _ _ _ h with ⟨bs, rfl⟩ | rfl
  · exact phaseAfter_ne_fault c _
  · exact nofun

/-- A decoded token that runs out of bytes has fewer left than it uses. -/
theorem exec_short (hw : s.src.wf) (h : exec i s = .next t) (ht : t.phase = .fault .inputUnderrun) :
    s.inputLeft.length < tokenLen i := by
  cases i with
  | startPass => cases h; cases ht
  | startTrail nn => cases h; cases ht
  | startLit nn => exact literalRun_short hw h ht nofun
  | lit len => exact literalRun_short hw h ht nofun
  | trail n => exact literalRun_short hw h ht nofun
  | eos len c => cases h; cases ht
  | _ => exact absurd ht (matchToken_phase_ne_underrun h)

/-- A header that more bytes complete is longer than the bytes that were there; START_PASS, which has none,
looks at a byte (30_encoding R103, 40_decoder_control R121). -/
theorem decode_short (hph : ∀ n, ph = .trail n → n ≠ 0) (hs : decode p ph bs = .underrun)
    (h : decode p ph (bs ++ more) = .ok i rest) :
    bs.length < headerLen i ∨ (i = .startPass ∧ bs = []) := by
  obtain ⟨hbytes, hw, hr⟩ := decode_readAs hph h
  by_cases hi : i = .startPass
  · subst hi
    refine .inr ⟨rfl, ?_⟩
    obtain rfl := eq_of_beq hr
    cases bs with
    | nil => rfl
    | cons b bs =>
      obtain ⟨j, r, hj⟩ := decodeStart_cons b bs
      exact nomatch hj.symm.trans hs
  · refine .inl (Nat.lt_of_not_le fun hle => ?_)
    rw [← length_encode p i] at hle
    obtain ⟨left, rfl⟩ : encode p i <+: bs :=
      List.prefix_of_prefix_length_le ⟨rest, hbytes⟩ (List.prefix_append bs more) hle
    exact nomatch (decode_encode hw hr fun hp => absurd hp hi).symm.trans hs

/-! ## Where a run can end -/

/-- A DEC run in progress ends behind at least one byte more (R134), and a run that has ended where it is. -/
def State.leastEnd (s : State) : Nat := if s.status = .busy then s.ip + 1 else s.ip

theorem State.ip_le_leastEnd (s : State) : s.ip ≤ s.leastEnd := by
  unfold State.leastEnd
  split <;> omega

theorem State.leastEnd_busy (hb : s.status = .busy) : s.leastEnd = s.ip + 1 := if_pos hb

theorem DecRun.not_fault_of_done (h : DecRun s) (hd : s.phase = .done) : s.status ≠ .fault := by
  intro hf
  obtain ⟨f, -, hph, -⟩ := h.inv.faulted hf
  cases hd.symm.trans hph

/-- A step brings the place where a run can end forward, or it faults. -/
theorem DecRun.leastEnd_le_of_step (h : DecRun s) (hb : s.status = .busy) (ht : s.decStep = .next t) :
    t.status = .fault ∨ s.leastEnd ≤ t.leastEnd := by
  rw [State.leastEnd_busy hb]
  rcases State.decStep_next ht with ⟨i, rest, hd, hx⟩ | ⟨-, rfl⟩ | ⟨hd, -⟩
  · by_cases hi : i = .startPass
    · subst hi
      cases hx
      exact .inr (State.leastEnd_busy (s := s.setPhase .loop) hb).ge
    · refine (exec_uses h.inv.srcWf hx).imp_right fun hip => ?_
      have hpos := tokenLen_pos (decode_readAs h.inv.trailPos hd).wf hi
      have hle := t.ip_le_leastEnd
      omega
  · exact .inl rfl
  · exact absurd hd (decode_ne_noToken (h.inv.decBusy hb h.run))

/-- A run that finds its end marker ends no earlier than it could. -/
theorem DecRun.leastEnd_le (h : DecRun s) (hd : (runSteps n s).phase = .done) :
    s.leastEnd ≤ (runSteps n s).ip := by
  induction n generalizing s with
  | zero =>
    have hb : s.status ≠ .busy := fun hb => (h.inv.decBusy hb h.run).1 hd
    exact (if_neg hb).le
  | succ n ih =>
    by_cases hb : s.status = .busy
    · obtain ⟨t, hs, hdec, ht⟩ := h.step_busy hb
      have hrun : runSteps (n + 1) s = runSteps n t := by rw [runSteps, hs]
      rw [hrun] at hd ⊢
      rcases h.leastEnd_le_of_step hb hdec with hf | hle
      · rw [runSteps_of_not_busy ht.pending (by simp [hf])] at hd
        exact absurd hf (ht.not_fault_of_done hd)
      · exact hle.trans (ih ht hd)
    · rw [runSteps_of_not_busy h.pending hb]
      exact (if_neg hb).le

/-- A DEC run never reads past its limit (10_state R23). -/
theorem DecRun.ip_le_limit (h : DecRun s) (hip : s.ip ≤ s.limit) (n : Nat) :
    (runSteps n s).ip ≤ s.limit := by
  induction n generalizing s with
  | zero => exact hip
  | succ n ih =>
    by_cases hb : s.status = .busy
    · obtain ⟨t, hs, hdec, ht⟩ := h.step_busy hb
      obtain ⟨k, ha, hk, -⟩ := h.inv.decStep_answer hb h.run hdec
      rw [runSteps, hs, ← ha.limit_eq]
      exact ih ht (by rwa [ha.ip_eq, ha.limit_eq])
    · rw [runSteps_of_not_busy h.pending hb]
      exact hip

/-! ## The run on the whole stream -/

/-- Where the step on the cut stream runs out of bytes, the step on the whole stream faults or brings the end
of its run behind the cut. -/
theorem DecRun.limit_lt_leastEnd (h : DecRun s) (hb : s.status = .busy) (hd : s.data <+: m.bytes.take len)
    (hl : DecRun (s.onInput m len pulled)) (hs : s.decStep = .next t)
    (ht : t.phase = .fault .inputUnderrun) (hu : (s.onInput m len pulled).decStep = .next u) :
    u.status = .fault ∨ s.limit < u.leastEnd := by
  have hip := h.inv.ipBound hb h.run
  obtain ⟨more, hin⟩ := State.inputLeft_onInput hip hd pulled
  have hlen := s.length_inputLeft
  rcases State.decStep_next hu with ⟨i, rest, hdec, hx⟩ | ⟨-, rfl⟩ | ⟨hdec, -⟩
  · have hdec' : decode s.profile s.phase (s.inputLeft ++ more) = .ok i rest := hin ▸ hdec
    have hcut : s.inputLeft.length < tokenLen i ∨ (i = .startPass ∧ s.inputLeft = []) := by
      rcases State.decStep_next hs with ⟨j, left, hj, hxj⟩ | ⟨hj, -⟩ | ⟨hj, -⟩
      · cases (decode_append h.inv.trailPos hj more).symm.trans hdec'
        exact .inl (exec_short h.inv.srcWf hxj ht)
      · exact (decode_short h.inv.trailPos hj hdec').imp_left (Nat.lt_add_right _)
      · exact absurd hj (decode_ne_noToken (h.inv.decBusy hb h.run))
    rcases hcut with hlt | ⟨rfl, hnil⟩
    · refine (exec_uses hl.inv.srcWf hx).imp_right fun hip' => ?_
      have hle := u.ip_le_leastEnd
      have hsame : (s.onInput m len pulled).ip = s.ip := rfl
      omega
    · cases hx
      right
      rw [State.leastEnd_busy (s := (s.onInput m len pulled).setPhase .loop) hb]
      rw [hnil] at hlen
      exact Nat.lt_succ_of_le (Nat.sub_eq_zero_iff_le.1 hlen.symm)
  · exact .inl rfl
  · exact absurd hdec (decode_ne_noToken (hl.inv.decBusy hb hl.run))

/-- A run that runs out of bytes on the cut stream finds no end marker before the cut on the whole one. -/
theorem DecRun.limit_lt_ip_of_underrun (h : DecRun s) (hm : m.wf) (hd : s.data <+: m.bytes.take len)
    (hl : DecRun (s.onInput m len pulled)) (hp : (runSteps n s).phase = .fault .inputUnderrun) {k : Nat}
    (hk : (runSteps k (s.onInput m len pulled)).phase = .done) :
    s.limit < (runSteps k (s.onInput m len pulled)).ip := by
  induction n generalizing s pulled k with
  | zero =>
    have hb : s.status ≠ .busy := fun hb => (h.inv.decBusy hb h.run).2 _ hp
    rw [h.runSteps_onInput_ended hb] at hk
    cases hk.symm.trans hp
  | succ n ih =>
    by_cases hb : s.status = .busy
    · obtain ⟨t, hs, hdec, ht⟩ := h.step_busy hb
      obtain ⟨u, hsu, hdecu, hu⟩ := hl.step_busy hb
      cases k with
      | zero => exact absurd hk (h.inv.decBusy hb h.run).1
      | succ k =>
        have hrun : runSteps (k + 1) (s.onInput m len pulled) = runSteps k u := by rw [runSteps, hsu]
        rw [runSteps, hs] at hp
        rw [hrun] at hk ⊢
        by_cases htp : t.phase = .fault .inputUnderrun
        · rcases h.limit_lt_leastEnd hb hd hl hdec htp hdecu with hf | hlt
          · rw [runSteps_of_not_busy hu.pending (by simp [hf])] at hk
            exact absurd hf (hu.not_fault_of_done hk)
          · exact hlt.trans_le (hu.leastEnd_le hk)
        · obtain ⟨pulled', hlong⟩ := h.step_onInput hb hm hd hdec htp (pulled := pulled)
          cases hsu.symm.trans hlong
          have hsame := State.decStep_sameHostSide hdec
          have hdata : t.data = s.data := by rw [State.data, State.data, hsame.src, hsame.runInLen]
          have hlim : t.limit = s.limit := by rw [State.limit, State.limit, hsame.src, hsame.runInLen]
          exact hlim ▸ ih ht (hdata ▸ hd) hu hp hk
    · rw [runSteps_of_not_busy h.pending hb] at hp
      rw [h.runSteps_onInput_ended hb] at hk
      cases hk.symm.trans hp

/-! ## The transaction -/

/-- A DEC run that has ended in a fault returns its code. -/
theorem DecRun.txResult_of_fault (h : DecRun s) {f : FaultCode} (hf : s.phase = .fault f) :
    s.txResult = some (.err f) := by
  unfold State.txResult
  cases hst : s.status with
  | idle => exact absurd hst h.notIdle
  | busy => exact absurd hf ((h.inv.decBusy hst h.run).2 f)
  | done => cases hf.symm.trans (h.inv.decDone hst h.run).1
  | fault =>
    obtain ⟨f', herr, hph, -⟩ := h.inv.faulted hst
    cases hf.symm.trans hph
    simp [herr]

/-- A DEC run in DONE has IN_POS at the byte after its end marker (R42). -/
theorem DecRun.inPos_of_done (h : DecRun s) (hd : s.phase = .done) : s.inPos = s.ip := by
  cases hst : s.status with
  | idle => exact absurd hst h.notIdle
  | busy => exact absurd hd (h.inv.decBusy hst h.run).1
  | done => exact (h.inv.decDone hst h.run).2
  | fault => exact absurd hst (h.not_fault_of_done hd)

/-- decompress's run, launched. -/
def decLaunch (p : Profile) (bs : List Byte) (hint : Nat) : State :=
  (callState p .reference bs bs.length hint 0).start .dec

theorem decLaunch_decRun (p : Profile) (bs : List Byte) (hint : Nat) : DecRun (decLaunch p bs hint) :=
  DecRun.launch rfl rfl (Memory.wf_ofBytes bs)

theorem decLaunch_data (p : Profile) (bs : List Byte) (hint : Nat) : (decLaunch p bs hint).data = bs := by
  simp [State.data, decLaunch, State.start, callState]

theorem decLaunch_limit (p : Profile) (bs : List Byte) (hint : Nat) :
    (decLaunch p bs hint).limit = bs.length := by
  rw [State.limit_eq_length_data, decLaunch_data]

/-- decompress stays within its stream. -/
theorem decRun_inPos_le {hint : Nat} (hd : (decRun p bs bs.length hint).phase = .done) :
    (decRun p bs bs.length hint).inPos ≤ bs.length := by
  rw [(decRun_ends p bs bs.length hint).1.inPos_of_done hd]
  exact ((decLaunch_decRun p bs hint).ip_le_limit (Nat.zero_le _) _).trans_eq (decLaunch_limit p bs hint)

/-- Where decompress runs out of bytes on a stream but decodes it with more bytes after it, the end marker ends
behind the stream. -/
theorem length_lt_inPos {hint : Nat} (hp : (decRun p bs bs.length hint).phase = .fault .inputUnderrun)
    (hd : (decRun p (bs ++ more) (bs ++ more).length hint).phase = .done) :
    bs.length < (decRun p (bs ++ more) (bs ++ more).length hint).inPos := by
  have hdata : (decLaunch p bs hint).data <+: (Memory.ofBytes (bs ++ more)).bytes.take (bs ++ more).length := by
    rw [decLaunch_data, Memory.bytes_ofBytes, List.take_length]
    exact List.prefix_append bs more
  rw [(decRun_ends p (bs ++ more) (bs ++ more).length hint).1.inPos_of_done hd]
  exact decLaunch_limit p bs hint ▸ (decLaunch_decRun p bs hint).limit_lt_ip_of_underrun (pulled := 0)
    (Memory.wf_ofBytes _) hdata (decLaunch_decRun p (bs ++ more) hint) hp hd

/-- What decompress returns on the front of a stream that decodes (R303). -/
theorem decompress_front {D : List Byte} {hint : Nat}
    (hD : decompress p (bs ++ more) (bs ++ more).length hint = some (.ok D)) :
    (bs.length < (decRun p (bs ++ more) (bs ++ more).length hint).inPos →
      decompress p bs bs.length hint = some (.err .inputUnderrun)) ∧
    ((decRun p (bs ++ more) (bs ++ more).length hint).inPos ≤ bs.length →
      decompress p bs bs.length hint = some (.ok D)) := by
  have hrun := (decRun_ends p bs bs.length hint).1
  have hdone := (decRun_ends p (bs ++ more) (bs ++ more).length hint).1.phase_of_ok hD
  by_cases hp : (decRun p bs bs.length hint).phase = .fault .inputUnderrun
  · exact ⟨fun _ => hrun.txResult_of_fault hp, fun hle => absurd (length_lt_inPos hp hdone) hle.not_gt⟩
  · obtain ⟨pulled, hlong⟩ := decRun_append p bs more hint hp
    rw [decompress, hlong, State.txResult_onInput] at hD
    rw [hlong]
    exact ⟨fun hlt => absurd (decRun_inPos_le (hrun.phase_of_ok hD)) hlt.not_ge, fun _ => hD⟩

end Sys2Proof.Machine
end

section
/-! SUPPORT. One iteration of an encoder, and the choices of the two reference searches case by case
(43_greedy_encoder R217, 44_leveled_encoder R241). -/

namespace Sys2Proof.Machine

variable {s : State} {p : Profile} {D : List Byte} {q : Parse}

/-! ## The iteration -/

/-- Before the end of D an encoder's step is one iteration. -/
theorem step_iterate (hp : s.pending = []) (hb : s.status = .busy)
    (hr : s.run = some .encg ∨ s.run = some .encl) (hs : s.starved = false)
    (hq : s.parse.pos < s.data.length) : step s = .next (s.iterate s.encPick) := by
  rcases hr with hr | hr
  · rw [step_encg s hp hb hr, s.encTurn_closed _ hs, State.encPick_encg s hr, State.encgStep, if_pos hq]
  · rw [step_encl s hp hb hr, s.encTurn_closed _ hs, State.encPick_encl s hr, State.enclStep, if_pos hq]

/-- What the running encoder chooses is admitted among the classes of some realisation. -/
theorem State.encPick_admitted (hr : s.run = some .encg ∨ s.run = some .encl)
    (hq : s.parse.pos < s.data.length) :
    ∃ uses, ∀ m ∈ s.encPick, m.Admitted s.profile uses s.data s.parse := by
  rcases hr with hr | hr
  · rw [State.encPick_encg s hr]
    cases hk : s.search with
    | reference => exact ⟨greedyUses, fun _ => State.encgPick_admitted hk hq⟩
    | free => exact ⟨Config.freeUses, fun _ => State.encgPick_admitted_free hk hq⟩
  · rw [State.encPick_encl s hr]
    exact ⟨fun _ => true, fun _ => State.enclPick_admitted hq⟩

/-- An iteration stays within D: a match ends there (R214 (b)). -/
theorem parseIter_pos_le {uses : MatchClass → Bool} {pick : Option Pick} (hq : q.pos < D.length)
    (hm : ∀ m ∈ pick, m.Admitted p uses D q) : (parseIter p D pick q).pos ≤ D.length := by
  cases pick with
  | none => exact hq
  | some m =>
    obtain ⟨⟨-, -, hend, -⟩, -⟩ := hm m rfl
    exact hend

/-! ## ENCL's choice -/

theorem levelDepth_of_mem {level depth : Nat} (h : (level, depth) ∈ depthTable) :
    levelDepth level = depth := by
  have table : ∀ x ∈ depthTable, levelDepth x.1 = x.2 := by decide
  exact table _ h

/-- The level of a parse is the run's in parse A and 1 in parse B (R242). -/
theorem State.parseLevel_eq {level : Nat}
    (h : s.firstParse = none ∧ s.runLevel = level ∨ s.firstParse ≠ none ∧ level = 1) :
    s.parseLevel = level := by
  rcases h with ⟨hf, rfl⟩ | ⟨hf, rfl⟩
  · exact State.parseLevel_first hf
  · obtain ⟨a, ha⟩ := Option.ne_none_iff_exists'.1 hf
    simp only [State.parseLevel, ha]

/-- Best at `i` with `r` pending literals, from the parse `q` (R240). -/
abbrev bestAt (p : Profile) (D : List Byte) (q : Parse) (depth i r : Nat) : Option Cand :=
  bestCand p D i depth (pendingCtx p q.em r)

variable {depth : Nat} {lazyStep : Bool} {c : Cand}

/-- The lookahead drops the match: it is on, and Best at the next position gains strictly more (R241). -/
abbrev Dropped (p : Profile) (D : List Byte) (q : Parse) (depth : Nat) (lazyStep : Bool) (c : Cand) : Prop :=
  lazyStep = true ∧
    ∃ c2, bestAt p D q depth (q.pos + 1) (q.pos - q.litStart + 1) = some c2 ∧ c.gain < c2.gain

theorem leveledPick_none (h : bestAt p D q depth q.pos (q.pos - q.litStart) = none) :
    leveledPick p D depth lazyStep q = none := by
  simp only [leveledPick, h]

theorem leveledPick_dropped (h : bestAt p D q depth q.pos (q.pos - q.litStart) = some c)
    (hd : Dropped p D q depth lazyStep c) : leveledPick p D depth lazyStep q = none := by
  obtain ⟨rfl, c2, h2, hlt⟩ := hd
  simp only [leveledPick, h, if_true, h2, if_pos hlt]

theorem leveledPick_kept (h : bestAt p D q depth q.pos (q.pos - q.litStart) = some c)
    (hd : ¬ Dropped p D q depth lazyStep c) :
    leveledPick p D depth lazyStep q = some ⟨c.cls, c.dist, c.len⟩ := by
  simp only [leveledPick, h]
  split
  · rfl
  · next c2 h2 =>
    refine if_neg fun hlt => hd ?_
    cases lazyStep with
    | false => cases h2
    | true => exact ⟨rfl, c2, h2, hlt⟩

/-- ENCL's choice by the reference search at a level of the table (R237). -/
theorem State.encPick_leveled {level : Nat} (hr : s.run = some .encl) (hs : s.search = .reference)
    (ht : (level, depth) ∈ depthTable)
    (hl : s.firstParse = none ∧ s.runLevel = level ∨ s.firstParse ≠ none ∧ level = 1) :
    s.encPick = leveledPick s.profile s.data depth (levelLazy level) s.parse := by
  rw [State.encPick_encl s hr, State.enclPick, hs, State.parseLevel_eq hl, levelDepth_of_mem ht]

/-- ENCG's choice by the reference search (R217). -/
theorem State.encPick_greedy (hr : s.run = some .encg) (hs : s.search = .reference) :
    s.encPick = (greedyBest s.data s.parse.pos).map fun m => ⟨greedyClass m.1 m.2, m.1, m.2⟩ := by
  rw [State.encPick_encg s hr, State.encgPick, hs]
  rfl

end Sys2Proof.Machine
end

section
/-! The statements of family 70_reset_and_hazards. -/

namespace Sys2Proof.Machine

/-- Settles O59: either encoder returns an admissible stream, and an admissible stream decodes. -/
theorem roundTrip : Obligations.RoundTrip := by
  intro p k D hint
  have decodes {uses : MatchClass → Bool} {r : Option TxResult}
      (hr : ∃ C, r = some (.ok C) ∧ Admissible p uses D C) :
      ∃ C, r = some (.ok C) ∧ decompress p C C.length hint = some (.ok D) := by
    obtain ⟨C, hC, ha⟩ := hr
    exact ⟨C, hC, (admissibleStreamsDecode.2 p uses D C ha hint).1⟩
  refine ⟨?_, fun level h1 h9 => decodes (compressLeveled_admissible h1 h9)⟩
  cases k with
  | reference => exact decodes (compress_admissible (State.picksAdmitted_reference rfl rfl))
  | free => exact decodes (compress_admissible (State.picksAdmitted_free rfl rfl))

/-- Settles O42: a run under one hint is the run under another, with the hint exchanged. -/
theorem hintDoesNotMatter : Obligations.HintDoesNotMatter := by
  intro p bs inLen h h'
  have hrun := ClosedDec.runSteps_withHint
    (s := (callState p .reference bs inLen h 0).start .dec) ⟨rfl, rfl, rfl⟩ h' (Memory.wf_ofBytes bs)
    (min inLen bs.length + 1)
  unfold decompress decRun
  rw [← State.txResult_withHint h']
  exact (congrArg State.txResult hrun).symm

/-- Settles O44: the run on the front of a stream goes as the run on the stream until it runs out of bytes, and
it does so exactly where the cut stands before the end of the end marker. -/
theorem truncationFails : Obligations.TruncationFails := by
  intro p bs D hint hD k hk
  have hlen : (bs.take k).length = k := List.length_take_of_le hk
  have hcut := decompress_front (p := p) (bs := bs.take k) (more := bs.drop k) (D := D) (hint := hint)
  rw [List.take_append_drop, hlen] at hcut
  exact hcut hD

/-- Settles O55: a step is one iteration with the choice of the search, which the relation admits. -/
theorem encoderIterationAdvances : Obligations.EncoderIterationAdvances := by
  intro s hp hb hr hs hq
  obtain ⟨uses, hm⟩ := State.encPick_admitted hr hq
  refine ⟨_, step_iterate hp hb hr hs hq, hb, rfl, rfl, rfl, pos_lt_parseIter hm, parseIter_pos_le hq hm,
    fun hk hg => ?_, fun hk hg level depth ht hl => ?_⟩
  · rw [State.iterate_parse, State.encPick_greedy hg hk]
    exact ⟨fun h => by rw [h]; rfl, fun dist len h => by rw [h]; rfl⟩
  · rw [State.iterate_parse, State.encPick_leveled hg hk ht hl]
    refine ⟨fun h => by rw [leveledPick_none h]; rfl, fun c h => ⟨fun hd => ?_, fun hd => ?_⟩⟩
    · have hd' : Dropped s.profile s.data s.parse depth (levelLazy level) c :=
        hd.imp_left decide_eq_true
      rw [leveledPick_dropped h hd']
      rfl
    · have hd' : ¬ Dropped s.profile s.data s.parse depth (levelLazy level) c :=
        fun h' => hd (h'.imp_left of_decide_eq_true)
      rw [leveledPick_kept h hd']
      rfl

/-- Settles O46: under hint 0 by running the eight bytes, and the hint does not matter. -/
theorem overlapStreamDecodes : Obligations.OverlapStreamDecodes := by
  intro hint
  have hrun : ∀ p ∈ [Profile.doc, Profile.ref],
      decompress p [0x13#8, 0x61#8, 0x62#8, 0xE4#8, 0x00#8, 0x11#8, 0x00#8, 0x00#8] 8 0 =
        some (.ok [0x61#8, 0x62#8, 0x61#8, 0x62#8, 0x61#8, 0x62#8, 0x61#8, 0x62#8, 0x61#8, 0x62#8]) := by
    decide
  exact fun p hp => (hintDoesNotMatter p _ 8 hint 0).trans (hrun p hp)

end Sys2Proof.Machine
end
